-- ==== Sys2Proof/Word.lean ====
section
/-! DEFINITION. The word types of TC-CORE: 32-bit registers and command words (R20, R80), 8-bit symbols and payload bytes (R8, R87). -/

namespace Sys2Proof

/-- A data register, a control register or a command word: 32 bits (R20, R35, R80). -/
abbrev Word := BitVec 32

/-- A symbol or a payload byte: 8 bits (R8, R87). -/
abbrev Byte := BitVec 8

end Sys2Proof
end

