-- ==== Sys2Proof/Syntax.lean ====
section
/-! DEFINITION. What can be written down: the ten commands (R81), the command word's two fields (R80), the
pseudo-instructions (R100 to R103), the names of registers and spaces (R20, R35 to R38, R60), the table
records (R83 to R86) and the host's actions (R99). -/

namespace Sys2Proof

/-- The commands of spec/opcode_table.json. A command has no operand field: every operand is implicit (R80). -/
inductive Instr where
  /-- FREQ, R112. -/
  | freq
  /-- CDF, R114. -/
  | cdf
  /-- RENC, R139. -/
  | renc
  /-- RDEC, R141. -/
  | rdec
  /-- HTREE, R161. -/
  | htree
  /-- HCODE, R164. -/
  | hcode
  /-- HENC, R167. -/
  | henc
  /-- HDEC, R170. -/
  | hdec
  /-- BPACK, R192. -/
  | bpack
  /-- BUNPK, R194. -/
  | bunpk
  deriving DecidableEq, Repr, Inhabited

/-- The two fields of a word written to CMD (R80). -/
structure CmdWord where
  /-- bits 31:8, reserved. -/
  rsv : BitVec 24
  /-- bits 7:0, the operation. -/
  opc : BitVec 8
  deriving DecidableEq, Repr, Inhabited

/-- The pseudo-instructions of R100 to R103. -/
inductive Pseudo where
  /-- RANS.COMPRESS, R100. -/
  | ransCompress
  /-- RANS.DECOMPRESS, R101. -/
  | ransDecompress
  /-- HUF.COMPRESS, R102. -/
  | hufCompress
  /-- HUF.DECOMPRESS, R103. -/
  | hufDecompress
  deriving DecidableEq, Repr, Inhabited

/-- The twelve data registers (R20), in the order of their indices. -/
inductive Reg where
  | slen | nsym | plen | ftlen | clen | total | x | pos | blen | pad | nnode | root
  deriving DecidableEq, Repr, Inhabited

/-- The three control registers (R35, R36, R38), in the order of their indices. -/
inductive CtlReg where
  | cmd | status | cfg
  deriving DecidableEq, Repr, Inhabited

/-- The seven memories (R60). -/
inductive SpaceId where
  | sym | pay | bits | ft | cdft | ht | ct
  deriving DecidableEq, Repr, Inhabited

/-- An entry of the frequency table FT (R42, R83). -/
structure FtEntry where
  sym : Byte
  count : Word
  deriving DecidableEq, Repr, Inhabited

/-- An entry of the CDF table CDFT (R43, R84). -/
structure CdfEntry where
  sym : Byte
  low : Word
  freq : Word
  deriving DecidableEq, Repr, Inhabited

/-- The tag bit of a Huffman node (R44): 0 is a Leaf, 1 an Internal node. -/
inductive NodeTag where
  | leaf | internal
  deriving DecidableEq, Repr, Inhabited

/-- A node of the Huffman node memory HT (R44, R85). `sym` has a meaning in a Leaf, `left` and `right` in
an Internal node. -/
structure HtNode where
  tag : NodeTag
  weight : Word
  sym : Byte
  left : BitVec 9
  right : BitVec 9
  deriving DecidableEq, Repr, Inhabited

/-- An entry of the code table CT (R45, R86): `code[j]` of the codeword stands at bit `254 - j` of `code`. -/
structure CtEntry where
  len : BitVec 8
  code : BitVec 255
  deriving DecidableEq, Repr, Inhabited

/-- One element of one memory, as the host writes it (R46, R63, R87). -/
inductive Elem where
  | sym (b : Byte)
  | pay (b : Byte)
  | bits (b : Bool)
  | ft (e : FtEntry)
  | cdft (e : CdfEntry)
  | ht (n : HtNode)
  | ct (e : CtEntry)
  deriving DecidableEq, Repr, Inhabited

/-- The memory an element belongs to. -/
def Elem.space : Elem → SpaceId
  | .sym _ => .sym
  | .pay _ => .pay
  | .bits _ => .bits
  | .ft _ => .ft
  | .cdft _ => .cdft
  | .ht _ => .ht
  | .ct _ => .ct

/-- What the host can do to the machine (R5, R33, R46, R67, R69, R99, R104, R230): one action is one step. -/
inductive HostAction where
  /-- SETR: write a data register (R20, R33). -/
  | setr (r : Reg) (v : Word)
  /-- Write a control register; a write of CMD starts a command (R35). -/
  | writeCtl (c : CtlReg) (v : Word)
  /-- LOADM of one element: write it at an index of its memory (R46). -/
  | loadm (i : Nat) (e : Elem)
  /-- GETR: read a data register (R67). -/
  | getr (r : Reg)
  /-- Read a control register (R67); STATUS may be read at any time (R69). -/
  | readCtl (c : CtlReg)
  /-- READM of one element (R67). -/
  | readm (sp : SpaceId) (i : Nat)
  /-- The commands a pseudo-instruction still has to issue (R104). -/
  | issue (cs : List Instr)
  /-- The reset event (R230, R233). -/
  | reset
  deriving DecidableEq, Repr, Inhabited

end Sys2Proof
end

