-- ==== Sys2Proof/Config.lean ====
section
/-! DEFINITION. What a build of the hardware fixes (R6 to R9, R50), and the free values: constants with no body,
of which nothing can be proved (R49, R212, R232). -/

namespace Sys2Proof

/-- The rANS precision `P`, restricted to 8, 16 and 24 (R6). -/
inductive Precision where
  | p8 | p16 | p24
  deriving DecidableEq, Repr, Inhabited

/-- `P` as a number. -/
def Precision.bits : Precision → Nat
  | .p8 => 8
  | .p16 => 16
  | .p24 => 24

/-- A capacity: at most `2^32 - 1` (R9). -/
abbrev Capacity := Fin 4294967296

/-- The build-time constants of one TC-CORE (R6, R9, R50). -/
structure Config where
  prec : Precision
  symCap : Capacity
  payCap : Capacity
  bitsCap : Capacity
  deriving DecidableEq, Repr

namespace Config

/-- `P` (R6). -/
def p (c : Config) : Nat := c.prec.bits

/-- `base = 2^P` (R6, R130). -/
def base (c : Config) : Nat := 2 ^ c.p

/-- `XW = P + 8`, the width of the rANS state register (R7). -/
def xw (c : Config) : Nat := c.p + 8

/-- `FB = (P + 8) / 8`, the bytes of the state word (R7). -/
def fb (c : Config) : Nat := (c.p + 8) / 8

/-- This hardware's precision, `P = 16` (R6), with the capacities the spec suggests (R9). DESIGN CHOICE (log 2) for
the capacities; unsafe only for a claim about `State.reset` alone. -/
def default : Config where
  prec := .p16
  symCap := ⟨1048576, by decide⟩
  payCap := ⟨4194304, by decide⟩
  bitsCap := ⟨33554432, by decide⟩

/-- Free value: the data register of index `reg` left unspecified under key `gen` (R212). -/
opaque freeReg (gen reg : Nat) : Word
/-- Free value: the unspecified symbol `SYM[i]` under key `gen` (R49, R212, R232). -/
opaque freeSym (gen i : Nat) : Byte
/-- Free value: the unspecified byte `PAY[i]` under key `gen`. -/
opaque freePay (gen i : Nat) : Byte
/-- Free value: the unspecified bit `BITS[i]` under key `gen`. -/
opaque freeBit (gen i : Nat) : Bool
/-- Free value: the unspecified entry `FT[i]` under key `gen`. -/
opaque freeFt (gen i : Nat) : FtEntry
/-- Free value: the unspecified entry `CDFT[i]` under key `gen`. -/
opaque freeCdft (gen i : Nat) : CdfEntry
/-- Free value: the unspecified node `HT[i]` under key `gen`. -/
opaque freeHt (gen i : Nat) : HtNode
/-- Free value: the unspecified entry `CT[i]` under key `gen`. -/
opaque freeCt (gen i : Nat) : CtEntry

end Config

end Sys2Proof
end

