-- ==== Sys2Proof/WellFormed.lean ====
section
/-! DEFINITION. Which command words and which instructions are well formed (R80, R96, R97). -/

namespace Sys2Proof

/-- A command word is legal when its reserved field is 0 (R96) and its operation is 1 to 10 (R97). -/
def CmdWord.wf (c : CmdWord) : Bool :=
  c.rsv == 0 && decide (1 ≤ c.opc.toNat) && decide (c.opc.toNat ≤ 10)

/-- A command carries no operand (R80), so no instruction term can be ill formed. -/
def Instr.wf : Instr → Bool
  | .freq | .cdf | .renc | .rdec | .htree | .hcode | .henc | .hdec | .bpack | .bunpk => true

end Sys2Proof
end

