-- ==== Sys2Proof/Decode.lean ====
section
/-! DEFINITION. The command word's decoder, total on every 32-bit word and rejecting by name (R80 to R82, R96,
R97), and its encoder. -/

namespace Sys2Proof

/-- Why a word is no command (R96, R97). -/
inductive DecodeError where
  /-- One of bits 31:8 is set (R96). -/
  | reservedField
  /-- The reserved field is 0 and OPC is 0 or above 10 (R97). -/
  | undefinedOpcode
  deriving DecidableEq, Repr

/-- One row of the opcode table (R82). -/
structure OpcodeRow where
  instr : Instr
  pattern : Word
  mask : Word
  deriving DecidableEq, Repr

/-- The rows of spec/opcode_table.json (R81, R82). -/
def opcodeTable : List OpcodeRow :=
  [ ⟨.freq,  0x00000001, 0xFFFFFFFF⟩,
    ⟨.cdf,   0x00000002, 0xFFFFFFFF⟩,
    ⟨.renc,  0x00000003, 0xFFFFFFFF⟩,
    ⟨.rdec,  0x00000004, 0xFFFFFFFF⟩,
    ⟨.htree, 0x00000005, 0xFFFFFFFF⟩,
    ⟨.hcode, 0x00000006, 0xFFFFFFFF⟩,
    ⟨.henc,  0x00000007, 0xFFFFFFFF⟩,
    ⟨.hdec,  0x00000008, 0xFFFFFFFF⟩,
    ⟨.bpack, 0x00000009, 0xFFFFFFFF⟩,
    ⟨.bunpk, 0x0000000A, 0xFFFFFFFF⟩ ]

/-- The fields of a word (R80). -/
def cmdFields (w : Word) : CmdWord where
  rsv := w.extractLsb' 8 24
  opc := w.extractLsb' 0 8

/-- The word of two fields (R80). -/
def CmdWord.word (c : CmdWord) : Word := c.rsv ++ c.opc

/-- A word selects the command whose row it matches under the row's mask; a word that matches no row is
rejected by the name of what is wrong with it (R82, R96, R97). -/
def decode (w : Word) : Except DecodeError Instr :=
  match opcodeTable.find? (fun r => w &&& r.mask == r.pattern) with
  | some r => .ok r.instr
  | none => if (cmdFields w).rsv = 0 then .error .undefinedOpcode else .error .reservedField

/-- The operation number of a command (R81). -/
def Instr.opc : Instr → BitVec 8
  | .freq => 0x01
  | .cdf => 0x02
  | .renc => 0x03
  | .rdec => 0x04
  | .htree => 0x05
  | .hcode => 0x06
  | .henc => 0x07
  | .hdec => 0x08
  | .bpack => 0x09
  | .bunpk => 0x0A

/-- The full word of a command is its operation number, zero-extended (R81). -/
def encode (i : Instr) : Word := (CmdWord.mk 0 i.opc).word

/-- The instruction the decoder reads from a word whose `nbits` bits are `w`, every higher bit 0. A command is one
32-bit register write with no byte order (R63, R80), so a number of 33 bits or more is no command. -/
def decodeTableWord (nbits w : Nat) : Option Instr :=
  let v := w % 2 ^ nbits
  if v < 4294967296 then
    match decode (BitVec.ofNat 32 v) with
    | .ok i => some i
    | .error _ => none
  else none

/-- The commands a pseudo-instruction stands for, in order (R100 to R103). -/
def Pseudo.expand : Pseudo → List Instr
  | .ransCompress => [.freq, .cdf, .renc]
  | .ransDecompress => [.cdf, .rdec]
  | .hufCompress => [.freq, .htree, .hcode, .henc]
  | .hufDecompress => [.hdec]

end Sys2Proof
end

