-- ==== Sys2Proof/Machine/State.lean ====
section
/-! DEFINITION. The machine's state (R20 to R51), the errors a command can end with (R200), the stops of the
model, and the state after reset (R231, R232). -/

namespace Sys2Proof.Machine

/-- One memory: the elements that hold a known value, with rising indices, and the key under which every other
element holds a free value (R49, R232; log 4). Over bytes the list is a list of `Host.Cell`. -/
structure Memory (α : Type) where
  cells : List (Nat × α)
  gen : Nat
  deriving DecidableEq, Repr

/-- The twelve data registers (R20). -/
structure Regs where
  slen : Word
  nsym : Word
  plen : Word
  ftlen : Word
  clen : Word
  total : Word
  x : Word
  pos : Word
  blen : Word
  pad : Word
  nnode : Word
  root : Word
  deriving DecidableEq, Repr

/-- The stored fields of STATUS (R36); its other bits read as 0 (log 13). -/
structure Status where
  busy : Bool
  done : Bool
  err : Bool
  errcode : BitVec 8
  lastop : BitVec 8
  deriving DecidableEq, Repr

/-- The kinds of error a command can end with (R200). -/
inductive ErrKind where
  /-- InvalidPaddingError, code 1 (R201). -/
  | invalidPadding
  /-- DecodeMismatchError, code 2 (R202). -/
  | decodeMismatch
  /-- TruncatedStreamError, code 3 (R203). -/
  | truncatedStream
  /-- MalformedCodeError, code 4 (R204). -/
  | malformedCode
  /-- ModelInvariantError, code 5 (R205). -/
  | modelInvariant
  /-- LengthMismatchError, code 6 (R206). -/
  | lengthMismatch
  /-- CapacityError, code 7 (R207). -/
  | capacity
  /-- IllegalCommandError, code 8 (R208). -/
  | illegalCommand
  deriving DecidableEq, Repr

/-- Why the model stops. -/
inductive Fault where
  /-- Raised by a host access (`HostAction.loadm`, `HostAction.readm`) at an index its memory does not have; the spec
  gives such an access no meaning (R60, R73). Safe: the model stops (log 7). -/
  | hostIndexOutsideSpace
  /-- Raised by RENC on a CDFT entry of frequency 0, whose renormalisation loop would not end; CDF never writes one
  (R115 c, R131). Safe: no state a run reaches raises it (log 10). -/
  | encoderLoopNeverEnds
  /-- Raised by HCODE when the nodes below ROOT are no tree of depth at most 255; HTREE writes only such trees
  (R163 e, R164). Safe: no state a run reaches raises it (log 10). -/
  | huffmanTreeTooDeep
  deriving DecidableEq, Repr

/-- What the model gives no meaning. -/
inductive Refusal where
  /-- Raised by `exec` for an instruction that has no meaning yet. Safe. -/
  | notModelled (mnemonic : String)
  /-- Raised by a host access other than reading STATUS while BUSY = 1: the spec gives it no meaning (R69, R242).
  Safe (log 8). -/
  | hostAccessWhileBusy
  deriving DecidableEq, Repr

/-- Everything the spec gives the machine, and the model's own three fields: the configuration of this instance
(log 1), the host actions still to happen (log 3) and the free-value counter (log 4). -/
structure State where
  /-- The build-time constants (R50). -/
  cfg : Config
  /-- The data registers (R20). -/
  regs : Regs
  /-- The status register (R36). -/
  status : Status
  /-- SYM (R39). -/
  sym : Memory Byte
  /-- PAY (R40). -/
  pay : Memory Byte
  /-- BITS (R41). -/
  bits : Memory Bool
  /-- FT (R42). -/
  ft : Memory FtEntry
  /-- CDFT (R43). -/
  cdft : Memory CdfEntry
  /-- HT (R44). -/
  ht : Memory HtNode
  /-- CT (R45). -/
  ct : Memory CtEntry
  /-- The host actions still to happen, oldest first. -/
  inputs : List HostAction
  /-- The next unused key of free values. -/
  fresh : Nat
  deriving DecidableEq, Repr

/-- What a command's body comes to: its end (`done`), a `raise` (R13), or a stop of the model. -/
inductive Result (α : Type) where
  | done (a : α)
  | raise (k : ErrKind)
  | stuck (f : Fault)
  deriving DecidableEq, Repr

/-- Every data register 0 (R231). -/
def Regs.zero : Regs := ⟨0, 0, 0, 0, 0, 0, 0, 0, 0, 0, 0, 0⟩

/-- STATUS `0x00000000` (R231). -/
def Status.zero : Status := ⟨false, false, false, 0, 0⟩

/-- The state right after reset of an instance with constants `c` (R230 to R232): registers 0, no element of any
memory known. -/
def State.resetWith (c : Config) : State where
  cfg := c
  regs := Regs.zero
  status := Status.zero
  sym := ⟨[], 0⟩
  pay := ⟨[], 0⟩
  bits := ⟨[], 0⟩
  ft := ⟨[], 0⟩
  cdft := ⟨[], 0⟩
  ht := ⟨[], 0⟩
  ct := ⟨[], 0⟩
  inputs := []
  fresh := 1

/-- The state right after reset of this hardware (R230 to R232), with the constants of log 2. -/
def State.reset : State := State.resetWith Config.default

end Sys2Proof.Machine
end

