-- ==== Sys2Proof/Machine/Flags.lean ====
section
/-! DEFINITION. The control registers as words and the only flags of the hardware, STATUS.BUSY, DONE and ERR
(R35 to R38), with the error codes (R200). -/

namespace Sys2Proof.Machine

/-- The code of an error kind (R200). -/
def ErrKind.code : ErrKind → BitVec 8
  | .invalidPadding => 1
  | .decodeMismatch => 2
  | .truncatedStream => 3
  | .malformedCode => 4
  | .modelInvariant => 5
  | .lengthMismatch => 6
  | .capacity => 7
  | .illegalCommand => 8

/-- STATUS as the host reads it (R36): LASTOP in bits 23:16, ERRCODE in 15:8, ERR, DONE and BUSY in 2:0, 0 elsewhere. -/
def Status.word (t : Status) : Word :=
  0#8 ++ t.lastop ++ t.errcode ++ 0#5 ++ BitVec.ofBool t.err ++ BitVec.ofBool t.done ++ BitVec.ofBool t.busy

/-- STATUS at the write of CMD (R37, R106): busy, not done, no error, LASTOP the word's bits 7:0. -/
def Status.started (op : BitVec 8) : Status where
  busy := true
  done := false
  err := false
  errcode := 0
  lastop := op

/-- STATUS at the end of a command (R37, R106): not busy, done, ERR exactly when the code is not 0. -/
def Status.finished (t : Status) (code : BitVec 8) : Status where
  busy := false
  done := true
  err := code != 0
  errcode := code
  lastop := t.lastop

/-- CFG as the host reads it (R38): P, FB, SYMW = 8, VER = 1, from bit 0 up, a byte each. -/
def cfgWord (c : Config) : Word :=
  1#8 ++ 8#8 ++ BitVec.ofNat 8 c.fb ++ BitVec.ofNat 8 c.p

/-- A control register as the host reads it: CMD reads 0 (R35), STATUS and CFG their words (R36, R38). -/
def State.readCtl (s : State) : CtlReg → Word
  | .cmd => 0
  | .status => s.status.word
  | .cfg => cfgWord s.cfg

end Sys2Proof.Machine
end

