-- ==== Sys2Proof/Machine/Operands.lean ====
section
/-! DEFINITION. The implicit operands of the commands (R65, R80, R212): register indices and rights (R20), memory
sizes and rights (R46, R60), the outputs of each command (R65), and the bit layouts of the table records (R83 to R86). -/

namespace Sys2Proof.Machine

/-- The index of a data register (R20). -/
def regIndex : Reg → Nat
  | .slen => 0
  | .nsym => 1
  | .plen => 2
  | .ftlen => 3
  | .clen => 4
  | .total => 5
  | .x => 6
  | .pos => 7
  | .blen => 8
  | .pad => 9
  | .nnode => 10
  | .root => 11

/-- Whether the host may write a data register (R20); a write to any other is ignored (R33). -/
def regHostWritable : Reg → Bool
  | .slen | .nsym | .plen | .ftlen | .blen => true
  | .clen | .total | .x | .pos | .pad | .nnode | .root => false

/-- Whether the host may write a memory (R46); a write to any other is ignored (R33). -/
def spaceHostWritable : SpaceId → Bool
  | .sym | .pay | .bits | .ft | .ct => true
  | .cdft | .ht => false

/-- How many elements a memory has (R8, R9, R60). -/
def spaceSize (c : Config) : SpaceId → Nat
  | .sym => c.symCap.val
  | .pay => c.payCap.val
  | .bits => c.bitsCap.val
  | .ft => 256
  | .cdft => 256
  | .ht => 511
  | .ct => 256

/-- The output length registers of a command, which an error sets to 0 (R212). -/
def lengthRegs : Instr → List Reg
  | .freq => [.ftlen]
  | .cdf => [.clen, .total]
  | .renc => [.plen]
  | .rdec => [.slen]
  | .htree => [.nnode, .root]
  | .hcode => []
  | .henc => [.plen]
  | .hdec => [.slen]
  | .bpack => [.plen]
  | .bunpk => [.blen]

/-- The registers R65 lists as outputs of a command. -/
def outRegs : Instr → List Reg
  | .freq => [.ftlen]
  | .cdf => [.clen, .total]
  | .renc => [.plen, .nsym, .x]
  | .rdec => [.slen, .x, .pos]
  | .htree => [.nnode, .root]
  | .hcode => []
  | .henc => [.blen, .pad, .plen, .nsym]
  | .hdec => [.blen, .pad, .slen]
  | .bpack => [.plen, .pad]
  | .bunpk => [.blen, .pad]

/-- The memories R65 lists as outputs of a command. -/
def outSpaces : Instr → List SpaceId
  | .freq => [.ft]
  | .cdf => [.cdft]
  | .renc => [.pay]
  | .rdec => [.sym]
  | .htree => [.ht]
  | .hcode => [.ct]
  | .henc => [.bits, .pay]
  | .hdec => [.bits, .sym]
  | .bpack => [.pay]
  | .bunpk => [.bits]

/-- An FT entry as its 40 bits: sym, count (R83). -/
def packFt (e : FtEntry) : BitVec 40 := e.sym ++ e.count

/-- The FT entry of 40 bits (R83). -/
def unpackFt (w : BitVec 40) : FtEntry where
  sym := w.extractLsb' 32 8
  count := w.extractLsb' 0 32

/-- A CDFT entry as its 72 bits: sym, low, freq (R84). -/
def packCdf (e : CdfEntry) : BitVec 72 := e.sym ++ e.low ++ e.freq

/-- The CDFT entry of 72 bits (R84). -/
def unpackCdf (w : BitVec 72) : CdfEntry where
  sym := w.extractLsb' 64 8
  low := w.extractLsb' 32 32
  freq := w.extractLsb' 0 32

/-- The tag bit: 0 for a Leaf, 1 for an Internal node (R44). -/
def tagBit : NodeTag → BitVec 1
  | .leaf => 0
  | .internal => 1

/-- An HT node as its 59 bits: tag, weight, sym, left, right (R85). -/
def packHt (n : HtNode) : BitVec 59 := tagBit n.tag ++ n.weight ++ n.sym ++ n.left ++ n.right

/-- The HT node of 59 bits (R85). -/
def unpackHt (w : BitVec 59) : HtNode where
  tag := if w.extractLsb' 58 1 = 0 then .leaf else .internal
  weight := w.extractLsb' 26 32
  sym := w.extractLsb' 18 8
  left := w.extractLsb' 9 9
  right := w.extractLsb' 0 9

/-- A CT entry as its 263 bits: len, code (R86). -/
def packCt (e : CtEntry) : BitVec 263 := e.len ++ e.code

/-- The CT entry of 263 bits (R86). -/
def unpackCt (w : BitVec 263) : CtEntry where
  len := w.extractLsb' 255 8
  code := w.extractLsb' 0 255

/-- A Leaf as HTREE writes it: `left` and `right` 0 (R85, R161). -/
def leafNode (e : FtEntry) : HtNode where
  tag := .leaf
  weight := e.count
  sym := e.sym
  left := 0
  right := 0

/-- An Internal node as HTREE writes it: `sym` 0 (R85, R161). -/
def internalNode (weight left right : Nat) : HtNode where
  tag := .internal
  weight := BitVec.ofNat 32 weight
  sym := 0
  left := BitVec.ofNat 9 left
  right := BitVec.ofNat 9 right

/-- The codeword of a CT entry: the bits `code[0]` to `code[len - 1]`, where `code[j]` is bit `254 - j` (R86). -/
def codeword (e : CtEntry) : List Bool :=
  (List.range e.len.toNat).map (fun j => e.code.getLsbD (254 - j))

/-- A bit string as a number, its first bit the most significant. -/
def bitsValue (p : List Bool) : Nat := p.foldl (fun n b => 2 * n + b.toNat) 0

/-- The CT entry of a codeword of at most 255 bits; the bits of `code` past it are 0 (R86). -/
def ctOfPath (p : List Bool) : CtEntry where
  len := BitVec.ofNat 8 p.length
  code := BitVec.ofNat 255 (bitsValue p * 2 ^ (255 - p.length))

/-- The CT entry of a symbol without a codeword (R86, R164). -/
def ctAbsent : CtEntry where
  len := 0
  code := 0

end Sys2Proof.Machine
end

