-- ==== Sys2Proof/Machine/Ops.lean ====
section
/-! DEFINITION. The shared operations over registers and memories (R13, R20, R33, R60, R66, R67), the command frame
(R106), error entry (R212) and reset (R230 to R233). -/

namespace Sys2Proof.Machine

/-- The stored value of a data register. -/
def Regs.get (g : Regs) : Reg → Word
  | .slen => g.slen
  | .nsym => g.nsym
  | .plen => g.plen
  | .ftlen => g.ftlen
  | .clen => g.clen
  | .total => g.total
  | .x => g.x
  | .pos => g.pos
  | .blen => g.blen
  | .pad => g.pad
  | .nnode => g.nnode
  | .root => g.root

/-- The register file that holds `f r` in each register `r`. -/
def Regs.ofFn (f : Reg → Word) : Regs where
  slen := f .slen
  nsym := f .nsym
  plen := f .plen
  ftlen := f .ftlen
  clen := f .clen
  total := f .total
  x := f .x
  pos := f .pos
  blen := f .blen
  pad := f .pad
  nnode := f .nnode
  root := f .root

/-- The register file with one register replaced. -/
def Regs.set (g : Regs) (r : Reg) (v : Word) : Regs :=
  Regs.ofFn (fun q => if q = r then v else g.get q)

/-- `r[NAME]`: the value of a data register (R13). X implements `XW` bits and its other bits read as 0 (R27). -/
def State.reg (s : State) (r : Reg) : Word :=
  match r with
  | .x => BitVec.ofNat 32 (s.regs.x.toNat % 2 ^ s.cfg.xw)
  | q => s.regs.get q

/-- A data register as a number: "all arithmetic unsigned" (R10, R11). -/
def State.n (s : State) (r : Reg) : Nat := (s.reg r).toNat

/-- `r[NAME] <- v` (R13). -/
def State.setReg (s : State) (r : Reg) (v : Word) : State := { s with regs := s.regs.set r v }

/-- `r[NAME] <- v` for a number the rule has shown to fit 32 bits (R11, R66). -/
def State.setNat (s : State) (r : Reg) (v : Nat) : State := s.setReg r (BitVec.ofNat 32 v)

/-- The known value of an element, if it has one. -/
def Memory.get? {α : Type} (m : Memory α) (i : Nat) : Option α := m.cells.lookup i

/-- `SPACE[i]` on the right of an assignment (R13): the known value, else the free value of the memory's key. -/
def Memory.read {α : Type} (free : Nat → Nat → α) (m : Memory α) (i : Nat) : α :=
  (m.get? i).getD (free m.gen i)

/-- A list of cells with rising indices, with the element at `i` set to `v`. -/
def insertCell {α : Type} (i : Nat) (v : α) : List (Nat × α) → List (Nat × α)
  | [] => [(i, v)]
  | (j, w) :: cs =>
    if i < j then (i, v) :: (j, w) :: cs
    else if i = j then (i, v) :: cs
    else (j, w) :: insertCell i v cs

/-- `SPACE[i] <- v` (R13). -/
def Memory.write {α : Type} (m : Memory α) (i : Nat) (v : α) : Memory α :=
  { m with cells := insertCell i v m.cells }

/-- Consecutive cells from index `k`. -/
def cellsFrom {α : Type} (k : Nat) : List α → List (Nat × α)
  | [] => []
  | v :: vs => (k, v) :: cellsFrom (k + 1) vs

/-- The memory a command leaves after writing `vs` at index 0 and on: the elements at or beyond the new length are
free (R49; log 5). -/
def Memory.ofList {α : Type} (gen : Nat) (vs : List α) : Memory α where
  cells := cellsFrom 0 vs
  gen := gen

/-- A memory no element of which is known (R212, R232). -/
def Memory.unknown {α : Type} (gen : Nat) : Memory α where
  cells := []
  gen := gen

/-- The canonical form of a memory of `size` elements: rising indices, all below `size`. A listed element is known
and an unlisted one is not, so no entry can repeat what an unlisted index holds. -/
abbrev Memory.wf {α : Type} (size : Nat) (m : Memory α) : Prop :=
  m.cells.Pairwise (fun a b => a.1 < b.1) ∧ ∀ c ∈ m.cells, c.1 < size

/-- `SYM[i]` (R39). -/
def State.symAt (s : State) (i : Nat) : Byte := s.sym.read Config.freeSym i
/-- `PAY[i]` (R40). -/
def State.payAt (s : State) (i : Nat) : Byte := s.pay.read Config.freePay i
/-- `BITS[i]` (R41). -/
def State.bitAt (s : State) (i : Nat) : Bool := s.bits.read Config.freeBit i
/-- `FT[i]` (R42). -/
def State.ftAt (s : State) (i : Nat) : FtEntry := s.ft.read Config.freeFt i
/-- `CDFT[i]` (R43). -/
def State.cdftAt (s : State) (i : Nat) : CdfEntry := s.cdft.read Config.freeCdft i
/-- `HT[i]` (R44). -/
def State.htAt (s : State) (i : Nat) : HtNode := s.ht.read Config.freeHt i
/-- `CT[i]` (R45). -/
def State.ctAt (s : State) (i : Nat) : CtEntry := s.ct.read Config.freeCt i
/-- The code-table entry of a symbol (R45). -/
def State.ctOf (s : State) (b : Byte) : CtEntry := s.ctAt b.toNat

/-- `SYM[0..n)` (R12). -/
def State.symbols (s : State) (n : Nat) : List Byte := (List.range n).map s.symAt
/-- `PAY[0..n)`. -/
def State.payload (s : State) (n : Nat) : List Byte := (List.range n).map s.payAt
/-- `BITS[0..n)`. -/
def State.bitString (s : State) (n : Nat) : List Bool := (List.range n).map s.bitAt
/-- `FT[0..n)`. -/
def State.ftTable (s : State) (n : Nat) : List FtEntry := (List.range n).map s.ftAt
/-- `CDFT[0..n)`. -/
def State.cdfTable (s : State) (n : Nat) : List CdfEntry := (List.range n).map s.cdftAt

/-- SYM becomes `vs`, its other elements free. -/
def State.putSym (s : State) (vs : List Byte) : State :=
  { s with sym := Memory.ofList s.fresh vs, fresh := s.fresh + 1 }
/-- PAY becomes `vs`, its other elements free. -/
def State.putPay (s : State) (vs : List Byte) : State :=
  { s with pay := Memory.ofList s.fresh vs, fresh := s.fresh + 1 }
/-- BITS becomes `vs`, its other elements free. -/
def State.putBits (s : State) (vs : List Bool) : State :=
  { s with bits := Memory.ofList s.fresh vs, fresh := s.fresh + 1 }
/-- FT becomes `vs`, its other entries free. -/
def State.putFt (s : State) (vs : List FtEntry) : State :=
  { s with ft := Memory.ofList s.fresh vs, fresh := s.fresh + 1 }
/-- CDFT becomes `vs`, its other entries free. -/
def State.putCdft (s : State) (vs : List CdfEntry) : State :=
  { s with cdft := Memory.ofList s.fresh vs, fresh := s.fresh + 1 }
/-- HT becomes `vs`, its other nodes free. -/
def State.putHt (s : State) (vs : List HtNode) : State :=
  { s with ht := Memory.ofList s.fresh vs, fresh := s.fresh + 1 }
/-- CT becomes `vs`, its other entries free. -/
def State.putCt (s : State) (vs : List CtEntry) : State :=
  { s with ct := Memory.ofList s.fresh vs, fresh := s.fresh + 1 }

/-- A memory left alone, or left with no known element when `b` holds. -/
def Memory.forgetIf {α : Type} (b : Bool) (gen : Nat) (m : Memory α) : Memory α :=
  if b then Memory.unknown gen else m

/-- The registers `rs` and the memories `ms` become free, everything else is unchanged (R212). -/
def State.forget (s : State) (rs : List Reg) (ms : List SpaceId) : State :=
  { s with
    regs := Regs.ofFn (fun r => if r ∈ rs then Config.freeReg s.fresh (regIndex r) else s.regs.get r)
    sym := s.sym.forgetIf (ms.contains .sym) s.fresh
    pay := s.pay.forgetIf (ms.contains .pay) s.fresh
    bits := s.bits.forgetIf (ms.contains .bits) s.fresh
    ft := s.ft.forgetIf (ms.contains .ft) s.fresh
    cdft := s.cdft.forgetIf (ms.contains .cdft) s.fresh
    ht := s.ht.forgetIf (ms.contains .ht) s.fresh
    ct := s.ct.forgetIf (ms.contains .ct) s.fresh
    fresh := s.fresh + 1 }

/-- The registers `rs` become 0. -/
def State.zeroRegs (s : State) (rs : List Reg) : State :=
  { s with regs := Regs.ofFn (fun r => if r ∈ rs then 0 else s.regs.get r) }

/-- The first half of the command frame (R106): BUSY, no result yet, LASTOP. -/
def State.begin (s : State) (op : BitVec 8) : State := { s with status := Status.started op }

/-- The second half of the command frame (R106): idle, done, the code. -/
def State.finish (s : State) (code : BitVec 8) : State := { s with status := s.status.finished code }

/-- Error entry, the meaning of `raise k` in command `i` (R212): the outputs become free, the length registers 0,
everything else keeps the value it had when the command started, and STATUS records the code. -/
def State.raiseError (s : State) (i : Instr) (k : ErrKind) : State :=
  ((s.forget (outRegs i) (outSpaces i)).zeroRegs (lengthRegs i)).finish k.code

/-- IllegalCommandError: STATUS only (R96, R97, R106, R212). -/
def State.illegalCommand (s : State) (op : BitVec 8) : State :=
  (s.begin op).finish ErrKind.illegalCommand.code

/-- The command frame around a body (R106). -/
def runCommand (i : Instr) (body : State → Result State) (s : State) : Host.Outcome State Fault Refusal :=
  match body (s.begin i.opc) with
  | .done t => .next (t.finish 0)
  | .raise k => .next ((s.begin i.opc).raiseError i k)
  | .stuck f => .fault f

/-- Sequencing of the parts of a body: a `raise` ends it at once (R13). -/
def Result.andThen {α β : Type} (r : Result α) (f : α → Result β) : Result β :=
  match r with
  | .done a => f a
  | .raise k => .raise k
  | .stuck g => .stuck g

/-- The reset event (R230 to R233): the reset state of this instance, with contents that may differ from those of
any other reset; the host actions after it still stand (log 15). -/
def State.resetEvent (s : State) : State :=
  { State.resetWith s.cfg with
    sym := Memory.unknown s.fresh
    pay := Memory.unknown s.fresh
    bits := Memory.unknown s.fresh
    ft := Memory.unknown s.fresh
    cdft := Memory.unknown s.fresh
    ht := Memory.unknown s.fresh
    ct := Memory.unknown s.fresh
    inputs := s.inputs
    fresh := s.fresh + 1 }

end Sys2Proof.Machine
end

