-- ==== Sys2Proof/Machine/BitPack.lean ====
section
/-! DEFINITION. The bit-packing and bit-unpacking units (R190 to R195): BPACK (R192) and BUNPK (R194). -/

namespace Sys2Proof.Machine

/-- The padding count `k` of `len` bits (R92, R191). -/
def padCount (len : Nat) : Nat := (8 - len % 8) % 8

/-- The packed byte `q` (R191): stream bit `8q + t` at bit `7 - t`, 0 past the end of the stream (R62, R93). -/
def packByte (bs : List Bool) (q : Nat) : Byte :=
  (List.range 8).foldl (fun v t => v ||| (BitVec.ofNat 8 (bs.getD (8 * q + t) false).toNat) <<< (7 - t)) 0

/-- `PackBits()` (R191). -/
def packBits (s : State) : Result State :=
  let len := s.n .blen
  if s.cfg.bitsCap.val < len then .raise .capacity
  else
    let k := padCount len
    let nb := (len + k) / 8
    if s.cfg.payCap.val < 1 + nb then .raise .capacity
    else
      let bs := s.bitString len
      let bytes := BitVec.ofNat 8 k :: (List.range nb).map (packByte bs)
      .done (((s.putPay bytes).setNat .plen (1 + nb)).setNat .pad k)

/-- BPACK, R192. -/
def execBpack (s : State) : Host.Outcome State Fault Refusal := runCommand .bpack packBits s

/-- Bit `idx` of the stream packed in a payload (R62, R193). -/
def unpackBit (bytes : List Byte) (idx : Nat) : Bool := (bytes.getD (1 + idx / 8) 0).getLsbD (7 - idx % 8)

/-- `UnpackBits()` (R193). -/
def unpackBits (s : State) : Result State :=
  if s.cfg.payCap.val < s.n .plen then .raise .capacity
  else if s.n .plen = 0 then .raise .truncatedStream
  else
    let k := (s.payAt 0).toNat
    if 7 < k then .raise .invalidPadding
    else
      let all := 8 * (s.n .plen - 1)
      if all < k then .raise .invalidPadding
      else
        let len := all - k
        if s.cfg.bitsCap.val < len then .raise .capacity
        else
          let bytes := s.payload (s.n .plen)
          .done (((s.putBits ((List.range len).map (unpackBit bytes))).setNat .blen len).setNat .pad k)

/-- BUNPK, R194. -/
def execBunpk (s : State) : Host.Outcome State Fault Refusal := runCommand .bunpk unpackBits s

end Sys2Proof.Machine
end

