-- ==== Sys2Proof/Machine/Frequency.lean ====
section
/-! DEFINITION. The histogram and CDF unit: FREQ (R112) and CDF (R114). -/

namespace Sys2Proof.Machine

/-- One symbol counted (R112): the entry that holds it counts one more, or it becomes the last entry with count 1. -/
def countSymbol (b : Byte) : List FtEntry → List FtEntry
  | [] => [⟨b, 1⟩]
  | e :: es => if e.sym = b then ⟨e.sym, e.count + 1⟩ :: es else e :: countSymbol b es

/-- The frequency table of a buffer, counted from its first symbol on (R112). -/
def histogram (syms : List Byte) : List FtEntry := syms.foldl (fun t b => countSymbol b t) []

/-- The body of FREQ (R112). -/
def freqBody (s : State) : Result State :=
  if s.cfg.symCap.val < s.n .slen then .raise .capacity
  else
    let t := histogram (s.symbols (s.n .slen))
    .done ((s.putFt t).setNat .ftlen t.length)

/-- FREQ, R112. -/
def execFreq (s : State) : Host.Outcome State Fault Refusal := runCommand .freq freqBody s

/-- No count is 0 and no symbol is listed twice (R111). -/
def ftValid (t : List FtEntry) : Bool := t.all (fun e => e.count != 0) && decide (t.map (·.sym)).Nodup

/-- `ValidateFT()` (R111): the table, or ModelInvariantError. -/
def validateFt (s : State) : Result (List FtEntry) :=
  if 256 < s.n .ftlen then .raise .modelInvariant
  else
    let t := s.ftTable (s.n .ftlen)
    if ftValid t then .done t else .raise .modelInvariant

/-- The walk of CDF from a running total `low` (R114): the entries and the final total, or ModelInvariantError when
the total would pass `base`. -/
def accumulate (base : Nat) (low : Nat) : List FtEntry → Result (List CdfEntry × Nat)
  | [] => .done ([], low)
  | e :: es =>
    if base < low + e.count.toNat then .raise .modelInvariant
    else
      (accumulate base (low + e.count.toNat) es).andThen fun r =>
        .done (⟨e.sym, BitVec.ofNat 32 low, e.count⟩ :: r.1, r.2)

/-- The body of CDF (R114). -/
def cdfBody (s : State) : Result State :=
  (validateFt s).andThen fun t =>
    (accumulate s.cfg.base 0 t).andThen fun r =>
      .done (((s.putCdft r.1).setNat .clen t.length).setNat .total r.2)

/-- CDF, R114. -/
def execCdf (s : State) : Host.Outcome State Fault Refusal := runCommand .cdf cdfBody s

end Sys2Proof.Machine
end

