-- ==== Sys2Proof/Machine/Huffman.lean ====
section
/-! DEFINITION. The Huffman unit: HTREE (R161), HCODE (R164), HENC (R167), HDEC (R170). -/

namespace Sys2Proof.Machine

/-- The order of removal of the priority queue (R162): by weight, then by node index. An element is a pair
(weight, node index). -/
def qBefore (a b : Nat × Nat) : Bool := decide (a.1 < b.1) || (decide (a.1 = b.1) && decide (a.2 < b.2))

/-- The element of least pair and the queue without it (R161, R162). -/
def popLeast : List (Nat × Nat) → Option ((Nat × Nat) × List (Nat × Nat))
  | [] => none
  | e :: es =>
    match popLeast es with
    | none => some (e, [])
    | some (m, r) => if qBefore e m then some (e, es) else some (m, e :: r)

/-- The merging loop of HTREE (R161), at most `fuel` rounds: while the queue has two elements, the two least become
the children of a new node. The first removed is the left child (R162). -/
def mergeNodes : (fuel : Nat) → List HtNode → List (Nat × Nat) → List HtNode × List (Nat × Nat)
  | 0, nodes, q => (nodes, q)
  | fuel + 1, nodes, q =>
    match popLeast q with
    | none => (nodes, q)
    | some (a, q1) =>
      match popLeast q1 with
      | none => (nodes, q)
      | some (b, q2) =>
        mergeNodes fuel (nodes ++ [internalNode (a.1 + b.1) a.2 b.2]) ((a.1 + b.1, nodes.length) :: q2)

/-- The initial queue of HTREE: every Leaf with its weight (R161). -/
def leafQueue (t : List FtEntry) : List (Nat × Nat) := t.zipIdx.map (fun p => (p.1.count.toNat, p.2))

/-- The nodes of the Huffman tree of a table and the queue at the end (R161). -/
def buildTree (t : List FtEntry) : List HtNode × List (Nat × Nat) :=
  mergeNodes t.length (t.map leafNode) (leafQueue t)

/-- The one element left in the queue (R161). -/
def rootOf (q : List (Nat × Nat)) : Nat :=
  match q with
  | [] => 0
  | e :: _ => e.2

/-- The sum of the counts of a table. -/
def countSum (t : List FtEntry) : Nat := (t.map (fun e => e.count.toNat)).sum

/-- The body of HTREE (R161). -/
def htreeBody (s : State) : Result State :=
  (validateFt s).andThen fun t =>
    if 2 ^ 32 ≤ countSum t then .raise .modelInvariant
    else
      let r := buildTree t
      .done (((s.putHt r.1).setNat .nnode r.1.length).setNat .root (rootOf r.2))

/-- HTREE, R161. -/
def execHtree (s : State) : Host.Outcome State Fault Refusal := runCommand .htree htreeBody s

/-- `Visit(q, path)` (R164), with at most `fuel` more edges: the codewords recorded, in order; none when a Leaf lies
deeper. -/
def visit (node : Nat → HtNode) : (fuel : Nat) → Nat → List Bool → Option (List (Byte × List Bool))
  | 0, q, path =>
    match (node q).tag with
    | .leaf => some [((node q).sym, path)]
    | .internal => none
  | fuel + 1, q, path =>
    match (node q).tag with
    | .leaf => some [((node q).sym, path)]
    | .internal =>
      match visit node fuel (node q).left.toNat (path ++ [false]), visit node fuel (node q).right.toNat (path ++ [true]) with
      | some l, some r => some (l ++ r)
      | _, _ => none

/-- The 256 entries of CT after the codewords `cs` were recorded in order (R164): the last one recorded for a symbol,
else no codeword. -/
def codeTable (cs : List (Byte × List Bool)) : List CtEntry :=
  (List.range 256).map fun i =>
    match cs.reverse.lookup (BitVec.ofNat 8 i) with
    | none => ctAbsent
    | some p => ctOfPath p

/-- The body of HCODE (R164, R165). -/
def hcodeBody (s : State) : Result State :=
  if s.n .nnode = 0 then .done (s.putCt (codeTable []))
  else
    match (s.htAt (s.n .root)).tag with
    | .leaf => .done (s.putCt (codeTable [((s.htAt (s.n .root)).sym, [false])]))
    | .internal =>
      match visit s.htAt 255 (s.n .root) [] with
      | none => .stuck .huffmanTreeTooDeep
      | some cs => .done (s.putCt (codeTable cs))

/-- HCODE, R164. -/
def execHcode (s : State) : Host.Outcome State Fault Refusal := runCommand .hcode hcodeBody s

/-- The encoder's loop of HENC (R167) with `len` bits already written: the codewords of the rest of the buffer. -/
def concatCodes (cap : Nat) (ct : Byte → CtEntry) : (len : Nat) → List Byte → Result (List Bool)
  | _, [] => .done []
  | len, b :: bs =>
    if (ct b).len = 0 then .raise .modelInvariant
    else if cap < len + (ct b).len.toNat then .raise .capacity
    else (concatCodes cap ct (len + (ct b).len.toNat) bs).andThen fun rest => .done (codeword (ct b) ++ rest)

/-- The body of HENC (R167). -/
def hencBody (s : State) : Result State :=
  if s.n .slen = 0 then .done ((s.setNat .plen 0).setNat .nsym 0)
  else if s.cfg.symCap.val < s.n .slen then .raise .capacity
  else
    (concatCodes s.cfg.bitsCap.val s.ctOf 0 (s.symbols (s.n .slen))).andThen fun bs =>
      (packBits ((s.putBits bs).setNat .blen bs.length)).andThen fun t =>
        .done (t.setNat .nsym (s.n .slen))

/-- HENC, R167. -/
def execHenc (s : State) : Host.Outcome State Fault Refusal := runCommand .henc hencBody s

/-- `MatchCode(acc)` for a non-empty `acc`: the lowest symbol whose codeword is `acc` (R169). -/
def matchCode (ct : Byte → CtEntry) (acc : List Bool) : Option Byte :=
  ((List.range 256).map (BitVec.ofNat 8)).find? fun b =>
    (ct b).len.toNat == acc.length && codeword (ct b) == acc

/-- The decoder's loop of HDEC (R170) with accumulator `acc` and the symbols `out` already produced, and its end
checks (R171). -/
def decodeBits (ct : Byte → CtEntry) (n : Nat) : List Bool → (acc : List Bool) → (out : List Byte) → Result (List Byte)
  | [], acc, out =>
    if acc ≠ [] then .raise .malformedCode
    else if out.length < n then .raise .truncatedStream
    else .done out
  | b :: bs, acc, out =>
    match matchCode ct (acc ++ [b]) with
    | none => decodeBits ct n bs (acc ++ [b]) out
    | some c => if out.length = n then .raise .lengthMismatch else decodeBits ct n bs [] (out ++ [c])

/-- The body of HDEC (R170). -/
def hdecBody (s : State) : Result State :=
  if s.n .nsym = 0 then .done (s.setNat .slen 0)
  else if s.cfg.symCap.val < s.n .nsym then .raise .capacity
  else
    (unpackBits s).andThen fun t =>
      (decodeBits t.ctOf (s.n .nsym) (t.bitString (t.n .blen)) [] []).andThen fun out =>
        .done ((t.putSym out).setNat .slen (s.n .nsym))

/-- HDEC, R170. -/
def execHdec (s : State) : Host.Outcome State Fault Refusal := runCommand .hdec hdecBody s

end Sys2Proof.Machine
end

