-- ==== Sys2Proof/Machine/Rans.lean ====
section
/-! DEFINITION. The rANS encoder and decoder with CDF lookup: RENC (R139) and RDEC (R141). -/

namespace Sys2Proof.Machine

/-- `v & 0xFF` as a byte (R66). -/
def lowByte (v : Nat) : Byte := BitVec.ofNat 8 v

/-- `LookupSym(s)`: the entry at the lowest index that holds the symbol (R137). -/
def lookupSym (t : List CdfEntry) (b : Byte) : Option CdfEntry := t.find? (fun e => e.sym == b)

/-- `LookupSlot(v)`: the entry at the lowest index whose interval holds the slot (R138). -/
def lookupSlot (t : List CdfEntry) (v : Nat) : Option CdfEntry :=
  t.find? (fun e => decide (e.low.toNat ≤ v) && decide (v < e.low.toNat + e.freq.toNat))

/-- The coding step `C` (R131). -/
def codeStep (base y : Nat) (e : CdfEntry) : Nat :=
  y / e.freq.toNat * base + y % e.freq.toNat + e.low.toNat

/-- The decoding step `D` (R132). -/
def uncodeStep (base x : Nat) (e : CdfEntry) : Nat :=
  x / base * e.freq.toNat + x % base - e.low.toNat

/-- The encoder's renormalisation loop for a frequency `f` (R135), at most `fuel` rounds: the bytes it emits, oldest
first, and the state it leaves. -/
def shiftOut (f : Nat) : (fuel : Nat) → Nat → List Byte × Nat
  | 0, x => ([], x)
  | k + 1, x =>
    if 256 * f ≤ x then
      let r := shiftOut f k (x / 256)
      (lowByte x :: r.1, r.2)
    else ([], x)

/-- Enough rounds for `shiftOut` from `x`: after that many, nothing of `x` is left. -/
def shiftRounds (x : Nat) : Nat := x.log2 / 8 + 1

/-- One symbol of the encoder's loop (R139): lookup, renormalisation, coding step. The pair is the state `X` and the
emission list `E`, oldest byte first. -/
def encodeSymbol (base : Nat) (t : List CdfEntry) (b : Byte) (xe : Nat × List Byte) : Result (Nat × List Byte) :=
  match lookupSym t b with
  | none => .raise .modelInvariant
  | some e =>
    if e.freq = 0 then .stuck .encoderLoopNeverEnds
    else
      let r := shiftOut e.freq.toNat (shiftRounds xe.1) xe.1
      .done (codeStep base r.2 e, xe.2 ++ r.1)

/-- The encoder's loop over a buffer, its last symbol first (R139). -/
def encodeSymbols (base : Nat) (t : List CdfEntry) : List Byte → Result (Nat × List Byte)
  | [] => .done (base, [])
  | b :: bs => (encodeSymbols base t bs).andThen (encodeSymbol base t b)

/-- The `fb` bytes of the state word, low byte first (R139, Encode step 4). -/
def stateBytes (fb x : Nat) : List Byte := (List.range fb).map (fun t => lowByte (x / 2 ^ (8 * t)))

/-- The body of RENC (R139). -/
def rencBody (s : State) : Result State :=
  if s.n .slen = 0 then .done ((s.setNat .plen 0).setNat .nsym 0)
  else if s.cfg.symCap.val < s.n .slen then .raise .capacity
  else if s.n .total ≠ s.n .slen then .raise .modelInvariant
  else
    (encodeSymbols s.cfg.base (s.cdfTable (s.n .clen)) (s.symbols (s.n .slen))).andThen fun xe =>
      let e := xe.2 ++ stateBytes s.cfg.fb xe.1
      if s.cfg.payCap.val < e.length then .raise .capacity
      else .done ((((s.putPay e.reverse).setNat .plen e.length).setNat .nsym (s.n .slen)).setNat .x xe.1)

/-- RENC, R139. -/
def execRenc (s : State) : Host.Outcome State Fault Refusal := runCommand .renc rencBody s

/-- The number of a byte string, most significant byte first (R61, R89). -/
def bytesValue (bs : List Byte) : Nat := bs.foldl (fun x b => x * 256 + b.toNat) 0

/-- The decoder's renormalisation loop (R136): the state it leaves and the bytes it did not read. Because a byte is
below 256, `(X << 8) | byte` is `256 X + byte` (R89). -/
def shiftIn (base : Nat) : Nat → List Byte → Nat × List Byte
  | x, [] => (x, [])
  | x, b :: bs => if x < base then shiftIn base (x * 256 + b.toNat) bs else (x, b :: bs)

/-- The decoder's loop (R141) for `n` more symbols from state `x` with the unread bytes `bs`: the symbols, the final
state and the bytes left unread. -/
def decodeSymbols (base : Nat) (t : List CdfEntry) : (n : Nat) → Nat → List Byte → Result (List Byte × Nat × List Byte)
  | 0, x, bs => .done ([], x, bs)
  | n + 1, x, bs =>
    match lookupSlot t (x % base) with
    | none => .raise .decodeMismatch
    | some e =>
      let r := shiftIn base (uncodeStep base x e) bs
      if r.1 < base ∧ n ≠ 0 then .raise .truncatedStream
      else
        (decodeSymbols base t n r.1 r.2).andThen fun d => .done (e.sym :: d.1, d.2)

/-- The body of RDEC (R141). -/
def rdecBody (s : State) : Result State :=
  if s.n .nsym = 0 then .done (s.setNat .slen 0)
  else if s.cfg.symCap.val < s.n .nsym ∨ s.cfg.payCap.val < s.n .plen then .raise .capacity
  else if s.n .total ≠ s.n .nsym then .raise .modelInvariant
  else if s.n .plen < s.cfg.fb then .raise .truncatedStream
  else
    let bytes := s.payload (s.n .plen)
    (decodeSymbols s.cfg.base (s.cdfTable (s.n .clen)) (s.n .nsym) (bytesValue (bytes.take s.cfg.fb))
        (bytes.drop s.cfg.fb)).andThen fun d =>
      .done ((((s.putSym d.1).setNat .slen (s.n .nsym)).setNat .x d.2.1).setNat .pos (s.n .plen - d.2.2.length))

/-- RDEC, R141. -/
def execRdec (s : State) : Host.Outcome State Fault Refusal := runCommand .rdec rdecBody s

end Sys2Proof.Machine
end

