-- ==== Sys2Proof/Machine/Dispatch.lean ====
section
/-! DEFINITION. One arm per command (R81). -/

namespace Sys2Proof.Machine

def exec (i : Instr) (s : State) : Host.Outcome State Fault Refusal :=
  match i with
  | .freq => Sys2Proof.Machine.execFreq s
  | .cdf => Sys2Proof.Machine.execCdf s
  | .renc => Sys2Proof.Machine.execRenc s
  | .rdec => Sys2Proof.Machine.execRdec s
  | .htree => Sys2Proof.Machine.execHtree s
  | .hcode => Sys2Proof.Machine.execHcode s
  | .henc => Sys2Proof.Machine.execHenc s
  | .hdec => Sys2Proof.Machine.execHdec s
  | .bpack => Sys2Proof.Machine.execBpack s
  | .bunpk => Sys2Proof.Machine.execBunpk s

end Sys2Proof.Machine
end

