-- ==== Sys2Proof/Machine/HostPort.lean ====
section
/-! DEFINITION. The host's side (R5, R33, R35, R46, R67, R69, R99 to R106, R230): what each host action does. -/

namespace Sys2Proof.Machine

/-- A host write of word `w` to CMD (R35, R106): refused while BUSY (R69); a word that is no command ends with
IllegalCommandError (R96, R97); any other runs its command. -/
def writeCmd (w : Word) (s : State) : Host.Outcome State Fault Refusal :=
  if s.status.busy then .refused .hostAccessWhileBusy
  else
    match decode w with
    | .ok i => exec i s
    | .error _ => .next (s.illegalCommand (cmdFields w).opc)

/-- A host write of one element of a memory it may write (R46). -/
def storeElem (i : Nat) (e : Elem) (s : State) : State :=
  match e with
  | .sym b => { s with sym := s.sym.write i b }
  | .pay b => { s with pay := s.pay.write i b }
  | .bits b => { s with bits := s.bits.write i b }
  | .ft f => { s with ft := s.ft.write i f }
  | .cdft f => { s with cdft := s.cdft.write i f }
  | .ht f => { s with ht := s.ht.write i f }
  | .ct f => { s with ct := s.ct.write i f }

/-- An element as the host reads it (R67). -/
def State.elemAt (s : State) (sp : SpaceId) (i : Nat) : Elem :=
  match sp with
  | .sym => .sym (s.symAt i)
  | .pay => .pay (s.payAt i)
  | .bits => .bits (s.bitAt i)
  | .ft => .ft (s.ftAt i)
  | .cdft => .cdft (s.cdftAt i)
  | .ht => .ht (s.htAt i)
  | .ct => .ct (s.ctAt i)

/-- A host write of a memory element: an index the memory does not have stops the model (log 7); a read-only memory
ignores the write (R33, R46). -/
def hostStore (i : Nat) (e : Elem) (s : State) : Host.Outcome State Fault Refusal :=
  if i < spaceSize s.cfg e.space then
    .next (if spaceHostWritable e.space then storeElem i e s else s)
  else .fault .hostIndexOutsideSpace

/-- A host read of a memory element changes nothing (R67); the value read is `State.elemAt`. -/
def hostLoad (sp : SpaceId) (i : Nat) (s : State) : Host.Outcome State Fault Refusal :=
  if i < spaceSize s.cfg sp then .next s else .fault .hostIndexOutsideSpace

/-- A host access that has a meaning only while the core is idle (R69, R242). -/
def whenIdle (s : State) (o : Host.Outcome State Fault Refusal) : Host.Outcome State Fault Refusal :=
  if s.status.busy then .refused .hostAccessWhileBusy else o

/-- The next command of a pseudo-instruction; the commands after it stay pending only if it ended without error
(R104). -/
def issueNext (cs : List Instr) (s : State) : Host.Outcome State Fault Refusal :=
  match cs with
  | [] => .next s
  | c :: rest =>
    match writeCmd (encode c) s with
    | .next t =>
      if t.status.err || rest.isEmpty then .next t else .next { t with inputs := .issue rest :: t.inputs }
    | o => o

/-- What one host action does. The values the host reads are `State.reg`, `State.readCtl` and `State.elemAt` of the
state it reads in. -/
def hostStep (a : HostAction) (s : State) : Host.Outcome State Fault Refusal :=
  match a with
  | .setr r v => whenIdle s (.next (if regHostWritable r then s.setReg r v else s))
  | .writeCtl .cmd v => writeCmd v s
  | .writeCtl .status _ => whenIdle s (.next s)
  | .writeCtl .cfg _ => whenIdle s (.next s)
  | .loadm i e => whenIdle s (hostStore i e s)
  | .getr _ => whenIdle s (.next s)
  | .readCtl .status => .next s
  | .readCtl .cmd => whenIdle s (.next s)
  | .readCtl .cfg => whenIdle s (.next s)
  | .readm sp i => whenIdle s (hostLoad sp i s)
  | .issue cs => issueNext cs s
  | .reset => .next s.resetEvent

/-- Store the bits of one instruction where the next step takes its command: as the host's next action, a write of
CMD. The host can write CMD only while the core is idle (R69). -/
def placeCommand (nbits w : Nat) (s : State) : State :=
  { s with
    status := { s.status with busy := false }
    inputs := .writeCtl .cmd (BitVec.ofNat 32 (w % 2 ^ nbits)) :: s.inputs }

end Sys2Proof.Machine
end

