-- ==== Sys2Proof/Machine/Step.lean ====
section
/-! DEFINITION. One step of the machine: the host's next action, or nothing when the host does nothing (R5, R70, R223). -/

namespace Sys2Proof.Machine

/-- One step: the oldest pending host action happens. With none pending the core stays idle: "nothing wakes it but a
write of CMD, and all state survives" (R223). -/
def step (s : State) : Host.Outcome State Fault Refusal :=
  match s.inputs with
  | [] => .next s
  | a :: rest => hostStep a { s with inputs := rest }

/-- `s` with the instruction whose `nbits` bits are `w` as the host's next write of CMD (log 3). -/
def State.withFetchWord (s : State) (nbits w : Nat) : State := placeCommand nbits w s

end Sys2Proof.Machine
end

