-- ==== Sys2Proof/Safety.lean ====
section
/-! DEFINITION. The words the claims are written in: what a command leaves alone, the invariants the tables keep
(R115, R163), the invariant of the machine, and the relations that say what the two codecs compute. None of them
is used by the machine. -/

namespace Sys2Proof.Machine

/-- Outside the registers `rs` and the memories `ms`, `t` reads as `s`; the configuration and the host's pending actions
are the same. STATUS is not spoken of. -/
def Frame (rs : List Reg) (ms : List SpaceId) (s t : State) : Prop :=
  (∀ r, r ∉ rs → t.reg r = s.reg r) ∧ (∀ sp, sp ∉ ms → ∀ i, t.elemAt sp i = s.elemAt sp i) ∧
    t.cfg = s.cfg ∧ t.inputs = s.inputs

/-- STATUS of a command `i` that ended without error (R37, R106). -/
def okStatus (i : Instr) : Status := ⟨false, true, false, 0, i.opc⟩

/-- STATUS of a command `i` that ended with error `k` (R37, R106). -/
def errStatus (i : Instr) (k : ErrKind) : Status := ⟨false, true, true, k.code, i.opc⟩

/-- Command `i` in state `s` ends with error `k` as R212 says: the length registers are 0, what is no output of
the command is unchanged, STATUS holds the code. -/
def EndsWith (i : Instr) (k : ErrKind) (s : State) : Prop :=
  ∃ t, exec i s = .next t ∧ t.status = errStatus i k ∧ (∀ r ∈ lengthRegs i, t.reg r = 0) ∧
    Frame (outRegs i) (outSpaces i) s t

/-- `ValidateFT` passes (R111): at most 256 entries, no zero count, no symbol twice. -/
def FtOk (n : Nat) (e : Nat → FtEntry) : Prop :=
  n ≤ 256 ∧ (∀ j < n, (e j).count ≠ 0) ∧ ∀ k < n, ∀ j < k, (e j).sym ≠ (e k).sym

/-- The sum of the counts of the first `j` entries. -/
def countBelow (e : Nat → FtEntry) (j : Nat) : Nat := ((List.range j).map fun i => (e i).count.toNat).sum

/-- The laws (a) to (d) of a table built by CDF (R115): `n` entries that partition `[0, total)`. -/
def CdfPartition (base n total : Nat) (e : Nat → CdfEntry) : Prop :=
  n ≤ 256 ∧ (∀ j < n, 1 ≤ (e j).freq.toNat) ∧ (∀ k < n, ∀ j < k, (e j).sym ≠ (e k).sym) ∧
    (0 < n → (e 0).low = 0) ∧
    (∀ j < n, j + 1 < n → (e (j + 1)).low.toNat = (e j).low.toNat + (e j).freq.toNat) ∧
    (0 < n → (e (n - 1)).low.toNat + (e (n - 1)).freq.toNat = total) ∧ (n = 0 → total = 0) ∧ total ≤ base

/-- CDFT, CLEN and TOTAL hold such a table (R115: "whatever the host did since"). -/
def CdfInv (s : State) : Prop := CdfPartition s.cfg.base (s.n .clen) (s.n .total) s.cdftAt

/-- Node `q` is a child of node `m`. -/
def ChildOf (ht : Nat → HtNode) (q m : Nat) : Prop := (ht m).left.toNat = q ∨ (ht m).right.toNat = q

/-- The laws of a tree of `n` Leaves built by HTREE (R163): Leaves below `n`, Internal nodes from `n` to `2n - 2`, each
with two different children of smaller index and their summed weight, every node but the root the child of exactly one
node, and no symbol in two Leaves. -/
def HuffmanTree (n : Nat) (ht : Nat → HtNode) : Prop :=
  (∀ j < n, (ht j).tag = .leaf) ∧
    (∀ m < 2 * n - 1, n ≤ m → (ht m).tag = .internal ∧ (ht m).left.toNat < m ∧ (ht m).right.toNat < m ∧
      (ht m).left ≠ (ht m).right ∧
      (ht m).weight.toNat = (ht (ht m).left.toNat).weight.toNat + (ht (ht m).right.toNat).weight.toNat) ∧
    (∀ q < 2 * n - 2, ∃ m < 2 * n - 1, n ≤ m ∧ ChildOf ht q m ∧ ∀ m' < 2 * n - 1, n ≤ m' → ChildOf ht q m' → m' = m) ∧
    ∀ k < n, ∀ j < k, (ht j).sym ≠ (ht k).sym

/-- HT, NNODE and ROOT hold no tree or such a tree (R163: "so (a) to (e) hold whenever NNODE ≥ 1"). -/
def TreeInv (s : State) : Prop :=
  (s.n .nnode = 0 ∧ s.n .root = 0) ∨
    (s.n .nnode = 2 * ((s.n .nnode + 1) / 2) - 1 ∧ 1 ≤ (s.n .nnode + 1) / 2 ∧ (s.n .nnode + 1) / 2 ≤ 256 ∧
      s.n .root = s.n .nnode - 1 ∧ HuffmanTree ((s.n .nnode + 1) / 2) s.htAt)

/-- Every memory is in canonical form and no larger than it is (R60). -/
def MemInv (s : State) : Prop :=
  s.sym.wf (spaceSize s.cfg .sym) ∧ s.pay.wf (spaceSize s.cfg .pay) ∧ s.bits.wf (spaceSize s.cfg .bits) ∧
    s.ft.wf (spaceSize s.cfg .ft) ∧ s.cdft.wf (spaceSize s.cfg .cdft) ∧ s.ht.wf (spaceSize s.cfg .ht) ∧
    s.ct.wf (spaceSize s.cfg .ct)

/-- STATUS between commands (R36, R37, R200): never busy, ERR exactly when ERRCODE is not 0, no code above 8. -/
def StatusInv (s : State) : Prop :=
  s.status.busy = false ∧ (s.status.err = true ↔ s.status.errcode ≠ 0) ∧ s.status.errcode.toNat ≤ 8

/-- No key of free values is used twice (log 4). -/
def FreshInv (s : State) : Prop :=
  s.sym.gen < s.fresh ∧ s.pay.gen < s.fresh ∧ s.bits.gen < s.fresh ∧ s.ft.gen < s.fresh ∧ s.cdft.gen < s.fresh ∧
    s.ht.gen < s.fresh ∧ s.ct.gen < s.fresh

/-- The invariant of the machine. -/
def State.Inv (s : State) : Prop := MemInv s ∧ StatusInv s ∧ FreshInv s ∧ CdfInv s ∧ TreeInv s

/-- The node reached from node `q` by a path of edges, 0 left and 1 right (R14, R164); no edge leaves a Leaf. -/
def walk (ht : Nat → HtNode) (q : Nat) : List Bool → Option Nat
  | [] => some q
  | b :: bs =>
    match (ht q).tag with
    | .leaf => none
    | .internal => walk ht (if b then (ht q).right.toNat else (ht q).left.toNat) bs

/-- Node `q` is in the queue when node `m` is made: it exists and no node made so far has it as a child (R161). -/
def InQueue (n : Nat) (ht : Nat → HtNode) (q m : Nat) : Prop :=
  q < m ∧ ∀ p < m, n ≤ p → ¬ ChildOf ht q p

/-- The order of removal (R162): by weight, then by node index. -/
def Before (ht : Nat → HtNode) (a b : Nat) : Prop :=
  (ht a).weight.toNat < (ht b).weight.toNat ∨ ((ht a).weight.toNat = (ht b).weight.toNat ∧ a < b)

/-- The state `y` after reading `d` payload bytes from index `p` on (R136): each byte comes in at the low end. -/
def refill (pay : Nat → Byte) (y p : Nat) : Nat → Nat
  | 0 => y
  | d + 1 => refill pay y p d * 256 + (pay (p + d)).toNat

/-- What the encoder does, read from the last symbol back (R131, R135): `x i` is the state after symbol `i` was coded,
`x n` the initial state, `k i` the bytes symbol `i`'s renormalisation emitted, the least number that brings the
state below `256 f`. -/
def EncodeTrace (base n : Nat) (e : Nat → CdfEntry) (x k : Nat → Nat) : Prop :=
  x n = base ∧ ∀ i < n,
    x i = x (i + 1) / 256 ^ k i / (e i).freq.toNat * base + x (i + 1) / 256 ^ k i % (e i).freq.toNat + (e i).low.toNat ∧
      x (i + 1) / 256 ^ k i < 256 * (e i).freq.toNat ∧
      ∀ d < k i, 256 * (e i).freq.toNat ≤ x (i + 1) / 256 ^ d

/-- The number of renormalisation bytes that stand before those of symbol `i` in the payload. -/
def bytesBefore (k : Nat → Nat) (i : Nat) : Nat := ((List.range i).map k).sum

/-- What the decoder does over its first `m` symbols of `n` (R132, R136, R141, R143): `x i` and `pos i` are the state and the
read position before symbol `i`, `e i` the entry whose interval holds the slot. -/
def DecodeTrace (base fb n plen : Nat) (pay : Nat → Byte) (e : Nat → CdfEntry) (x pos : Nat → Nat) (m : Nat) : Prop :=
  x 0 = refill pay 0 0 fb ∧ pos 0 = fb ∧ ∀ i < m,
    (e i).low.toNat ≤ x i % base ∧ x i % base < (e i).low.toNat + (e i).freq.toNat ∧
      pos i ≤ pos (i + 1) ∧ pos (i + 1) ≤ plen ∧
      x (i + 1) = refill pay (x i / base * (e i).freq.toNat + x i % base - (e i).low.toNat) (pos i) (pos (i + 1) - pos i) ∧
      (∀ d < pos (i + 1) - pos i,
        refill pay (x i / base * (e i).freq.toNat + x i % base - (e i).low.toNat) (pos i) d < base) ∧
      (base ≤ x (i + 1) ∨ (pos (i + 1) = plen ∧ i + 1 = n))

/-- No codeword of the table is a prefix of another symbol's (R166 c). -/
def PrefixFree (ct : Byte → CtEntry) : Prop :=
  ∀ a b, a ≠ b → (ct a).len ≠ 0 → (ct b).len ≠ 0 → ¬ codeword (ct a) <+: codeword (ct b)

/-- A piece HDEC cuts off a bit stream (R169, R170): `p` matches, to symbol `b`, and no shorter beginning of `p` matches. -/
def FirstMatch (ct : Byte → CtEntry) (p : List Bool) (b : Byte) : Prop :=
  p ≠ [] ∧ matchCode ct p = some b ∧ ∀ q, q ≠ [] → q <+: p → q ≠ p → matchCode ct q = none

/-- No beginning of `bs` matches: HDEC's accumulator stays as it is over these bits (R170, R171). -/
def NoMatch (ct : Byte → CtEntry) (bs : List Bool) : Prop := ∀ q, q ≠ [] → q <+: bs → matchCode ct q = none

/-- The bit stream packed in a payload of `plen` bytes with header `k` (R62, R93). -/
def streamBit (pay : Nat → Byte) (idx : Nat) : Bool := (pay (1 + idx / 8)).getLsbD (7 - idx % 8)

/-- `t` and `u` agree on what a decode is given of the payload: configuration, PLEN, NSYM, `PAY[0..PLEN)` (R235, R236). -/
def SamePayload (t u : State) : Prop :=
  u.cfg = t.cfg ∧ u.reg .plen = t.reg .plen ∧ u.reg .nsym = t.reg .nsym ∧ ∀ i < t.n .plen, u.payAt i = t.payAt i

/-- `t` and `u` agree on the CDF table (R65). -/
def SameCdf (t u : State) : Prop :=
  u.reg .clen = t.reg .clen ∧ u.reg .total = t.reg .total ∧ ∀ j < t.n .clen, u.cdftAt j = t.cdftAt j

/-- `t` and `u` agree on the registers `rs`. -/
def SameRegs (rs : List Reg) (t u : State) : Prop := ∀ r ∈ rs, u.reg r = t.reg r

/-- `t` and `u` agree on the first `n` elements of a memory. -/
def SameElems (sp : SpaceId) (n : Nat) (t u : State) : Prop := ∀ i < n, u.elemAt sp i = t.elemAt sp i

/-- `s` and `u` agree on everything R65 lists as an input of the command. -/
def SameInputs (i : Instr) (s u : State) : Prop :=
  u.cfg = s.cfg ∧
    match i with
    | .freq => SameRegs [.slen] s u ∧ SameElems .sym (s.n .slen) s u
    | .cdf => SameRegs [.ftlen] s u ∧ SameElems .ft (s.n .ftlen) s u
    | .renc => SameRegs [.slen, .clen, .total] s u ∧ SameElems .sym (s.n .slen) s u ∧ SameElems .cdft (s.n .clen) s u
    | .rdec => SameRegs [.nsym, .plen, .clen, .total] s u ∧ SameElems .pay (s.n .plen) s u ∧
        SameElems .cdft (s.n .clen) s u
    | .htree => SameRegs [.ftlen] s u ∧ SameElems .ft (s.n .ftlen) s u
    | .hcode => SameRegs [.nnode, .root] s u ∧ SameElems .ht (s.n .nnode) s u
    | .henc => SameRegs [.slen] s u ∧ SameElems .sym (s.n .slen) s u ∧ SameElems .ct 256 s u
    | .hdec => SameRegs [.nsym, .plen] s u ∧ SameElems .pay (s.n .plen) s u ∧ SameElems .ct 256 s u
    | .bpack => SameRegs [.blen] s u ∧ SameElems .bits (s.n .blen) s u
    | .bunpk => SameRegs [.plen] s u ∧ SameElems .pay (s.n .plen) s u

/-- `t` and `v` agree on everything the command, started in `s`, writes when it ends without error (R65): with
`SLEN = 0` (`NSYM = 0`) the codec commands write their lengths only. -/
def SameOutputs (i : Instr) (s t v : State) : Prop :=
  match i with
  | .freq => SameRegs [.ftlen] t v ∧ SameElems .ft (t.n .ftlen) t v
  | .cdf => SameRegs [.clen, .total] t v ∧ SameElems .cdft (t.n .clen) t v
  | .renc => SameRegs [.plen, .nsym] t v ∧ SameElems .pay (t.n .plen) t v ∧ (s.n .slen ≠ 0 → SameRegs [.x] t v)
  | .rdec => SameRegs [.slen] t v ∧ SameElems .sym (t.n .slen) t v ∧ (s.n .nsym ≠ 0 → SameRegs [.x, .pos] t v)
  | .htree => SameRegs [.nnode, .root] t v ∧ SameElems .ht (t.n .nnode) t v
  | .hcode => SameElems .ct 256 t v
  | .henc => SameRegs [.plen, .nsym] t v ∧ SameElems .pay (t.n .plen) t v ∧
      (s.n .slen ≠ 0 → SameRegs [.blen, .pad] t v ∧ SameElems .bits (t.n .blen) t v)
  | .hdec => SameRegs [.slen] t v ∧ SameElems .sym (t.n .slen) t v ∧
      (s.n .nsym ≠ 0 → SameRegs [.blen, .pad] t v ∧ SameElems .bits (t.n .blen) t v)
  | .bpack => SameRegs [.plen, .pad] t v ∧ SameElems .pay (t.n .plen) t v
  | .bunpk => SameRegs [.blen, .pad] t v ∧ SameElems .bits (t.n .blen) t v

end Sys2Proof.Machine
end

