-- ==== Sys2Proof/Certificates/Slice0/Obligations.lean ====
section
/-! DEFINITION. The statements for the provers. A statement over a state holds for every configuration
(`P`, the capacities), because the configuration is a field of the state. `Frame rs ms s t` says that every register outside
`rs`, every element of every memory outside `ms`, the configuration and the host's pending actions are unchanged;
elements of an output memory at or beyond the new length are unspecified (R49) and nothing is said of them. -/

open Sys2Proof Sys2Proof.Machine

/-! ## Encodings -/

/-- R82: a word selects a command exactly when it is that command's word; R96, R97: any other word is rejected, by
the reserved field when that is not 0, else by the operation. -/
def Obligations.DecodeSelectsExactlyTheTableWords : Prop :=
  ∀ w : Word,
    (∀ i, decode w = .ok i ↔ w = encode i) ∧
    (decode w = .error .reservedField ↔ w.extractLsb' 8 24 ≠ 0) ∧
    (decode w = .error .undefinedOpcode ↔
      w.extractLsb' 8 24 = 0 ∧ (w.extractLsb' 0 8 = 0 ∨ 10 < (w.extractLsb' 0 8).toNat))

/-- R81: the ten words of the opcode map, and three words that are no command (R96, R97). -/
def Obligations.CommandWordsOfTheOpcodeMap : Prop :=
  decode 0x00000001 = .ok .freq ∧ decode 0x00000002 = .ok .cdf ∧ decode 0x00000003 = .ok .renc ∧
  decode 0x00000004 = .ok .rdec ∧ decode 0x00000005 = .ok .htree ∧ decode 0x00000006 = .ok .hcode ∧
  decode 0x00000007 = .ok .henc ∧ decode 0x00000008 = .ok .hdec ∧ decode 0x00000009 = .ok .bpack ∧
  decode 0x0000000A = .ok .bunpk ∧ decode 0x00000000 = .error .undefinedOpcode ∧
  decode 0x0000000B = .error .undefinedOpcode ∧ decode 0x00000103 = .error .reservedField ∧
  encode .freq = 0x00000001 ∧ encode .bunpk = 0x0000000A

/-- R83 to R86: every record stands in its bits as the layout says, and is read back from them. -/
def Obligations.RecordsStandInTheirBits : Prop :=
  (∀ e : FtEntry, unpackFt (packFt e) = e ∧ (packFt e).extractLsb' 32 8 = e.sym ∧ (packFt e).extractLsb' 0 32 = e.count) ∧
  (∀ e : CdfEntry, unpackCdf (packCdf e) = e ∧ (packCdf e).extractLsb' 64 8 = e.sym ∧
    (packCdf e).extractLsb' 32 32 = e.low ∧ (packCdf e).extractLsb' 0 32 = e.freq) ∧
  (∀ n : HtNode, unpackHt (packHt n) = n ∧ ((packHt n).getLsbD 58 = true ↔ n.tag = .internal) ∧
    (packHt n).extractLsb' 26 32 = n.weight ∧ (packHt n).extractLsb' 18 8 = n.sym ∧
    (packHt n).extractLsb' 9 9 = n.left ∧ (packHt n).extractLsb' 0 9 = n.right) ∧
  (∀ e : CtEntry, unpackCt (packCt e) = e ∧ (packCt e).extractLsb' 255 8 = e.len ∧ (packCt e).extractLsb' 0 255 = e.code) ∧
  (∀ w, packFt (unpackFt w) = w) ∧ (∀ w, packCdf (unpackCdf w) = w) ∧ (∀ w, packHt (unpackHt w) = w) ∧
  (∀ w, packCt (unpackCt w) = w)

/-- R86: bit `254 - j` of the 263-bit entry written for a codeword of at most 255 bits is bit `j` of the codeword, 0 past its
end; its length stands in bits 262:255; and the codeword is read back from it. -/
def Obligations.CodeEntryHoldsItsCodeword : Prop :=
  ∀ p : List Bool, p.length ≤ 255 →
    codeword (unpackCt (packCt (ctOfPath p))) = p ∧
    ((packCt (ctOfPath p)).extractLsb' 255 8).toNat = p.length ∧
    ∀ j < 255, (packCt (ctOfPath p)).getLsbD (254 - j) = p.getD j false

/-! ## The host's side -/

/-- R35, R106: a host write of a command's word to CMD while the core is idle runs that command; nothing else is around it.
The second clause is the model's choice and no rule of the spec: `withFetchWord` places the word at the head of the input
queue and clears BUSY (log 3), and `decodeTableWord` reads a number of at most 32 bits as that word (log 18). -/
def Obligations.StepRunsTheDecodedCommand : Prop :=
  (∀ (s : State) (w : Word) (i : Instr) (rest : List HostAction), s.status.busy = false → decode w = .ok i →
    step { s with inputs := .writeCtl .cmd w :: rest } = exec i { s with inputs := rest }) ∧
  (∀ (s : State) (nbits w : Nat) (i : Instr), decodeTableWord nbits w = some i →
    step (s.withFetchWord nbits w) = exec i { s with status := { s.status with busy := false } })

/-- R96, R97, R208: a word with a bit of 31:8 set, or whose operation is 0 or above 10, changes nothing but STATUS,
which records code 8 and the word's low byte. -/
def Obligations.IllegalWordChangesStatusOnly : Prop :=
  ∀ (s : State) (w : Word) (rest : List HostAction), s.status.busy = false →
    (w.extractLsb' 8 24 ≠ 0 ∨ w.extractLsb' 0 8 = 0 ∨ 10 < (w.extractLsb' 0 8).toNat) →
    step { s with inputs := .writeCtl .cmd w :: rest } =
      .next { s with inputs := rest, status := ⟨false, true, true, 8, w.extractLsb' 0 8⟩ }

/-- R33: a host write to a read-only data register, to CDFT or to HT is ignored (HostWritesOfStatusAndCfgAreIgnored: the
read-only control registers); any value is accepted as written by SLEN, NSYM,
PLEN, FTLEN and BLEN, and nothing else changes. -/
def Obligations.HostWritesRespectReadOnly : Prop :=
  ∀ (s : State) (rest : List HostAction), s.status.busy = false →
    (∀ (r : Reg) (v : Word), r ∈ [Reg.clen, .total, .x, .pos, .pad, .nnode, .root] →
      step { s with inputs := .setr r v :: rest } = .next { s with inputs := rest }) ∧
    (∀ (i : Nat) (e : CdfEntry), i < 256 → step { s with inputs := .loadm i (.cdft e) :: rest } = .next { s with inputs := rest }) ∧
    (∀ (i : Nat) (e : HtNode), i < 511 → step { s with inputs := .loadm i (.ht e) :: rest } = .next { s with inputs := rest }) ∧
    (∀ (r : Reg) (v : Word), r ∈ [Reg.slen, .nsym, .plen, .ftlen, .blen] →
      ∃ t, step { s with inputs := .setr r v :: rest } = .next t ∧ t.reg r = v ∧ t.status = s.status ∧
        Frame [r] [] { s with inputs := rest } t)

/-- R46, R70 d: a host write of an element of SYM, PAY, BITS, FT or CT is read back, and changes no other element, no
register and not STATUS. An index the memory does not have stops the model: that clause is the model's choice (log 7). -/
def Obligations.HostElementWritesReadBack : Prop :=
  ∀ (s : State) (i : Nat) (e : Elem) (rest : List HostAction), s.status.busy = false → e.space ∈ [SpaceId.sym, .pay, .bits, .ft, .ct] →
    (i < spaceSize s.cfg e.space →
      ∃ t, step { s with inputs := .loadm i e :: rest } = .next t ∧ t.elemAt e.space i = e ∧
        (∀ j, j ≠ i → t.elemAt e.space j = s.elemAt e.space j) ∧ t.status = s.status ∧
        Frame [] [e.space] { s with inputs := rest } t) ∧
    (spaceSize s.cfg e.space ≤ i →
      step { s with inputs := .loadm i e :: rest } = .fault .hostIndexOutsideSpace)

/-- R69, R242: while BUSY = 1 every host access but a read of STATUS is refused (the model's reading of "a model refuses it", log 8); the
read of STATUS is allowed. -/
def Obligations.HostAccessWhileBusyIsRefused : Prop :=
  ∀ (s : State) (rest : List HostAction), s.status.busy = true →
    (∀ a : HostAction, a ≠ .readCtl .status → a ≠ .reset → a ≠ .issue [] →
      step { s with inputs := a :: rest } = .refused .hostAccessWhileBusy) ∧
    step { s with inputs := .readCtl .status :: rest } = .next { s with inputs := rest }

/-- R67: a host read changes nothing. -/
def Obligations.HostReadsChangeNothing : Prop :=
  ∀ (s : State) (rest : List HostAction), s.status.busy = false →
    (∀ r : Reg, step { s with inputs := .getr r :: rest } = .next { s with inputs := rest }) ∧
    (∀ c : CtlReg, step { s with inputs := .readCtl c :: rest } = .next { s with inputs := rest }) ∧
    (∀ (sp : SpaceId) (i : Nat), i < spaceSize s.cfg sp → step { s with inputs := .readm sp i :: rest } = .next { s with inputs := rest })

/-- R231, R233: reset, at any time and in any state, even a busy one, sets every data register and STATUS to 0 and keeps the
build-time constants. -/
def Obligations.ResetEventGivesTheResetValues : Prop :=
  ∀ (s : State) (rest : List HostAction), ∃ t, step { s with inputs := .reset :: rest } = .next t ∧ (∀ r, t.reg r = 0) ∧
    t.readCtl .status = 0 ∧ t.readCtl .cmd = 0 ∧ t.readCtl .cfg = s.readCtl .cfg ∧ t.cfg = s.cfg ∧ t.inputs = rest

/-- R231: the registers of the reset state; CFG reads `0x01080310` at `P = 16`. -/
def Obligations.ResetStateRegisters : Prop :=
  (∀ r, State.reset.reg r = 0) ∧ State.reset.readCtl .status = 0x00000000 ∧ State.reset.readCtl .cmd = 0 ∧
    State.reset.readCtl .cfg = 0x01080310

/-- R104: a pseudo-instruction issues its commands one by one and stops at the first that ends with ERR = 1: the later ones are
not issued. R100 to R103: what the four stand for. The pending commands stand in the input queue (log 14). -/
def Obligations.PseudoInstructionStopsAtFirstError : Prop :=
  (∀ (s t : State) (c : Instr) (cs : List Instr) (rest : List HostAction), s.status.busy = false → exec c { s with inputs := rest } = .next t →
    (t.status.err = true → step { s with inputs := .issue (c :: cs) :: rest } = .next t) ∧
    (t.status.err = false → cs ≠ [] →
      step { s with inputs := .issue (c :: cs) :: rest } = .next { t with inputs := .issue cs :: rest }) ∧
    (cs = [] → step { s with inputs := .issue (c :: cs) :: rest } = .next t)) ∧
  Pseudo.ransCompress.expand = [.freq, .cdf, .renc] ∧ Pseudo.ransDecompress.expand = [.cdf, .rdec] ∧
  Pseudo.hufCompress.expand = [.freq, .htree, .hcode, .henc] ∧ Pseudo.hufDecompress.expand = [.hdec]

/-- R234: what each command gives straight after reset, where every data register is 0, and whatever the memories hold: none of
them reads an unspecified element. -/
def Obligations.CommandsStraightAfterReset : Prop :=
  ∀ s : State, (∀ r, s.reg r = 0) →
    (∃ t, exec .freq s = .next t ∧ t.status = okStatus .freq ∧ t.reg .ftlen = 0) ∧
    (∃ t, exec .cdf s = .next t ∧ t.status = okStatus .cdf ∧ t.reg .clen = 0 ∧ t.reg .total = 0) ∧
    (∃ t, exec .renc s = .next t ∧ t.status = okStatus .renc ∧ t.reg .plen = 0) ∧
    (∃ t, exec .henc s = .next t ∧ t.status = okStatus .henc ∧ t.reg .plen = 0) ∧
    (∃ t, exec .rdec s = .next t ∧ t.status = okStatus .rdec ∧ t.reg .slen = 0) ∧
    (∃ t, exec .hdec s = .next t ∧ t.status = okStatus .hdec ∧ t.reg .slen = 0) ∧
    (∃ t, exec .htree s = .next t ∧ t.status = okStatus .htree ∧ t.reg .nnode = 0 ∧ t.reg .root = 0) ∧
    (∃ t, exec .hcode s = .next t ∧ t.status = okStatus .hcode ∧ ∀ b, (t.ctOf b).len = 0) ∧
    (1 ≤ s.cfg.payCap.val →
      ∃ t, exec .bpack s = .next t ∧ t.status = okStatus .bpack ∧ t.n .plen = 1 ∧ t.payAt 0 = 0) ∧
    (∃ t, exec .bunpk s = .next t ∧ t.status = errStatus .bunpk .truncatedStream)

/-- R36, R38: the fields of STATUS and CFG as the host reads them; STATUS[7:3] and STATUS[31:24] read as 0. -/
def Obligations.StatusAndCfgFields : Prop :=
  ∀ s : State,
    ((s.readCtl .status).getLsbD 0 = s.status.busy ∧ (s.readCtl .status).getLsbD 1 = s.status.done ∧
      (s.readCtl .status).getLsbD 2 = s.status.err ∧ (s.readCtl .status).extractLsb' 3 5 = 0 ∧
      (s.readCtl .status).extractLsb' 8 8 = s.status.errcode ∧ (s.readCtl .status).extractLsb' 16 8 = s.status.lastop ∧
      (s.readCtl .status).extractLsb' 24 8 = 0) ∧
    (((s.readCtl .cfg).extractLsb' 0 8).toNat = s.cfg.p ∧ ((s.readCtl .cfg).extractLsb' 8 8).toNat = s.cfg.fb ∧
      (s.readCtl .cfg).extractLsb' 16 8 = 8 ∧ (s.readCtl .cfg).extractLsb' 24 8 = 1)

/-- R37: what every command leaves in STATUS: idle, done, ERR exactly when ERRCODE is not 0, LASTOP its operation. Nothing of the
STATUS before the command is left: errors are not sticky. -/
def Obligations.EveryCommandLeavesItsStatus : Prop :=
  ∀ (i : Instr) (s t : State), exec i s = .next t →
    t.status.busy = false ∧ t.status.done = true ∧ (t.status.err = true ↔ t.status.errcode ≠ 0) ∧
    t.status.lastop = i.opc ∧
    ∀ st : Status, ∃ v, exec i { s with status := st } = .next v ∧ v.status = t.status

/-- R27: X implements `XW = P + 8` bits, and its other bits read as 0. -/
def Obligations.XReadsWithinItsWidth : Prop :=
  ∀ s : State, (s.reg .x).toNat < 2 ^ (s.cfg.p + 8)

/-! ## FREQ and CDF -/

/-- R112, R113: FREQ's table. The counts sum to SLEN; every count is at least 1; symbols are distinct and in order of first
occurrence, and are those of the buffer; each count is the number of occurrences; the table passes ValidateFT; equal
buffers give equal tables. -/
def Obligations.FreqCountsTheBuffer : Prop :=
  ∀ s : State, s.n .slen ≤ s.cfg.symCap.val →
    ∃ t, exec .freq s = .next t ∧ t.status = okStatus .freq ∧ Frame [.ftlen] [.ft] s t ∧
      countBelow t.ftAt (t.n .ftlen) = s.n .slen ∧
      (∀ j < t.n .ftlen, 1 ≤ (t.ftAt j).count.toNat ∧
        (t.ftAt j).count.toNat = (s.symbols (s.n .slen)).count (t.ftAt j).sym) ∧
      (∀ b, b ∈ s.symbols (s.n .slen) ↔ ∃ j < t.n .ftlen, (t.ftAt j).sym = b) ∧
      (∀ k < t.n .ftlen, ∀ j < k, (t.ftAt j).sym ≠ (t.ftAt k).sym ∧
        (s.symbols (s.n .slen)).idxOf (t.ftAt j).sym < (s.symbols (s.n .slen)).idxOf (t.ftAt k).sym) ∧
      t.n .ftlen ≤ min (s.n .slen) 256 ∧ FtOk (t.n .ftlen) t.ftAt ∧
      ∀ s' : State, s'.n .slen = s.n .slen → s'.symbols (s.n .slen) = s.symbols (s.n .slen) →
        s.n .slen ≤ s'.cfg.symCap.val →
        ∃ t', exec .freq s' = .next t' ∧ t'.n .ftlen = t.n .ftlen ∧ ∀ j < t.n .ftlen, t'.ftAt j = t.ftAt j

/-- R112: FREQ on a buffer longer than SYM_CAP ends with CapacityError; FTLEN is 0. -/
def Obligations.FreqCapacityError : Prop :=
  ∀ s : State, s.cfg.symCap.val < s.n .slen → EndsWith .freq .capacity s

/-- R114, R115: CDF on a valid table whose counts sum to at most `base` writes, in the table's order, each symbol with the sum of
the counts before it and its count; TOTAL is the sum of the counts. -/
def Obligations.CdfBuildsThePartition : Prop :=
  ∀ s : State, FtOk (s.n .ftlen) s.ftAt → countBelow s.ftAt (s.n .ftlen) ≤ s.cfg.base →
    ∃ t, exec .cdf s = .next t ∧ t.status = okStatus .cdf ∧ Frame [.clen, .total] [.cdft] s t ∧
      t.n .clen = s.n .ftlen ∧ t.n .total = countBelow s.ftAt (s.n .ftlen) ∧
      (∀ j < s.n .ftlen, (t.cdftAt j).sym = (s.ftAt j).sym ∧ (t.cdftAt j).low.toNat = countBelow s.ftAt j ∧
        (t.cdftAt j).freq = (s.ftAt j).count) ∧
      CdfPartition s.cfg.base (t.n .clen) (t.n .total) t.cdftAt

/-- R115 a: "entries partition [0, total) exactly — no gaps, no overlaps", whenever the tables are as CDF left them. -/
def Obligations.CdfIntervalsHaveNoGapAndNoOverlap : Prop :=
  ∀ s : State, CdfInv s → ∀ v,
    (v < s.n .total → ∃ j < s.n .clen, ((s.cdftAt j).low.toNat ≤ v ∧ v < (s.cdftAt j).low.toNat + (s.cdftAt j).freq.toNat) ∧
      ∀ i < s.n .clen, (s.cdftAt i).low.toNat ≤ v ∧ v < (s.cdftAt i).low.toNat + (s.cdftAt i).freq.toNat → i = j) ∧
    (s.n .total ≤ v → ∀ j < s.n .clen,
      ¬ ((s.cdftAt j).low.toNat ≤ v ∧ v < (s.cdftAt j).low.toNat + (s.cdftAt j).freq.toNat))

/-- R111, R114, R205: CDF on any other table ends with ModelInvariantError; CLEN and TOTAL are 0. -/
def Obligations.CdfRejectsEveryOtherTable : Prop :=
  ∀ s : State, ¬ (FtOk (s.n .ftlen) s.ftAt ∧ countBelow s.ftAt (s.n .ftlen) ≤ s.cfg.base) →
    EndsWith .cdf .modelInvariant s ∧ ∃ t, exec .cdf s = .next t ∧ t.reg .clen = 0 ∧ t.reg .total = 0

/-! ## RENC and RDEC -/

/-- R95: the empty buffer through both codecs: only the lengths and STATUS change, no memory is read or written, X and POS
keep their values (that PAY and SYM do beyond the new length 0 is the model's inference, log 6). -/
def Obligations.EmptyBufferTouchesNoCodec : Prop :=
  ∀ s : State,
    (s.reg .slen = 0 →
      exec .renc s = .next { s with regs := (s.regs.set .plen 0).set .nsym 0, status := okStatus .renc } ∧
      exec .henc s = .next { s with regs := (s.regs.set .plen 0).set .nsym 0, status := okStatus .henc }) ∧
    (s.reg .nsym = 0 →
      exec .rdec s = .next { s with regs := s.regs.set .slen 0, status := okStatus .rdec } ∧
      exec .hdec s = .next { s with regs := s.regs.set .slen 0, status := okStatus .hdec })

/-- R88 to R90, R131, R135, R139: the payload RENC writes is the state word, most significant byte first, then the bytes each
symbol's renormalisation emitted, first symbol's first, each group newest byte first. `x` and `k` are the encoder's
states and byte counts. -/
def Obligations.RencWritesTheTracedPayload : Prop :=
  ∀ (s : State) (e : Nat → CdfEntry) (x k : Nat → Nat), CdfInv s → 1 ≤ s.n .slen → s.n .slen ≤ s.cfg.symCap.val →
    s.n .total = s.n .slen →
    (∀ i < s.n .slen, ∃ j < s.n .clen, e i = s.cdftAt j ∧ (e i).sym = s.symAt i) →
    EncodeTrace s.cfg.base (s.n .slen) e x k →
    s.cfg.fb + bytesBefore k (s.n .slen) ≤ s.cfg.payCap.val →
    ∃ t, exec .renc s = .next t ∧ t.status = okStatus .renc ∧ Frame [.plen, .nsym, .x] [.pay] s t ∧
      t.n .plen = s.cfg.fb + bytesBefore k (s.n .slen) ∧ t.n .nsym = s.n .slen ∧ t.n .x = x 0 ∧
      (∀ j < s.cfg.fb, (t.payAt j).toNat = x 0 / 256 ^ (s.cfg.fb - 1 - j) % 256) ∧
      ∀ i < s.n .slen, ∀ d < k i,
        (t.payAt (s.cfg.fb + bytesBefore k i + d)).toNat = x (i + 1) / 256 ^ (k i - 1 - d) % 256

/-- R139, R140: with every symbol in the table and room for the longest payload RENC ends without error, its state in
`[base, 256 base)`, the payload between FB and `FB + SLEN P/8` bytes with a first byte that is not 0; and such an `x`, `k` as
RencWritesTheTracedPayload speaks of exists. -/
def Obligations.RencCompletesWithinItsBounds : Prop :=
  ∀ s : State, CdfInv s → 1 ≤ s.n .slen → s.n .slen ≤ s.cfg.symCap.val → s.n .total = s.n .slen →
    (∀ i < s.n .slen, ∃ j < s.n .clen, (s.cdftAt j).sym = s.symAt i) →
    (s.cfg.fb + s.n .slen * (s.cfg.p / 8) ≤ s.cfg.payCap.val →
      ∃ t, exec .renc s = .next t ∧ t.status = okStatus .renc ∧ t.n .nsym = s.n .slen ∧
        s.cfg.base ≤ t.n .x ∧ t.n .x < 256 * s.cfg.base ∧
        s.cfg.fb ≤ t.n .plen ∧ t.n .plen ≤ s.cfg.fb + s.n .slen * (s.cfg.p / 8) ∧ t.payAt 0 ≠ 0) ∧
    ∃ (e : Nat → CdfEntry) (x k : Nat → Nat), EncodeTrace s.cfg.base (s.n .slen) e x k ∧
      (∀ i < s.n .slen, ∃ j < s.n .clen, e i = s.cdftAt j ∧ (e i).sym = s.symAt i) ∧
      ∀ i ≤ s.n .slen, s.cfg.base ≤ x i ∧ x i < 256 * s.cfg.base

/-- R139, R205, R207, R210: the errors of RENC on a non-empty buffer, in their order. -/
def Obligations.RencErrorsInOrder : Prop :=
  ∀ s : State, CdfInv s → 1 ≤ s.n .slen →
    (s.cfg.symCap.val < s.n .slen → EndsWith .renc .capacity s) ∧
    (s.n .slen ≤ s.cfg.symCap.val → s.n .total ≠ s.n .slen → EndsWith .renc .modelInvariant s) ∧
    (s.n .slen ≤ s.cfg.symCap.val → s.n .total = s.n .slen →
      (∃ i < s.n .slen, ∀ j < s.n .clen, (s.cdftAt j).sym ≠ s.symAt i) → EndsWith .renc .modelInvariant s) ∧
    (∀ (e : Nat → CdfEntry) (x k : Nat → Nat), s.n .slen ≤ s.cfg.symCap.val → s.n .total = s.n .slen →
      (∀ i < s.n .slen, ∃ j < s.n .clen, e i = s.cdftAt j ∧ (e i).sym = s.symAt i) →
      EncodeTrace s.cfg.base (s.n .slen) e x k →
      s.cfg.payCap.val < s.cfg.fb + bytesBefore k (s.n .slen) → EndsWith .renc .capacity s)

/-- R141, R143, R144: RDEC decodes along the states and read positions R132 and R136 give, reads the state word most significant
byte first, and tolerates a shortage of bytes after the last symbol only. -/
def Obligations.RdecFollowsTheTrace : Prop :=
  ∀ (s : State) (e : Nat → CdfEntry) (x pos : Nat → Nat), CdfInv s → 1 ≤ s.n .nsym → s.n .nsym ≤ s.cfg.symCap.val →
    s.n .plen ≤ s.cfg.payCap.val → s.n .total = s.n .nsym → s.cfg.fb ≤ s.n .plen →
    (∀ i < s.n .nsym, ∃ j < s.n .clen, e i = s.cdftAt j) →
    DecodeTrace s.cfg.base s.cfg.fb (s.n .nsym) (s.n .plen) s.payAt e x pos (s.n .nsym) →
    ∃ t, exec .rdec s = .next t ∧ t.status = okStatus .rdec ∧ Frame [.slen, .x, .pos] [.sym] s t ∧
      t.n .slen = s.n .nsym ∧ (∀ i < s.n .nsym, t.symAt i = (e i).sym) ∧ t.n .x = x (s.n .nsym) ∧
      t.n .pos = pos (s.n .nsym)

/-- R141, R202, R203, R205, R207, R210: the errors of RDEC on a non-empty output, in their order: after `m` symbols decoded
along a trace, DecodeMismatchError when the slot is at or beyond TOTAL, TruncatedStreamError when more symbols remain and
the bytes left do not bring the state up to `base`. -/
def Obligations.RdecErrorsInOrder : Prop :=
  ∀ s : State, CdfInv s → 1 ≤ s.n .nsym →
    (s.cfg.symCap.val < s.n .nsym ∨ s.cfg.payCap.val < s.n .plen → EndsWith .rdec .capacity s) ∧
    (s.n .nsym ≤ s.cfg.symCap.val → s.n .plen ≤ s.cfg.payCap.val →
      (s.n .total ≠ s.n .nsym → EndsWith .rdec .modelInvariant s) ∧
      (s.n .total = s.n .nsym →
        (s.n .plen < s.cfg.fb → EndsWith .rdec .truncatedStream s) ∧
        ∀ (m : Nat) (e : Nat → CdfEntry) (x pos : Nat → Nat), s.cfg.fb ≤ s.n .plen → m < s.n .nsym →
          (∀ i ≤ m, i < m ∨ x m % s.cfg.base < s.n .total → ∃ j < s.n .clen, e i = s.cdftAt j) →
          DecodeTrace s.cfg.base s.cfg.fb (s.n .nsym) (s.n .plen) s.payAt e x pos m →
          (s.n .total ≤ x m % s.cfg.base → EndsWith .rdec .decodeMismatch s) ∧
          ((e m).low.toNat ≤ x m % s.cfg.base → x m % s.cfg.base < (e m).low.toNat + (e m).freq.toNat →
            x m % s.cfg.base < s.n .total → m + 1 < s.n .nsym →
            (∀ d ≤ s.n .plen - pos m, refill s.payAt
              (x m / s.cfg.base * (e m).freq.toNat + x m % s.cfg.base - (e m).low.toNat) (pos m) d < s.cfg.base) →
            EndsWith .rdec .truncatedStream s)))

/-- R142, the round-trip law for rANS: RDEC after RENC, from any state that holds the payload, the lengths and the table RENC
left, gives the buffer back, with `X = base` and `POS = PLEN`. -/
def Obligations.RansRoundTrip : Prop :=
  ∀ s t u : State, CdfInv s → 1 ≤ s.n .slen → exec .renc s = .next t → t.status.err = false →
    SamePayload t u → SameCdf t u →
    ∃ v, exec .rdec u = .next v ∧ v.status = okStatus .rdec ∧ v.n .slen = s.n .slen ∧
      (∀ i < s.n .slen, v.symAt i = s.symAt i) ∧ v.n .x = s.cfg.base ∧ v.n .pos = t.n .plen

/-- R100, R101, R142, R244: RANS.COMPRESS then RANS.DECOMPRESS from any state gives the buffer back, without error, for every
buffer of 1 to `base` symbols that fits, whatever the tables and memories held before. -/
def Obligations.RansCompressThenDecompress : Prop :=
  ∀ s : State, 1 ≤ s.n .slen → s.n .slen ≤ s.cfg.symCap.val → s.n .slen ≤ s.cfg.base →
    s.cfg.fb + s.n .slen * (s.cfg.p / 8) ≤ s.cfg.payCap.val →
    ∃ s1 s2 s3 s4 s5, exec .freq s = .next s1 ∧ exec .cdf s1 = .next s2 ∧ exec .renc s2 = .next s3 ∧
      exec .cdf s3 = .next s4 ∧ exec .rdec s4 = .next s5 ∧
      s1.status = okStatus .freq ∧ s2.status = okStatus .cdf ∧ s3.status = okStatus .renc ∧ s4.status = okStatus .cdf ∧
      s5.status = okStatus .rdec ∧ s5.n .slen = s.n .slen ∧ ∀ i < s.n .slen, s5.symAt i = s.symAt i

/-! ## HTREE, HCODE, HENC and HDEC -/

/-- R161 to R163: HTREE's tree. The Leaves are the table's entries in order; each Internal node's children are the two nodes that
leave the queue first, by (weight, index), the first removed on the left; the root is the last node and weighs the sum of
the counts; no Leaf lies deeper than `n - 1`. -/
def Obligations.HtreeBuildsTheGreedyTree : Prop :=
  ∀ (s : State) (n : Nat), n = s.n .ftlen → 1 ≤ n → FtOk n s.ftAt → countBelow s.ftAt n < 2 ^ 32 →
    ∃ t, exec .htree s = .next t ∧ t.status = okStatus .htree ∧ Frame [.nnode, .root] [.ht] s t ∧
      t.n .nnode = 2 * n - 1 ∧ t.n .root = 2 * n - 2 ∧
      (∀ j < n, t.htAt j = ⟨.leaf, (s.ftAt j).count, (s.ftAt j).sym, 0, 0⟩) ∧
      HuffmanTree n t.htAt ∧ (t.htAt (2 * n - 2)).weight.toNat = countBelow s.ftAt n ∧
      (∀ m < 2 * n - 1, n ≤ m → (t.htAt m).sym = 0 ∧
        InQueue n t.htAt (t.htAt m).left.toNat m ∧ InQueue n t.htAt (t.htAt m).right.toNat m ∧
        (∀ i, InQueue n t.htAt i m → i ≠ (t.htAt m).left.toNat → Before t.htAt (t.htAt m).left.toNat i) ∧
        (∀ i, InQueue n t.htAt i m → i ≠ (t.htAt m).left.toNat → i ≠ (t.htAt m).right.toNat →
          Before t.htAt (t.htAt m).right.toNat i)) ∧
      ∀ p r, walk t.htAt (2 * n - 2) p = some r → p.length ≤ n - 1

/-- R161, R205: HTREE on an empty table gives an empty tree; on an invalid table, or one whose counts sum to `2^32` or more, it ends
with ModelInvariantError. -/
def Obligations.HtreeEmptyAndRejected : Prop :=
  ∀ s : State,
    (s.n .ftlen = 0 → ∃ t, exec .htree s = .next t ∧ t.status = okStatus .htree ∧ t.reg .nnode = 0 ∧ t.reg .root = 0 ∧
      Frame [.nnode, .root] [.ht] s t) ∧
    (¬ (FtOk (s.n .ftlen) s.ftAt ∧ countBelow s.ftAt (s.n .ftlen) < 2 ^ 32) → EndsWith .htree .modelInvariant s)

/-- R164, R165: HCODE gives every Leaf the path that leads to it, 0 left and 1 right, a single Leaf the code "0", and every other
symbol no codeword; code bits past the length are 0; with no tree no symbol has a codeword. -/
def Obligations.HcodeAssignsThePaths : Prop :=
  (∀ (s : State) (n : Nat), 1 ≤ n → n ≤ 256 → s.n .nnode = 2 * n - 1 → s.n .root = 2 * n - 2 → HuffmanTree n s.htAt →
    ∃ t, exec .hcode s = .next t ∧ t.status = okStatus .hcode ∧ Frame [] [.ct] s t ∧
      (n = 1 → codeword (t.ctOf (s.htAt 0).sym) = [false]) ∧
      (1 < n → ∀ p q, walk s.htAt (2 * n - 2) p = some q → (s.htAt q).tag = .leaf →
        codeword (t.ctOf (s.htAt q).sym) = p) ∧
      (∀ b, (∀ q < n, (s.htAt q).sym ≠ b) → t.ctOf b = ⟨0, 0⟩) ∧
      ∀ b j, (t.ctOf b).len.toNat ≤ j → j < 255 → (t.ctOf b).code.getLsbD (254 - j) = false) ∧
  ∀ s : State, s.n .nnode = 0 →
    ∃ t, exec .hcode s = .next t ∧ t.status = okStatus .hcode ∧ Frame [] [.ct] s t ∧ ∀ b, t.ctOf b = ⟨0, 0⟩

/-- R166: the laws of a code table built by HCODE from a tree of `n` Leaves: (a) a symbol has a codeword exactly when it is a Leaf's,
that is when it has an entry in the FT the tree was built from;
(b) lengths are 1 to 255, a Leaf's its depth, or 1 for a single Leaf; (c) no codeword is a prefix of another; (d) for `n ≥ 2`
the sum of `2^(-len)` is 1 and every infinite bit string starts with exactly one codeword; for `n = 1` the sum is 1/2. The
sum is written multiplied by `2^255`. -/
def Obligations.HcodeCodeIsPrefixFreeAndComplete : Prop :=
  ∀ (s t : State) (n : Nat), 1 ≤ n → n ≤ 256 → s.n .nnode = 2 * n - 1 → s.n .root = 2 * n - 2 → HuffmanTree n s.htAt →
    exec .hcode s = .next t →
      (∀ b, (t.ctOf b).len ≠ 0 ↔ ∃ q < n, (s.htAt q).sym = b) ∧
      (∀ s0 : State, exec .htree s0 = .next s → s.status.err = false →
        ∀ b, (t.ctOf b).len ≠ 0 ↔ ∃ j < s0.n .ftlen, (s0.ftAt j).sym = b) ∧
      (∀ b, (t.ctOf b).len ≠ 0 → 1 ≤ (t.ctOf b).len.toNat ∧ (t.ctOf b).len.toNat ≤ 255) ∧
      (∀ p q, walk s.htAt (2 * n - 2) p = some q → (s.htAt q).tag = .leaf →
        (t.ctOf (s.htAt q).sym).len.toNat = if n = 1 then 1 else p.length) ∧
      PrefixFree t.ctOf ∧
      ((List.range n).map fun q => 2 ^ (255 - (t.ctOf (s.htAt q).sym).len.toNat)).sum =
        (if n = 1 then 2 ^ 254 else 2 ^ 255) ∧
      (2 ≤ n → ∀ f : Nat → Bool, ∃ b, ((t.ctOf b).len ≠ 0 ∧
          codeword (t.ctOf b) = (List.range (t.ctOf b).len.toNat).map f) ∧
        ∀ b', (t.ctOf b').len ≠ 0 → codeword (t.ctOf b') = (List.range (t.ctOf b').len.toNat).map f → b' = b)

/-- R167, R168, R191: HENC writes the codewords of the buffer, first symbol's first, as the bit stream, and the stream's packed form
as the payload, with whatever codewords CT holds. -/
def Obligations.HencConcatenatesTheCodewords : Prop :=
  ∀ (s : State) (bs : List Bool), 1 ≤ s.n .slen → s.n .slen ≤ s.cfg.symCap.val →
    (∀ i < s.n .slen, (s.ctOf (s.symAt i)).len ≠ 0) →
    bs = (s.symbols (s.n .slen)).flatMap (fun b => codeword (s.ctOf b)) → bs.length ≤ s.cfg.bitsCap.val →
    1 + (bs.length + 7) / 8 ≤ s.cfg.payCap.val →
    ∃ t, exec .henc s = .next t ∧ t.status = okStatus .henc ∧ Frame [.blen, .pad, .plen, .nsym] [.bits, .pay] s t ∧
      t.n .blen = bs.length ∧ t.bitString bs.length = bs ∧ t.n .nsym = s.n .slen ∧
      t.n .plen = 1 + (bs.length + 7) / 8 ∧ t.n .pad = (8 - bs.length % 8) % 8 ∧
      (t.payAt 0).toNat = (8 - bs.length % 8) % 8 ∧
      ∀ idx < 8 * ((bs.length + 7) / 8), streamBit t.payAt idx = bs.getD idx false

/-- R167, R205, R207, R210: the errors of HENC on a non-empty buffer, in their order: at the first symbol that has one, no codeword
or no room in BITS, then no room in PAY. -/
def Obligations.HencErrorsInOrder : Prop :=
  ∀ s : State, 1 ≤ s.n .slen →
    (s.cfg.symCap.val < s.n .slen → EndsWith .henc .capacity s) ∧
    (s.n .slen ≤ s.cfg.symCap.val →
      (∀ i < s.n .slen, (∀ j < i, (s.ctOf (s.symAt j)).len ≠ 0) →
        ((s.symbols i).map fun b => (s.ctOf b).len.toNat).sum ≤ s.cfg.bitsCap.val →
        ((s.ctOf (s.symAt i)).len = 0 → EndsWith .henc .modelInvariant s) ∧
        ((s.ctOf (s.symAt i)).len ≠ 0 →
          s.cfg.bitsCap.val < ((s.symbols (i + 1)).map fun b => (s.ctOf b).len.toNat).sum → EndsWith .henc .capacity s)) ∧
      ((∀ i < s.n .slen, (s.ctOf (s.symAt i)).len ≠ 0) →
        ((s.symbols (s.n .slen)).map fun b => (s.ctOf b).len.toNat).sum ≤ s.cfg.bitsCap.val →
        s.cfg.payCap.val < 1 + (((s.symbols (s.n .slen)).map fun b => (s.ctOf b).len.toNat).sum + 7) / 8 →
        EndsWith .henc .capacity s))

/-- R169, R170: HDEC on a payload whose stream is the concatenation of NSYM codewords of a prefix-free table gives their symbols in
order; the `k` filler bits are dropped unread. -/
def Obligations.HdecDecodesTheCodewords : Prop :=
  ∀ (s : State) (w : List Byte) (len : Nat), 1 ≤ s.n .nsym → s.n .nsym ≤ s.cfg.symCap.val →
    1 ≤ s.n .plen → s.n .plen ≤ s.cfg.payCap.val → (s.payAt 0).toNat ≤ 7 →
    len + (s.payAt 0).toNat = 8 * (s.n .plen - 1) → len ≤ s.cfg.bitsCap.val →
    PrefixFree s.ctOf → w.length = s.n .nsym → (∀ c ∈ w, (s.ctOf c).len ≠ 0) →
    (List.range len).map (streamBit s.payAt) = w.flatMap (fun c => codeword (s.ctOf c)) →
    ∃ t, exec .hdec s = .next t ∧ t.status = okStatus .hdec ∧ Frame [.blen, .pad, .slen] [.bits, .sym] s t ∧
      t.n .slen = s.n .nsym ∧ t.symbols (s.n .nsym) = w ∧ t.n .blen = len ∧ t.n .pad = (s.payAt 0).toNat ∧
      ∀ idx < len, t.bitAt idx = streamBit s.payAt idx

/-- R170, R171, R201, R203, R204, R206, R207, R210: the errors of HDEC for NSYM ≥ 1, in their order; those of the loop for a
prefix-free table. -/
def Obligations.HdecErrorsInOrder : Prop :=
  ∀ s : State, 1 ≤ s.n .nsym →
    (s.cfg.symCap.val < s.n .nsym → EndsWith .hdec .capacity s) ∧
    (s.n .nsym ≤ s.cfg.symCap.val →
      (s.cfg.payCap.val < s.n .plen → EndsWith .hdec .capacity s) ∧
      (s.n .plen ≤ s.cfg.payCap.val → s.n .plen = 0 → EndsWith .hdec .truncatedStream s) ∧
      (s.n .plen ≤ s.cfg.payCap.val → 1 ≤ s.n .plen →
        (7 < (s.payAt 0).toNat ∨ 8 * (s.n .plen - 1) < (s.payAt 0).toNat → EndsWith .hdec .invalidPadding s) ∧
        ∀ len, (s.payAt 0).toNat ≤ 7 → len + (s.payAt 0).toNat = 8 * (s.n .plen - 1) →
          (s.cfg.bitsCap.val < len → EndsWith .hdec .capacity s) ∧
          (len ≤ s.cfg.bitsCap.val → PrefixFree s.ctOf → ∀ (w : List Byte) (rest : List Bool),
            (∀ c ∈ w, (s.ctOf c).len ≠ 0) →
            (List.range len).map (streamBit s.payAt) = w.flatMap (fun c => codeword (s.ctOf c)) ++ rest →
            (s.n .nsym < w.length → EndsWith .hdec .lengthMismatch s) ∧
            (w.length ≤ s.n .nsym → rest ≠ [] → (∀ c, (s.ctOf c).len ≠ 0 → ¬ codeword (s.ctOf c) <+: rest) →
              EndsWith .hdec .malformedCode s) ∧
            (w.length < s.n .nsym → rest = [] → EndsWith .hdec .truncatedStream s))))

/-- R169: MatchCode is the lowest symbol whose codeword is the accumulator, on any code table; entries with `len = 0` and
accumulators longer than 255 bits never match, and with a prefix-free table at most one symbol does. -/
def Obligations.MatchCodeIsTheLowestSymbol : Prop :=
  ∀ (ct : Byte → CtEntry) (acc : List Bool), acc ≠ [] →
    (∀ b, matchCode ct acc = some b ↔
      ((ct b).len.toNat = acc.length ∧ codeword (ct b) = acc) ∧ ∀ a, a.toNat < b.toNat → codeword (ct a) ≠ acc) ∧
    (matchCode ct acc = none ↔ ∀ b, codeword (ct b) ≠ acc) ∧
    (∀ b, (ct b).len = 0 → matchCode ct acc ≠ some b) ∧
    (PrefixFree ct → ∀ a b, codeword (ct a) = acc → codeword (ct b) = acc → a = b) ∧
    (255 < acc.length → matchCode ct acc = none)

/-- R172, the round-trip law for Huffman: after FREQ, HTREE, HCODE and HENC without error, HDEC from any state that holds the
payload, the lengths and the code table gives the buffer back. -/
def Obligations.HuffmanRoundTrip : Prop :=
  ∀ s s1 s2 s3 s4 u : State, 1 ≤ s.n .slen → exec .freq s = .next s1 → s1.status.err = false →
    exec .htree s1 = .next s2 → exec .hcode s2 = .next s3 → exec .henc s3 = .next s4 → s4.status.err = false →
    SamePayload s4 u → (∀ b, u.ctOf b = s4.ctOf b) →
    s2.status = okStatus .htree ∧ s3.status = okStatus .hcode ∧
    ∃ v, exec .hdec u = .next v ∧ v.status = okStatus .hdec ∧ v.n .slen = s.n .slen ∧
      ∀ i < s.n .slen, v.symAt i = s.symAt i

/-! ## BPACK and BUNPK -/

/-- R62, R191, R192: BPACK writes the header `k`, then the bits, earlier bit at the more significant place, and `k` filler bits 0. -/
def Obligations.BpackPacksTheBits : Prop :=
  ∀ s : State, s.n .blen ≤ s.cfg.bitsCap.val → 1 + (s.n .blen + 7) / 8 ≤ s.cfg.payCap.val →
    ∃ t, exec .bpack s = .next t ∧ t.status = okStatus .bpack ∧ Frame [.plen, .pad] [.pay] s t ∧
      t.n .plen = 1 + (s.n .blen + 7) / 8 ∧ t.n .pad = (8 - s.n .blen % 8) % 8 ∧
      (t.payAt 0).toNat = (8 - s.n .blen % 8) % 8 ∧
      ∀ q < (s.n .blen + 7) / 8, ∀ j < 8,
        (t.payAt (1 + q)).getLsbD (7 - j) = if 8 * q + j < s.n .blen then s.bitAt (8 * q + j) else false

/-- R62, R193, R194: BUNPK reads the header, drops the last `k` bits and writes the others in order. -/
def Obligations.BunpkUnpacksTheBits : Prop :=
  ∀ (s : State) (len : Nat), 1 ≤ s.n .plen → s.n .plen ≤ s.cfg.payCap.val → (s.payAt 0).toNat ≤ 7 →
    len + (s.payAt 0).toNat = 8 * (s.n .plen - 1) → len ≤ s.cfg.bitsCap.val →
    ∃ t, exec .bunpk s = .next t ∧ t.status = okStatus .bunpk ∧ Frame [.blen, .pad] [.bits] s t ∧
      t.n .blen = len ∧ t.n .pad = (s.payAt 0).toNat ∧
      ∀ idx < len, t.bitAt idx = (s.payAt (1 + idx / 8)).getLsbD (7 - idx % 8)

/-- R195: (a) BPACK then BUNPK returns the bits, their number and PAD; (b) BUNPK then BPACK returns PLEN, the header and the bytes, but for
the filler bits, which become 0; (c) the lengths; (d) the header is the one value of R191, and BUNPK accepts any `k` from 0
to 7 that the length allows. -/
def Obligations.BitUnitsInvertEachOther : Prop :=
  (∀ s : State, s.n .blen ≤ s.cfg.bitsCap.val → 1 + (s.n .blen + 7) / 8 ≤ s.cfg.payCap.val →
    ∃ t u, exec .bpack s = .next t ∧ exec .bunpk t = .next u ∧ t.status = okStatus .bpack ∧ u.status = okStatus .bunpk ∧
      u.n .blen = s.n .blen ∧ (∀ i < s.n .blen, u.bitAt i = s.bitAt i) ∧ u.n .pad = t.n .pad ∧
      t.n .plen = 1 + (s.n .blen + 7) / 8 ∧ s.n .blen = 8 * (t.n .plen - 1) - t.n .pad ∧
      (t.payAt 0).toNat = (8 - s.n .blen % 8) % 8) ∧
  (∀ s : State, 1 ≤ s.n .plen → s.n .plen ≤ s.cfg.payCap.val → (s.payAt 0).toNat ≤ 7 →
    (s.payAt 0).toNat ≤ 8 * (s.n .plen - 1) → 8 * (s.n .plen - 1) - (s.payAt 0).toNat ≤ s.cfg.bitsCap.val →
    ∃ t u, exec .bunpk s = .next t ∧ exec .bpack t = .next u ∧ t.status = okStatus .bunpk ∧ u.status = okStatus .bpack ∧
      t.n .blen = 8 * (s.n .plen - 1) - t.n .pad ∧ s.n .plen = 1 + (t.n .blen + 7) / 8 ∧
      u.n .plen = s.n .plen ∧ u.payAt 0 = s.payAt 0 ∧
      ∀ idx < 8 * (s.n .plen - 1),
        streamBit u.payAt idx = if idx < 8 * (s.n .plen - 1) - (s.payAt 0).toNat then streamBit s.payAt idx else false)

/-- R192, R194, R201, R203, R207, R210: the errors of BPACK and BUNPK, in their order. -/
def Obligations.BitUnitErrorsInOrder : Prop :=
  ∀ s : State,
    (s.cfg.bitsCap.val < s.n .blen ∨ s.cfg.payCap.val < 1 + (s.n .blen + 7) / 8 → EndsWith .bpack .capacity s) ∧
    (s.cfg.payCap.val < s.n .plen → EndsWith .bunpk .capacity s) ∧
    (s.n .plen ≤ s.cfg.payCap.val →
      (s.n .plen = 0 → EndsWith .bunpk .truncatedStream s) ∧
      (1 ≤ s.n .plen →
        (7 < (s.payAt 0).toNat ∨ 8 * (s.n .plen - 1) < (s.payAt 0).toNat → EndsWith .bunpk .invalidPadding s) ∧
        ∀ len, (s.payAt 0).toNat ≤ 7 → len + (s.payAt 0).toNat = 8 * (s.n .plen - 1) → s.cfg.bitsCap.val < len →
          EndsWith .bunpk .capacity s))

/-! ## Frames, errors, invariants: the whole machine -/

/-- R65: what FREQ, CDF, HTREE and HCODE leave unchanged, whether they end with an error or not: every register, memory and pending
host action but FTLEN and FT; CLEN, TOTAL and CDFT; NNODE, ROOT and HT; CT. -/
def Obligations.FrameOfTheTableCommands : Prop :=
  ∀ s t : State,
    (exec .freq s = .next t → Frame [.ftlen] [.ft] s t) ∧
    (exec .cdf s = .next t → Frame [.clen, .total] [.cdft] s t) ∧
    (exec .htree s = .next t → Frame [.nnode, .root] [.ht] s t) ∧
    (exec .hcode s = .next t → Frame [] [.ct] s t)

/-- R65: what RENC and RDEC leave unchanged: all but PLEN, NSYM, X and PAY; all but SLEN, X, POS and SYM. -/
def Obligations.FrameOfTheRansCommands : Prop :=
  ∀ s t : State,
    (exec .renc s = .next t → Frame [.plen, .nsym, .x] [.pay] s t) ∧
    (exec .rdec s = .next t → Frame [.slen, .x, .pos] [.sym] s t)

/-- R65: what HENC, HDEC, BPACK and BUNPK leave unchanged: all but BLEN, PAD, PLEN, NSYM, BITS and PAY; BLEN, PAD, SLEN, BITS and SYM; PLEN,
PAD and PAY; BLEN, PAD and BITS. -/
def Obligations.FrameOfTheBitCommands : Prop :=
  ∀ s t : State,
    (exec .henc s = .next t → Frame [.blen, .pad, .plen, .nsym] [.bits, .pay] s t) ∧
    (exec .hdec s = .next t → Frame [.blen, .pad, .slen] [.bits, .sym] s t) ∧
    (exec .bpack s = .next t → Frame [.plen, .pad] [.pay] s t) ∧
    (exec .bunpk s = .next t → Frame [.blen, .pad] [.bits] s t)

/-- R212: after a command that ended with an error its output length register is 0 (CDF: TOTAL too; HTREE: ROOT too), STATUS is idle and
done with ERR and the code of a kind, and what is no output of the command is unchanged; IllegalCommandError changes
STATUS only. -/
def Obligations.ErrorEntryClearsTheLengths : Prop :=
  (∀ (i : Instr) (s t : State), exec i s = .next t → t.status.err = true →
    (∃ k, t.status = errStatus i k) ∧ Frame (outRegs i) (outSpaces i) s t ∧
    (i = .freq → t.reg .ftlen = 0) ∧ (i = .cdf → t.reg .clen = 0 ∧ t.reg .total = 0) ∧
    (i = .renc ∨ i = .henc ∨ i = .bpack → t.reg .plen = 0) ∧ (i = .rdec ∨ i = .hdec → t.reg .slen = 0) ∧
    (i = .htree → t.reg .nnode = 0 ∧ t.reg .root = 0) ∧ (i = .bunpk → t.reg .blen = 0)) ∧
  ∀ (s : State) (w : Word), s.status.busy = false → (∀ i, decode w ≠ .ok i) →
    writeCmd w s = .next { s with status := ⟨false, true, true, 8, w.extractLsb' 0 8⟩ }

/-- R200: the code of each error kind as a number, and the codes each command can end with. With the first clause every
statement that names a kind (`errStatus`, `EndsWith`) speaks of its number in ERRCODE. -/
def Obligations.ErrorCodesOfEachCommand : Prop :=
  ((∀ i k, (errStatus i k).errcode = k.code) ∧
    ErrKind.invalidPadding.code = 1 ∧ ErrKind.decodeMismatch.code = 2 ∧ ErrKind.truncatedStream.code = 3 ∧
    ErrKind.malformedCode.code = 4 ∧ ErrKind.modelInvariant.code = 5 ∧ ErrKind.lengthMismatch.code = 6 ∧
    ErrKind.capacity.code = 7 ∧ ErrKind.illegalCommand.code = 8) ∧
  ∀ s t : State,
    (exec .freq s = .next t → t.status.errcode ∈ ([0, 7] : List (BitVec 8))) ∧
    (exec .cdf s = .next t → t.status.errcode ∈ ([0, 5] : List (BitVec 8))) ∧
    (exec .renc s = .next t → t.status.errcode ∈ ([0, 5, 7] : List (BitVec 8))) ∧
    (exec .rdec s = .next t → t.status.errcode ∈ ([0, 2, 3, 5, 7] : List (BitVec 8))) ∧
    (exec .htree s = .next t → t.status.errcode ∈ ([0, 5] : List (BitVec 8))) ∧
    (exec .hcode s = .next t → t.status.errcode = 0) ∧
    (exec .henc s = .next t → t.status.errcode ∈ ([0, 5, 7] : List (BitVec 8))) ∧
    (exec .hdec s = .next t → t.status.errcode ∈ ([0, 1, 3, 4, 6, 7] : List (BitVec 8))) ∧
    (exec .bpack s = .next t → t.status.errcode ∈ ([0, 7] : List (BitVec 8))) ∧
    (exec .bunpk s = .next t → t.status.errcode ∈ ([0, 1, 3, 7] : List (BitVec 8)))

/-- The invariant every step keeps, whatever the host does: memories in canonical form and within their size, STATUS
consistent and idle, no free-value key used twice (log 4), CDFT and TOTAL a partition (R115), HT a Huffman tree (R163). -/
def Obligations.EveryStepKeepsTheInvariant : Prop :=
  ∀ s t : State, s.Inv → step s = .next t → t.Inv

/-- The reset state of every configuration meets the invariant. -/
def Obligations.ResetMeetsTheInvariant : Prop := ∀ c, (State.resetWith c).Inv

/-- R247: every command ends, with or without an error and with BUSY 0, in every state whose tables are as CDF and HTREE left them. -/
def Obligations.EveryCommandEnds : Prop :=
  ∀ s : State, CdfInv s → TreeInv s → ∀ i, ∃ t, exec i s = .next t ∧ t.status.busy = false ∧ t.status.done = true

/-- Which commands can stop the model, and where (log 10): RENC on a table with a zero frequency, HCODE on nodes that are no tree; no
command is refused. Neither state can be reached (R115 c, R163). -/
def Obligations.StopsOnlyOutsideTheInvariant : Prop :=
  ∀ (i : Instr) (s : State),
    (∀ f, exec i s = .fault f →
      (i = .renc ∧ f = .encoderLoopNeverEnds ∧ ∃ j < s.n .clen, (s.cdftAt j).freq = 0) ∨
      (i = .hcode ∧ f = .huffmanTreeTooDeep ∧ ¬ TreeInv s)) ∧
    ∀ r, exec i s ≠ .refused r

/-- R238, R240: CDFT, CLEN and TOTAL change only when CDF runs, HT, NNODE and ROOT only when HTREE runs, CT only when HCODE runs or the
host writes it; and by reset. -/
def Obligations.TablesChangeOnlyByTheirCommands : Prop :=
  ∀ (s t : State) (a : HostAction) (rest : List HostAction), s.inputs = a :: rest → a ≠ .reset → step s = .next t →
    (a ≠ .writeCtl .cmd (encode .cdf) → (∀ cs, a ≠ .issue (.cdf :: cs)) →
      t.reg .clen = s.reg .clen ∧ t.reg .total = s.reg .total ∧ ∀ j, t.cdftAt j = s.cdftAt j) ∧
    (a ≠ .writeCtl .cmd (encode .htree) → (∀ cs, a ≠ .issue (.htree :: cs)) →
      t.reg .nnode = s.reg .nnode ∧ t.reg .root = s.reg .root ∧ ∀ q, t.htAt q = s.htAt q) ∧
    (a ≠ .writeCtl .cmd (encode .hcode) → (∀ cs, a ≠ .issue (.hcode :: cs)) → (∀ (i : Nat) (e : CtEntry), a ≠ .loadm i (.ct e)) →
      ∀ j, t.ctAt j = s.ctAt j)

/-- R6, R38, R50: no step changes the build-time constants, so CFG always reads the same. -/
def Obligations.ConfigurationIsConstant : Prop :=
  ∀ s t : State, step s = .next t → t.cfg = s.cfg ∧ t.readCtl .cfg = s.readCtl .cfg

/-- R48, R49, R65, R213: a command's result is a function of the inputs R65 lists alone: two states that agree on them end with the
same STATUS, and agree on every output when there is no error. -/
def Obligations.OutputsDependOnInputsAlone : Prop :=
  ∀ (i : Instr) (s u t : State), SameInputs i s u → exec i s = .next t →
    (i = .hcode → TreeInv s) →
    ∃ v, exec i u = .next v ∧ v.status = t.status ∧ (t.status.err = false → SameOutputs i s t v)

/-! ## Further statements -/

/-- A host write of STATUS or CFG on an idle core is ignored: no register, memory or STATUS bit changes. For CFG the spec says so
(R38, "Writes are ignored"); for STATUS the model reads it from R36 (read-only) and R37 (log 9, DEDUCED). -/
def Obligations.HostWritesOfStatusAndCfgAreIgnored : Prop :=
  ∀ (s : State) (v : Word) (rest : List HostAction), s.status.busy = false →
    step { s with inputs := .writeCtl .status v :: rest } = .next { s with inputs := rest } ∧
    step { s with inputs := .writeCtl .cfg v :: rest } = .next { s with inputs := rest }

/-- R169, R170: HDEC on any code table, prefix-free or not: when the stream is NSYM pieces, each cut at its first match, the symbols are
those of the pieces in order; the `k` filler bits are dropped unread. -/
def Obligations.HdecFollowsTheFirstMatches : Prop :=
  ∀ (s : State) (ps : List (List Bool × Byte)) (len : Nat), 1 ≤ s.n .nsym → s.n .nsym ≤ s.cfg.symCap.val →
    1 ≤ s.n .plen → s.n .plen ≤ s.cfg.payCap.val → (s.payAt 0).toNat ≤ 7 →
    len + (s.payAt 0).toNat = 8 * (s.n .plen - 1) → len ≤ s.cfg.bitsCap.val →
    ps.length = s.n .nsym → (∀ p ∈ ps, FirstMatch s.ctOf p.1 p.2) →
    (List.range len).map (streamBit s.payAt) = ps.flatMap Prod.fst →
    ∃ t, exec .hdec s = .next t ∧ t.status = okStatus .hdec ∧ Frame [.blen, .pad, .slen] [.bits, .sym] s t ∧
      t.n .slen = s.n .nsym ∧ t.symbols (s.n .nsym) = ps.map Prod.snd ∧ t.n .blen = len ∧
      t.n .pad = (s.payAt 0).toNat ∧ ∀ idx < len, t.bitAt idx = streamBit s.payAt idx

/-- R169 to R171, R203, R204, R206, R210: the errors of HDEC's loop on any code table, in their order, along the pieces cut at their
first matches and the rest that nothing matches. Every stream is cut so on every table, so these cases and that of
HdecFollowsTheFirstMatches are all there are. -/
def Obligations.HdecLoopErrorsOnAnyTable : Prop :=
  (∀ (s : State) (ps : List (List Bool × Byte)) (rest : List Bool) (len : Nat), 1 ≤ s.n .nsym → s.n .nsym ≤ s.cfg.symCap.val →
    1 ≤ s.n .plen → s.n .plen ≤ s.cfg.payCap.val → (s.payAt 0).toNat ≤ 7 →
    len + (s.payAt 0).toNat = 8 * (s.n .plen - 1) → len ≤ s.cfg.bitsCap.val →
    (∀ p ∈ ps, FirstMatch s.ctOf p.1 p.2) →
    (List.range len).map (streamBit s.payAt) = ps.flatMap Prod.fst ++ rest →
    (s.n .nsym < ps.length → EndsWith .hdec .lengthMismatch s) ∧
    (ps.length ≤ s.n .nsym → rest ≠ [] → NoMatch s.ctOf rest → EndsWith .hdec .malformedCode s) ∧
    (ps.length < s.n .nsym → rest = [] → EndsWith .hdec .truncatedStream s)) ∧
  ∀ (ct : Byte → CtEntry) (bs : List Bool), ∃ (ps : List (List Bool × Byte)) (rest : List Bool),
    (∀ p ∈ ps, FirstMatch ct p.1 p.2) ∧ bs = ps.flatMap Prod.fst ++ rest ∧ NoMatch ct rest
end

