-- ==== Sys2Proof/Laws/State.lean ====
section
/-! SUPPORT. One lemma per field per update of the state, and the reads of registers through updates. -/

namespace Sys2Proof.Machine

@[simp] theorem Regs.ofFn_get (f : Reg → Word) (r : Reg) : (Regs.ofFn f).get r = f r := by cases r <;> rfl

@[simp] theorem Regs.set_get (g : Regs) (r q : Reg) (v : Word) : (g.set r v).get q = if q = r then v else g.get q := by
  simp [Regs.set]

theorem State.reg_of_ne (s : State) {r : Reg} (h : r ≠ .x) : s.reg r = s.regs.get r := by
  cases r <;> first | rfl | exact absurd rfl h

theorem State.reg_x (s : State) : s.reg .x = BitVec.ofNat 32 (s.regs.x.toNat % 2 ^ s.cfg.xw) := rfl

/-- A register reads the same in two states that store the same value in it and have the same configuration. -/
theorem State.reg_congr {s t : State} (hc : t.cfg = s.cfg) {r : Reg} (h : t.regs.get r = s.regs.get r) :
    t.reg r = s.reg r := by
  cases r <;> simp_all [State.reg, Regs.get]

/-! putSym -/

@[simp] theorem State.putSym_cfg (s : State) (vs : List Byte) : (s.putSym vs).cfg = s.cfg := rfl
@[simp] theorem State.putSym_regs (s : State) (vs : List Byte) : (s.putSym vs).regs = s.regs := rfl
@[simp] theorem State.putSym_status (s : State) (vs : List Byte) : (s.putSym vs).status = s.status := rfl
@[simp] theorem State.putSym_sym (s : State) (vs : List Byte) : (s.putSym vs).sym = Memory.ofList s.fresh vs := rfl
@[simp] theorem State.putSym_pay (s : State) (vs : List Byte) : (s.putSym vs).pay = s.pay := rfl
@[simp] theorem State.putSym_bits (s : State) (vs : List Byte) : (s.putSym vs).bits = s.bits := rfl
@[simp] theorem State.putSym_ft (s : State) (vs : List Byte) : (s.putSym vs).ft = s.ft := rfl
@[simp] theorem State.putSym_cdft (s : State) (vs : List Byte) : (s.putSym vs).cdft = s.cdft := rfl
@[simp] theorem State.putSym_ht (s : State) (vs : List Byte) : (s.putSym vs).ht = s.ht := rfl
@[simp] theorem State.putSym_ct (s : State) (vs : List Byte) : (s.putSym vs).ct = s.ct := rfl
@[simp] theorem State.putSym_inputs (s : State) (vs : List Byte) : (s.putSym vs).inputs = s.inputs := rfl
@[simp] theorem State.putSym_fresh (s : State) (vs : List Byte) : (s.putSym vs).fresh = s.fresh + 1 := rfl

/-! putPay -/

@[simp] theorem State.putPay_cfg (s : State) (vs : List Byte) : (s.putPay vs).cfg = s.cfg := rfl
@[simp] theorem State.putPay_regs (s : State) (vs : List Byte) : (s.putPay vs).regs = s.regs := rfl
@[simp] theorem State.putPay_status (s : State) (vs : List Byte) : (s.putPay vs).status = s.status := rfl
@[simp] theorem State.putPay_sym (s : State) (vs : List Byte) : (s.putPay vs).sym = s.sym := rfl
@[simp] theorem State.putPay_pay (s : State) (vs : List Byte) : (s.putPay vs).pay = Memory.ofList s.fresh vs := rfl
@[simp] theorem State.putPay_bits (s : State) (vs : List Byte) : (s.putPay vs).bits = s.bits := rfl
@[simp] theorem State.putPay_ft (s : State) (vs : List Byte) : (s.putPay vs).ft = s.ft := rfl
@[simp] theorem State.putPay_cdft (s : State) (vs : List Byte) : (s.putPay vs).cdft = s.cdft := rfl
@[simp] theorem State.putPay_ht (s : State) (vs : List Byte) : (s.putPay vs).ht = s.ht := rfl
@[simp] theorem State.putPay_ct (s : State) (vs : List Byte) : (s.putPay vs).ct = s.ct := rfl
@[simp] theorem State.putPay_inputs (s : State) (vs : List Byte) : (s.putPay vs).inputs = s.inputs := rfl
@[simp] theorem State.putPay_fresh (s : State) (vs : List Byte) : (s.putPay vs).fresh = s.fresh + 1 := rfl

/-! putBits -/

@[simp] theorem State.putBits_cfg (s : State) (vs : List Bool) : (s.putBits vs).cfg = s.cfg := rfl
@[simp] theorem State.putBits_regs (s : State) (vs : List Bool) : (s.putBits vs).regs = s.regs := rfl
@[simp] theorem State.putBits_status (s : State) (vs : List Bool) : (s.putBits vs).status = s.status := rfl
@[simp] theorem State.putBits_sym (s : State) (vs : List Bool) : (s.putBits vs).sym = s.sym := rfl
@[simp] theorem State.putBits_pay (s : State) (vs : List Bool) : (s.putBits vs).pay = s.pay := rfl
@[simp] theorem State.putBits_bits (s : State) (vs : List Bool) : (s.putBits vs).bits = Memory.ofList s.fresh vs := rfl
@[simp] theorem State.putBits_ft (s : State) (vs : List Bool) : (s.putBits vs).ft = s.ft := rfl
@[simp] theorem State.putBits_cdft (s : State) (vs : List Bool) : (s.putBits vs).cdft = s.cdft := rfl
@[simp] theorem State.putBits_ht (s : State) (vs : List Bool) : (s.putBits vs).ht = s.ht := rfl
@[simp] theorem State.putBits_ct (s : State) (vs : List Bool) : (s.putBits vs).ct = s.ct := rfl
@[simp] theorem State.putBits_inputs (s : State) (vs : List Bool) : (s.putBits vs).inputs = s.inputs := rfl
@[simp] theorem State.putBits_fresh (s : State) (vs : List Bool) : (s.putBits vs).fresh = s.fresh + 1 := rfl

/-! putFt -/

@[simp] theorem State.putFt_cfg (s : State) (vs : List FtEntry) : (s.putFt vs).cfg = s.cfg := rfl
@[simp] theorem State.putFt_regs (s : State) (vs : List FtEntry) : (s.putFt vs).regs = s.regs := rfl
@[simp] theorem State.putFt_status (s : State) (vs : List FtEntry) : (s.putFt vs).status = s.status := rfl
@[simp] theorem State.putFt_sym (s : State) (vs : List FtEntry) : (s.putFt vs).sym = s.sym := rfl
@[simp] theorem State.putFt_pay (s : State) (vs : List FtEntry) : (s.putFt vs).pay = s.pay := rfl
@[simp] theorem State.putFt_bits (s : State) (vs : List FtEntry) : (s.putFt vs).bits = s.bits := rfl
@[simp] theorem State.putFt_ft (s : State) (vs : List FtEntry) : (s.putFt vs).ft = Memory.ofList s.fresh vs := rfl
@[simp] theorem State.putFt_cdft (s : State) (vs : List FtEntry) : (s.putFt vs).cdft = s.cdft := rfl
@[simp] theorem State.putFt_ht (s : State) (vs : List FtEntry) : (s.putFt vs).ht = s.ht := rfl
@[simp] theorem State.putFt_ct (s : State) (vs : List FtEntry) : (s.putFt vs).ct = s.ct := rfl
@[simp] theorem State.putFt_inputs (s : State) (vs : List FtEntry) : (s.putFt vs).inputs = s.inputs := rfl
@[simp] theorem State.putFt_fresh (s : State) (vs : List FtEntry) : (s.putFt vs).fresh = s.fresh + 1 := rfl

/-! putCdft -/

@[simp] theorem State.putCdft_cfg (s : State) (vs : List CdfEntry) : (s.putCdft vs).cfg = s.cfg := rfl
@[simp] theorem State.putCdft_regs (s : State) (vs : List CdfEntry) : (s.putCdft vs).regs = s.regs := rfl
@[simp] theorem State.putCdft_status (s : State) (vs : List CdfEntry) : (s.putCdft vs).status = s.status := rfl
@[simp] theorem State.putCdft_sym (s : State) (vs : List CdfEntry) : (s.putCdft vs).sym = s.sym := rfl
@[simp] theorem State.putCdft_pay (s : State) (vs : List CdfEntry) : (s.putCdft vs).pay = s.pay := rfl
@[simp] theorem State.putCdft_bits (s : State) (vs : List CdfEntry) : (s.putCdft vs).bits = s.bits := rfl
@[simp] theorem State.putCdft_ft (s : State) (vs : List CdfEntry) : (s.putCdft vs).ft = s.ft := rfl
@[simp] theorem State.putCdft_cdft (s : State) (vs : List CdfEntry) : (s.putCdft vs).cdft = Memory.ofList s.fresh vs := rfl
@[simp] theorem State.putCdft_ht (s : State) (vs : List CdfEntry) : (s.putCdft vs).ht = s.ht := rfl
@[simp] theorem State.putCdft_ct (s : State) (vs : List CdfEntry) : (s.putCdft vs).ct = s.ct := rfl
@[simp] theorem State.putCdft_inputs (s : State) (vs : List CdfEntry) : (s.putCdft vs).inputs = s.inputs := rfl
@[simp] theorem State.putCdft_fresh (s : State) (vs : List CdfEntry) : (s.putCdft vs).fresh = s.fresh + 1 := rfl

/-! putHt -/

@[simp] theorem State.putHt_cfg (s : State) (vs : List HtNode) : (s.putHt vs).cfg = s.cfg := rfl
@[simp] theorem State.putHt_regs (s : State) (vs : List HtNode) : (s.putHt vs).regs = s.regs := rfl
@[simp] theorem State.putHt_status (s : State) (vs : List HtNode) : (s.putHt vs).status = s.status := rfl
@[simp] theorem State.putHt_sym (s : State) (vs : List HtNode) : (s.putHt vs).sym = s.sym := rfl
@[simp] theorem State.putHt_pay (s : State) (vs : List HtNode) : (s.putHt vs).pay = s.pay := rfl
@[simp] theorem State.putHt_bits (s : State) (vs : List HtNode) : (s.putHt vs).bits = s.bits := rfl
@[simp] theorem State.putHt_ft (s : State) (vs : List HtNode) : (s.putHt vs).ft = s.ft := rfl
@[simp] theorem State.putHt_cdft (s : State) (vs : List HtNode) : (s.putHt vs).cdft = s.cdft := rfl
@[simp] theorem State.putHt_ht (s : State) (vs : List HtNode) : (s.putHt vs).ht = Memory.ofList s.fresh vs := rfl
@[simp] theorem State.putHt_ct (s : State) (vs : List HtNode) : (s.putHt vs).ct = s.ct := rfl
@[simp] theorem State.putHt_inputs (s : State) (vs : List HtNode) : (s.putHt vs).inputs = s.inputs := rfl
@[simp] theorem State.putHt_fresh (s : State) (vs : List HtNode) : (s.putHt vs).fresh = s.fresh + 1 := rfl

/-! putCt -/

@[simp] theorem State.putCt_cfg (s : State) (vs : List CtEntry) : (s.putCt vs).cfg = s.cfg := rfl
@[simp] theorem State.putCt_regs (s : State) (vs : List CtEntry) : (s.putCt vs).regs = s.regs := rfl
@[simp] theorem State.putCt_status (s : State) (vs : List CtEntry) : (s.putCt vs).status = s.status := rfl
@[simp] theorem State.putCt_sym (s : State) (vs : List CtEntry) : (s.putCt vs).sym = s.sym := rfl
@[simp] theorem State.putCt_pay (s : State) (vs : List CtEntry) : (s.putCt vs).pay = s.pay := rfl
@[simp] theorem State.putCt_bits (s : State) (vs : List CtEntry) : (s.putCt vs).bits = s.bits := rfl
@[simp] theorem State.putCt_ft (s : State) (vs : List CtEntry) : (s.putCt vs).ft = s.ft := rfl
@[simp] theorem State.putCt_cdft (s : State) (vs : List CtEntry) : (s.putCt vs).cdft = s.cdft := rfl
@[simp] theorem State.putCt_ht (s : State) (vs : List CtEntry) : (s.putCt vs).ht = s.ht := rfl
@[simp] theorem State.putCt_ct (s : State) (vs : List CtEntry) : (s.putCt vs).ct = Memory.ofList s.fresh vs := rfl
@[simp] theorem State.putCt_inputs (s : State) (vs : List CtEntry) : (s.putCt vs).inputs = s.inputs := rfl
@[simp] theorem State.putCt_fresh (s : State) (vs : List CtEntry) : (s.putCt vs).fresh = s.fresh + 1 := rfl

/-! setReg -/

@[simp] theorem State.setReg_cfg (s : State) (r : Reg) (v : Word) : (s.setReg r v).cfg = s.cfg := rfl
@[simp] theorem State.setReg_regs (s : State) (r : Reg) (v : Word) : (s.setReg r v).regs = s.regs.set r v := rfl
@[simp] theorem State.setReg_status (s : State) (r : Reg) (v : Word) : (s.setReg r v).status = s.status := rfl
@[simp] theorem State.setReg_sym (s : State) (r : Reg) (v : Word) : (s.setReg r v).sym = s.sym := rfl
@[simp] theorem State.setReg_pay (s : State) (r : Reg) (v : Word) : (s.setReg r v).pay = s.pay := rfl
@[simp] theorem State.setReg_bits (s : State) (r : Reg) (v : Word) : (s.setReg r v).bits = s.bits := rfl
@[simp] theorem State.setReg_ft (s : State) (r : Reg) (v : Word) : (s.setReg r v).ft = s.ft := rfl
@[simp] theorem State.setReg_cdft (s : State) (r : Reg) (v : Word) : (s.setReg r v).cdft = s.cdft := rfl
@[simp] theorem State.setReg_ht (s : State) (r : Reg) (v : Word) : (s.setReg r v).ht = s.ht := rfl
@[simp] theorem State.setReg_ct (s : State) (r : Reg) (v : Word) : (s.setReg r v).ct = s.ct := rfl
@[simp] theorem State.setReg_inputs (s : State) (r : Reg) (v : Word) : (s.setReg r v).inputs = s.inputs := rfl
@[simp] theorem State.setReg_fresh (s : State) (r : Reg) (v : Word) : (s.setReg r v).fresh = s.fresh := rfl

/-! setNat -/

@[simp] theorem State.setNat_cfg (s : State) (r : Reg) (v : Nat) : (s.setNat r v).cfg = s.cfg := rfl
@[simp] theorem State.setNat_regs (s : State) (r : Reg) (v : Nat) : (s.setNat r v).regs = s.regs.set r (BitVec.ofNat 32 v) := rfl
@[simp] theorem State.setNat_status (s : State) (r : Reg) (v : Nat) : (s.setNat r v).status = s.status := rfl
@[simp] theorem State.setNat_sym (s : State) (r : Reg) (v : Nat) : (s.setNat r v).sym = s.sym := rfl
@[simp] theorem State.setNat_pay (s : State) (r : Reg) (v : Nat) : (s.setNat r v).pay = s.pay := rfl
@[simp] theorem State.setNat_bits (s : State) (r : Reg) (v : Nat) : (s.setNat r v).bits = s.bits := rfl
@[simp] theorem State.setNat_ft (s : State) (r : Reg) (v : Nat) : (s.setNat r v).ft = s.ft := rfl
@[simp] theorem State.setNat_cdft (s : State) (r : Reg) (v : Nat) : (s.setNat r v).cdft = s.cdft := rfl
@[simp] theorem State.setNat_ht (s : State) (r : Reg) (v : Nat) : (s.setNat r v).ht = s.ht := rfl
@[simp] theorem State.setNat_ct (s : State) (r : Reg) (v : Nat) : (s.setNat r v).ct = s.ct := rfl
@[simp] theorem State.setNat_inputs (s : State) (r : Reg) (v : Nat) : (s.setNat r v).inputs = s.inputs := rfl
@[simp] theorem State.setNat_fresh (s : State) (r : Reg) (v : Nat) : (s.setNat r v).fresh = s.fresh := rfl

/-! begin -/

@[simp] theorem State.begin_cfg (s : State) (op : BitVec 8) : (s.begin op).cfg = s.cfg := rfl
@[simp] theorem State.begin_regs (s : State) (op : BitVec 8) : (s.begin op).regs = s.regs := rfl
@[simp] theorem State.begin_status (s : State) (op : BitVec 8) : (s.begin op).status = Status.started op := rfl
@[simp] theorem State.begin_sym (s : State) (op : BitVec 8) : (s.begin op).sym = s.sym := rfl
@[simp] theorem State.begin_pay (s : State) (op : BitVec 8) : (s.begin op).pay = s.pay := rfl
@[simp] theorem State.begin_bits (s : State) (op : BitVec 8) : (s.begin op).bits = s.bits := rfl
@[simp] theorem State.begin_ft (s : State) (op : BitVec 8) : (s.begin op).ft = s.ft := rfl
@[simp] theorem State.begin_cdft (s : State) (op : BitVec 8) : (s.begin op).cdft = s.cdft := rfl
@[simp] theorem State.begin_ht (s : State) (op : BitVec 8) : (s.begin op).ht = s.ht := rfl
@[simp] theorem State.begin_ct (s : State) (op : BitVec 8) : (s.begin op).ct = s.ct := rfl
@[simp] theorem State.begin_inputs (s : State) (op : BitVec 8) : (s.begin op).inputs = s.inputs := rfl
@[simp] theorem State.begin_fresh (s : State) (op : BitVec 8) : (s.begin op).fresh = s.fresh := rfl

/-! finish -/

@[simp] theorem State.finish_cfg (s : State) (code : BitVec 8) : (s.finish code).cfg = s.cfg := rfl
@[simp] theorem State.finish_regs (s : State) (code : BitVec 8) : (s.finish code).regs = s.regs := rfl
@[simp] theorem State.finish_status (s : State) (code : BitVec 8) : (s.finish code).status = s.status.finished code := rfl
@[simp] theorem State.finish_sym (s : State) (code : BitVec 8) : (s.finish code).sym = s.sym := rfl
@[simp] theorem State.finish_pay (s : State) (code : BitVec 8) : (s.finish code).pay = s.pay := rfl
@[simp] theorem State.finish_bits (s : State) (code : BitVec 8) : (s.finish code).bits = s.bits := rfl
@[simp] theorem State.finish_ft (s : State) (code : BitVec 8) : (s.finish code).ft = s.ft := rfl
@[simp] theorem State.finish_cdft (s : State) (code : BitVec 8) : (s.finish code).cdft = s.cdft := rfl
@[simp] theorem State.finish_ht (s : State) (code : BitVec 8) : (s.finish code).ht = s.ht := rfl
@[simp] theorem State.finish_ct (s : State) (code : BitVec 8) : (s.finish code).ct = s.ct := rfl
@[simp] theorem State.finish_inputs (s : State) (code : BitVec 8) : (s.finish code).inputs = s.inputs := rfl
@[simp] theorem State.finish_fresh (s : State) (code : BitVec 8) : (s.finish code).fresh = s.fresh := rfl

/-! zeroRegs -/

@[simp] theorem State.zeroRegs_cfg (s : State) (rs : List Reg) : (s.zeroRegs rs).cfg = s.cfg := rfl
@[simp] theorem State.zeroRegs_regs (s : State) (rs : List Reg) : (s.zeroRegs rs).regs = Regs.ofFn (fun r => if r ∈ rs then 0 else s.regs.get r) := rfl
@[simp] theorem State.zeroRegs_status (s : State) (rs : List Reg) : (s.zeroRegs rs).status = s.status := rfl
@[simp] theorem State.zeroRegs_sym (s : State) (rs : List Reg) : (s.zeroRegs rs).sym = s.sym := rfl
@[simp] theorem State.zeroRegs_pay (s : State) (rs : List Reg) : (s.zeroRegs rs).pay = s.pay := rfl
@[simp] theorem State.zeroRegs_bits (s : State) (rs : List Reg) : (s.zeroRegs rs).bits = s.bits := rfl
@[simp] theorem State.zeroRegs_ft (s : State) (rs : List Reg) : (s.zeroRegs rs).ft = s.ft := rfl
@[simp] theorem State.zeroRegs_cdft (s : State) (rs : List Reg) : (s.zeroRegs rs).cdft = s.cdft := rfl
@[simp] theorem State.zeroRegs_ht (s : State) (rs : List Reg) : (s.zeroRegs rs).ht = s.ht := rfl
@[simp] theorem State.zeroRegs_ct (s : State) (rs : List Reg) : (s.zeroRegs rs).ct = s.ct := rfl
@[simp] theorem State.zeroRegs_inputs (s : State) (rs : List Reg) : (s.zeroRegs rs).inputs = s.inputs := rfl
@[simp] theorem State.zeroRegs_fresh (s : State) (rs : List Reg) : (s.zeroRegs rs).fresh = s.fresh := rfl

/-! forget -/

@[simp] theorem State.forget_cfg (s : State) (rs : List Reg) (ms : List SpaceId) : (s.forget rs ms).cfg = s.cfg := rfl
@[simp] theorem State.forget_regs (s : State) (rs : List Reg) (ms : List SpaceId) : (s.forget rs ms).regs = Regs.ofFn (fun r => if r ∈ rs then Config.freeReg s.fresh (regIndex r) else s.regs.get r) := rfl
@[simp] theorem State.forget_status (s : State) (rs : List Reg) (ms : List SpaceId) : (s.forget rs ms).status = s.status := rfl
@[simp] theorem State.forget_sym (s : State) (rs : List Reg) (ms : List SpaceId) : (s.forget rs ms).sym = s.sym.forgetIf (ms.contains .sym) s.fresh := rfl
@[simp] theorem State.forget_pay (s : State) (rs : List Reg) (ms : List SpaceId) : (s.forget rs ms).pay = s.pay.forgetIf (ms.contains .pay) s.fresh := rfl
@[simp] theorem State.forget_bits (s : State) (rs : List Reg) (ms : List SpaceId) : (s.forget rs ms).bits = s.bits.forgetIf (ms.contains .bits) s.fresh := rfl
@[simp] theorem State.forget_ft (s : State) (rs : List Reg) (ms : List SpaceId) : (s.forget rs ms).ft = s.ft.forgetIf (ms.contains .ft) s.fresh := rfl
@[simp] theorem State.forget_cdft (s : State) (rs : List Reg) (ms : List SpaceId) : (s.forget rs ms).cdft = s.cdft.forgetIf (ms.contains .cdft) s.fresh := rfl
@[simp] theorem State.forget_ht (s : State) (rs : List Reg) (ms : List SpaceId) : (s.forget rs ms).ht = s.ht.forgetIf (ms.contains .ht) s.fresh := rfl
@[simp] theorem State.forget_ct (s : State) (rs : List Reg) (ms : List SpaceId) : (s.forget rs ms).ct = s.ct.forgetIf (ms.contains .ct) s.fresh := rfl
@[simp] theorem State.forget_inputs (s : State) (rs : List Reg) (ms : List SpaceId) : (s.forget rs ms).inputs = s.inputs := rfl
@[simp] theorem State.forget_fresh (s : State) (rs : List Reg) (ms : List SpaceId) : (s.forget rs ms).fresh = s.fresh + 1 := rfl

/-! Reading an element through an update that leaves its memory alone. -/

@[simp] theorem State.putSym_payAt (s : State) (vs : List Byte) : (s.putSym vs).payAt = s.payAt := rfl
@[simp] theorem State.putSym_bitAt (s : State) (vs : List Byte) : (s.putSym vs).bitAt = s.bitAt := rfl
@[simp] theorem State.putSym_ftAt (s : State) (vs : List Byte) : (s.putSym vs).ftAt = s.ftAt := rfl
@[simp] theorem State.putSym_cdftAt (s : State) (vs : List Byte) : (s.putSym vs).cdftAt = s.cdftAt := rfl
@[simp] theorem State.putSym_htAt (s : State) (vs : List Byte) : (s.putSym vs).htAt = s.htAt := rfl
@[simp] theorem State.putSym_ctAt (s : State) (vs : List Byte) : (s.putSym vs).ctAt = s.ctAt := rfl
@[simp] theorem State.putSym_ctOf (s : State) (vs : List Byte) : (s.putSym vs).ctOf = s.ctOf := rfl
@[simp] theorem State.putPay_symAt (s : State) (vs : List Byte) : (s.putPay vs).symAt = s.symAt := rfl
@[simp] theorem State.putPay_bitAt (s : State) (vs : List Byte) : (s.putPay vs).bitAt = s.bitAt := rfl
@[simp] theorem State.putPay_ftAt (s : State) (vs : List Byte) : (s.putPay vs).ftAt = s.ftAt := rfl
@[simp] theorem State.putPay_cdftAt (s : State) (vs : List Byte) : (s.putPay vs).cdftAt = s.cdftAt := rfl
@[simp] theorem State.putPay_htAt (s : State) (vs : List Byte) : (s.putPay vs).htAt = s.htAt := rfl
@[simp] theorem State.putPay_ctAt (s : State) (vs : List Byte) : (s.putPay vs).ctAt = s.ctAt := rfl
@[simp] theorem State.putPay_ctOf (s : State) (vs : List Byte) : (s.putPay vs).ctOf = s.ctOf := rfl
@[simp] theorem State.putBits_symAt (s : State) (vs : List Bool) : (s.putBits vs).symAt = s.symAt := rfl
@[simp] theorem State.putBits_payAt (s : State) (vs : List Bool) : (s.putBits vs).payAt = s.payAt := rfl
@[simp] theorem State.putBits_ftAt (s : State) (vs : List Bool) : (s.putBits vs).ftAt = s.ftAt := rfl
@[simp] theorem State.putBits_cdftAt (s : State) (vs : List Bool) : (s.putBits vs).cdftAt = s.cdftAt := rfl
@[simp] theorem State.putBits_htAt (s : State) (vs : List Bool) : (s.putBits vs).htAt = s.htAt := rfl
@[simp] theorem State.putBits_ctAt (s : State) (vs : List Bool) : (s.putBits vs).ctAt = s.ctAt := rfl
@[simp] theorem State.putBits_ctOf (s : State) (vs : List Bool) : (s.putBits vs).ctOf = s.ctOf := rfl
@[simp] theorem State.putFt_symAt (s : State) (vs : List FtEntry) : (s.putFt vs).symAt = s.symAt := rfl
@[simp] theorem State.putFt_payAt (s : State) (vs : List FtEntry) : (s.putFt vs).payAt = s.payAt := rfl
@[simp] theorem State.putFt_bitAt (s : State) (vs : List FtEntry) : (s.putFt vs).bitAt = s.bitAt := rfl
@[simp] theorem State.putFt_cdftAt (s : State) (vs : List FtEntry) : (s.putFt vs).cdftAt = s.cdftAt := rfl
@[simp] theorem State.putFt_htAt (s : State) (vs : List FtEntry) : (s.putFt vs).htAt = s.htAt := rfl
@[simp] theorem State.putFt_ctAt (s : State) (vs : List FtEntry) : (s.putFt vs).ctAt = s.ctAt := rfl
@[simp] theorem State.putFt_ctOf (s : State) (vs : List FtEntry) : (s.putFt vs).ctOf = s.ctOf := rfl
@[simp] theorem State.putCdft_symAt (s : State) (vs : List CdfEntry) : (s.putCdft vs).symAt = s.symAt := rfl
@[simp] theorem State.putCdft_payAt (s : State) (vs : List CdfEntry) : (s.putCdft vs).payAt = s.payAt := rfl
@[simp] theorem State.putCdft_bitAt (s : State) (vs : List CdfEntry) : (s.putCdft vs).bitAt = s.bitAt := rfl
@[simp] theorem State.putCdft_ftAt (s : State) (vs : List CdfEntry) : (s.putCdft vs).ftAt = s.ftAt := rfl
@[simp] theorem State.putCdft_htAt (s : State) (vs : List CdfEntry) : (s.putCdft vs).htAt = s.htAt := rfl
@[simp] theorem State.putCdft_ctAt (s : State) (vs : List CdfEntry) : (s.putCdft vs).ctAt = s.ctAt := rfl
@[simp] theorem State.putCdft_ctOf (s : State) (vs : List CdfEntry) : (s.putCdft vs).ctOf = s.ctOf := rfl
@[simp] theorem State.putHt_symAt (s : State) (vs : List HtNode) : (s.putHt vs).symAt = s.symAt := rfl
@[simp] theorem State.putHt_payAt (s : State) (vs : List HtNode) : (s.putHt vs).payAt = s.payAt := rfl
@[simp] theorem State.putHt_bitAt (s : State) (vs : List HtNode) : (s.putHt vs).bitAt = s.bitAt := rfl
@[simp] theorem State.putHt_ftAt (s : State) (vs : List HtNode) : (s.putHt vs).ftAt = s.ftAt := rfl
@[simp] theorem State.putHt_cdftAt (s : State) (vs : List HtNode) : (s.putHt vs).cdftAt = s.cdftAt := rfl
@[simp] theorem State.putHt_ctAt (s : State) (vs : List HtNode) : (s.putHt vs).ctAt = s.ctAt := rfl
@[simp] theorem State.putHt_ctOf (s : State) (vs : List HtNode) : (s.putHt vs).ctOf = s.ctOf := rfl
@[simp] theorem State.putCt_symAt (s : State) (vs : List CtEntry) : (s.putCt vs).symAt = s.symAt := rfl
@[simp] theorem State.putCt_payAt (s : State) (vs : List CtEntry) : (s.putCt vs).payAt = s.payAt := rfl
@[simp] theorem State.putCt_bitAt (s : State) (vs : List CtEntry) : (s.putCt vs).bitAt = s.bitAt := rfl
@[simp] theorem State.putCt_ftAt (s : State) (vs : List CtEntry) : (s.putCt vs).ftAt = s.ftAt := rfl
@[simp] theorem State.putCt_cdftAt (s : State) (vs : List CtEntry) : (s.putCt vs).cdftAt = s.cdftAt := rfl
@[simp] theorem State.putCt_htAt (s : State) (vs : List CtEntry) : (s.putCt vs).htAt = s.htAt := rfl
@[simp] theorem State.setReg_symAt (s : State) (r : Reg) (v : Word) : (s.setReg r v).symAt = s.symAt := rfl
@[simp] theorem State.setReg_payAt (s : State) (r : Reg) (v : Word) : (s.setReg r v).payAt = s.payAt := rfl
@[simp] theorem State.setReg_bitAt (s : State) (r : Reg) (v : Word) : (s.setReg r v).bitAt = s.bitAt := rfl
@[simp] theorem State.setReg_ftAt (s : State) (r : Reg) (v : Word) : (s.setReg r v).ftAt = s.ftAt := rfl
@[simp] theorem State.setReg_cdftAt (s : State) (r : Reg) (v : Word) : (s.setReg r v).cdftAt = s.cdftAt := rfl
@[simp] theorem State.setReg_htAt (s : State) (r : Reg) (v : Word) : (s.setReg r v).htAt = s.htAt := rfl
@[simp] theorem State.setReg_ctAt (s : State) (r : Reg) (v : Word) : (s.setReg r v).ctAt = s.ctAt := rfl
@[simp] theorem State.setReg_ctOf (s : State) (r : Reg) (v : Word) : (s.setReg r v).ctOf = s.ctOf := rfl
@[simp] theorem State.setNat_symAt (s : State) (r : Reg) (v : Nat) : (s.setNat r v).symAt = s.symAt := rfl
@[simp] theorem State.setNat_payAt (s : State) (r : Reg) (v : Nat) : (s.setNat r v).payAt = s.payAt := rfl
@[simp] theorem State.setNat_bitAt (s : State) (r : Reg) (v : Nat) : (s.setNat r v).bitAt = s.bitAt := rfl
@[simp] theorem State.setNat_ftAt (s : State) (r : Reg) (v : Nat) : (s.setNat r v).ftAt = s.ftAt := rfl
@[simp] theorem State.setNat_cdftAt (s : State) (r : Reg) (v : Nat) : (s.setNat r v).cdftAt = s.cdftAt := rfl
@[simp] theorem State.setNat_htAt (s : State) (r : Reg) (v : Nat) : (s.setNat r v).htAt = s.htAt := rfl
@[simp] theorem State.setNat_ctAt (s : State) (r : Reg) (v : Nat) : (s.setNat r v).ctAt = s.ctAt := rfl
@[simp] theorem State.setNat_ctOf (s : State) (r : Reg) (v : Nat) : (s.setNat r v).ctOf = s.ctOf := rfl
@[simp] theorem State.begin_symAt (s : State) (op : BitVec 8) : (s.begin op).symAt = s.symAt := rfl
@[simp] theorem State.begin_payAt (s : State) (op : BitVec 8) : (s.begin op).payAt = s.payAt := rfl
@[simp] theorem State.begin_bitAt (s : State) (op : BitVec 8) : (s.begin op).bitAt = s.bitAt := rfl
@[simp] theorem State.begin_ftAt (s : State) (op : BitVec 8) : (s.begin op).ftAt = s.ftAt := rfl
@[simp] theorem State.begin_cdftAt (s : State) (op : BitVec 8) : (s.begin op).cdftAt = s.cdftAt := rfl
@[simp] theorem State.begin_htAt (s : State) (op : BitVec 8) : (s.begin op).htAt = s.htAt := rfl
@[simp] theorem State.begin_ctAt (s : State) (op : BitVec 8) : (s.begin op).ctAt = s.ctAt := rfl
@[simp] theorem State.begin_ctOf (s : State) (op : BitVec 8) : (s.begin op).ctOf = s.ctOf := rfl
@[simp] theorem State.finish_symAt (s : State) (code : BitVec 8) : (s.finish code).symAt = s.symAt := rfl
@[simp] theorem State.finish_payAt (s : State) (code : BitVec 8) : (s.finish code).payAt = s.payAt := rfl
@[simp] theorem State.finish_bitAt (s : State) (code : BitVec 8) : (s.finish code).bitAt = s.bitAt := rfl
@[simp] theorem State.finish_ftAt (s : State) (code : BitVec 8) : (s.finish code).ftAt = s.ftAt := rfl
@[simp] theorem State.finish_cdftAt (s : State) (code : BitVec 8) : (s.finish code).cdftAt = s.cdftAt := rfl
@[simp] theorem State.finish_htAt (s : State) (code : BitVec 8) : (s.finish code).htAt = s.htAt := rfl
@[simp] theorem State.finish_ctAt (s : State) (code : BitVec 8) : (s.finish code).ctAt = s.ctAt := rfl
@[simp] theorem State.finish_ctOf (s : State) (code : BitVec 8) : (s.finish code).ctOf = s.ctOf := rfl
@[simp] theorem State.zeroRegs_symAt (s : State) (rs : List Reg) : (s.zeroRegs rs).symAt = s.symAt := rfl
@[simp] theorem State.zeroRegs_payAt (s : State) (rs : List Reg) : (s.zeroRegs rs).payAt = s.payAt := rfl
@[simp] theorem State.zeroRegs_bitAt (s : State) (rs : List Reg) : (s.zeroRegs rs).bitAt = s.bitAt := rfl
@[simp] theorem State.zeroRegs_ftAt (s : State) (rs : List Reg) : (s.zeroRegs rs).ftAt = s.ftAt := rfl
@[simp] theorem State.zeroRegs_cdftAt (s : State) (rs : List Reg) : (s.zeroRegs rs).cdftAt = s.cdftAt := rfl
@[simp] theorem State.zeroRegs_htAt (s : State) (rs : List Reg) : (s.zeroRegs rs).htAt = s.htAt := rfl
@[simp] theorem State.zeroRegs_ctAt (s : State) (rs : List Reg) : (s.zeroRegs rs).ctAt = s.ctAt := rfl
@[simp] theorem State.zeroRegs_ctOf (s : State) (rs : List Reg) : (s.zeroRegs rs).ctOf = s.ctOf := rfl

/-! Reading a register through an update. -/

/-- The value a register holds after `v` was written to it: X keeps `XW` bits (R27). -/
def heldBy (c : Config) (r : Reg) (v : Word) : Word :=
  if r = .x then BitVec.ofNat 32 (v.toNat % 2 ^ c.xw) else v

theorem State.reg_eq_heldBy (s : State) (r : Reg) : s.reg r = heldBy s.cfg r (s.regs.get r) := by
  cases r <;> rfl

@[simp] theorem State.setReg_reg (s : State) (r q : Reg) (v : Word) :
    (s.setReg r v).reg q = if q = r then heldBy s.cfg r v else s.reg q := by
  by_cases h : q = r
  · subst h; simp [State.reg_eq_heldBy]
  · simp [State.reg_eq_heldBy, h]

@[simp] theorem State.setNat_reg (s : State) (r q : Reg) (v : Nat) :
    (s.setNat r v).reg q = if q = r then heldBy s.cfg r (BitVec.ofNat 32 v) else s.reg q :=
  State.setReg_reg s r q _

theorem State.setNat_n (s : State) (r q : Reg) (v : Nat) :
    (s.setNat r v).n q = if q = r then (heldBy s.cfg r (BitVec.ofNat 32 v)).toNat else s.n q := by
  simp only [State.n, State.setNat_reg]; split <;> rfl

/-- A number below `2^32` written to a register other than X reads back. -/
theorem heldBy_toNat {c : Config} {r : Reg} {v : Nat} (hr : r ≠ .x) (hv : v < 2 ^ 32) :
    (heldBy c r (BitVec.ofNat 32 v)).toNat = v := by
  simp only [heldBy, hr, if_false, BitVec.toNat_ofNat, Nat.mod_eq_of_lt hv]

/-- A number below `2^XW` written to X reads back (R27, R134). -/
theorem heldBy_x_toNat {c : Config} {v : Nat} (hv : v < 2 ^ c.xw) :
    (heldBy c .x (BitVec.ofNat 32 v)).toNat = v := by
  have hx : (2 : Nat) ^ c.xw ≤ 2 ^ 32 := by
    apply Nat.pow_le_pow_right (by decide)
    simp only [Config.xw, Config.p, Precision.bits]
    cases c.prec <;> decide
  have h32 : v < 2 ^ 32 := lt_of_lt_of_le hv hx
  simp only [heldBy, if_true, BitVec.toNat_ofNat, Nat.mod_eq_of_lt h32, Nat.mod_eq_of_lt hv]

@[simp] theorem State.begin_reg (s : State) (op : BitVec 8) : (s.begin op).reg = s.reg := rfl
@[simp] theorem State.begin_n (s : State) (op : BitVec 8) : (s.begin op).n = s.n := rfl
@[simp] theorem State.finish_reg (s : State) (code : BitVec 8) : (s.finish code).reg = s.reg := rfl
@[simp] theorem State.finish_n (s : State) (code : BitVec 8) : (s.finish code).n = s.n := rfl
@[simp] theorem State.putSym_reg (s : State) (vs : List Byte) : (s.putSym vs).reg = s.reg := rfl
@[simp] theorem State.putSym_n (s : State) (vs : List Byte) : (s.putSym vs).n = s.n := rfl
@[simp] theorem State.putPay_reg (s : State) (vs : List Byte) : (s.putPay vs).reg = s.reg := rfl
@[simp] theorem State.putPay_n (s : State) (vs : List Byte) : (s.putPay vs).n = s.n := rfl
@[simp] theorem State.putBits_reg (s : State) (vs : List Bool) : (s.putBits vs).reg = s.reg := rfl
@[simp] theorem State.putBits_n (s : State) (vs : List Bool) : (s.putBits vs).n = s.n := rfl
@[simp] theorem State.putFt_reg (s : State) (vs : List FtEntry) : (s.putFt vs).reg = s.reg := rfl
@[simp] theorem State.putFt_n (s : State) (vs : List FtEntry) : (s.putFt vs).n = s.n := rfl
@[simp] theorem State.putCdft_reg (s : State) (vs : List CdfEntry) : (s.putCdft vs).reg = s.reg := rfl
@[simp] theorem State.putCdft_n (s : State) (vs : List CdfEntry) : (s.putCdft vs).n = s.n := rfl
@[simp] theorem State.putHt_reg (s : State) (vs : List HtNode) : (s.putHt vs).reg = s.reg := rfl
@[simp] theorem State.putHt_n (s : State) (vs : List HtNode) : (s.putHt vs).n = s.n := rfl
@[simp] theorem State.putCt_reg (s : State) (vs : List CtEntry) : (s.putCt vs).reg = s.reg := rfl
@[simp] theorem State.putCt_n (s : State) (vs : List CtEntry) : (s.putCt vs).n = s.n := rfl

theorem State.zeroRegs_reg (s : State) (rs : List Reg) (r : Reg) :
    (s.zeroRegs rs).reg r = if r ∈ rs then 0 else s.reg r := by
  by_cases h : r ∈ rs
  · cases r <;> simp [State.reg_eq_heldBy, h, heldBy]
  · cases r <;> simp [State.reg_eq_heldBy, h]

theorem State.forget_reg_of_not_mem (s : State) {rs : List Reg} (ms : List SpaceId) {r : Reg} (h : r ∉ rs) :
    (s.forget rs ms).reg r = s.reg r := by
  simp [State.reg_eq_heldBy, h]

/-! The lists of elements depend on the memory alone. -/

theorem State.n_eq (s : State) (r : Reg) : s.n r = (s.reg r).toNat := rfl

theorem State.n_lt (s : State) (r : Reg) : s.n r < 2 ^ 32 := (s.reg r).isLt

@[simp] theorem State.begin_symbols (s : State) (op : BitVec 8) : (s.begin op).symbols = s.symbols := rfl
@[simp] theorem State.begin_payload (s : State) (op : BitVec 8) : (s.begin op).payload = s.payload := rfl
@[simp] theorem State.begin_bitString (s : State) (op : BitVec 8) : (s.begin op).bitString = s.bitString := rfl
@[simp] theorem State.begin_ftTable (s : State) (op : BitVec 8) : (s.begin op).ftTable = s.ftTable := rfl
@[simp] theorem State.begin_cdfTable (s : State) (op : BitVec 8) : (s.begin op).cdfTable = s.cdfTable := rfl

@[simp] theorem State.symbols_length (s : State) (n : Nat) : (s.symbols n).length = n := by simp [State.symbols]
@[simp] theorem State.payload_length (s : State) (n : Nat) : (s.payload n).length = n := by simp [State.payload]
@[simp] theorem State.bitString_length (s : State) (n : Nat) : (s.bitString n).length = n := by simp [State.bitString]
@[simp] theorem State.ftTable_length (s : State) (n : Nat) : (s.ftTable n).length = n := by simp [State.ftTable]
@[simp] theorem State.cdfTable_length (s : State) (n : Nat) : (s.cdfTable n).length = n := by simp [State.cdfTable]

end Sys2Proof.Machine
end

