-- ==== Sys2Proof/Laws/Memory.lean ====
section
/-! SUPPORT. The laws of a memory: a read after a write, a read after a whole memory was written, and that every memory
operation keeps the canonical form. -/

namespace Sys2Proof.Machine

variable {α : Type}

theorem lookup_cons_ite (k j : Nat) (w : α) (cs : List (Nat × α)) :
    ((j, w) :: cs).lookup k = if k = j then some w else cs.lookup k := by
  rw [List.lookup_cons]
  by_cases h : k = j
  · subst h; simp
  · rw [beq_false_of_ne h]; simp [h]

theorem lookup_insertCell_self (i : Nat) (v : α) (cs : List (Nat × α)) : (insertCell i v cs).lookup i = some v := by
  induction cs with
  | nil => simp [insertCell]
  | cons c cs ih =>
    obtain ⟨j, w⟩ := c
    simp only [insertCell]
    split
    · simp
    · split
      · simp
      · next h => rw [lookup_cons_ite, if_neg h, ih]

theorem lookup_insertCell_of_ne {i k : Nat} (h : k ≠ i) (v : α) (cs : List (Nat × α)) :
    (insertCell i v cs).lookup k = cs.lookup k := by
  induction cs with
  | nil => rw [insertCell, lookup_cons_ite, if_neg h]
  | cons c cs ih =>
    obtain ⟨j, w⟩ := c
    simp only [insertCell]
    split
    · rw [lookup_cons_ite, if_neg h]
    · split
      · next hij => subst hij; rw [lookup_cons_ite, lookup_cons_ite, if_neg h, if_neg h]
      · rw [lookup_cons_ite, lookup_cons_ite, ih]

/-- A read after a write: the value written at its index, the old value everywhere else. -/
theorem Memory.read_write (free : Nat → Nat → α) (m : Memory α) (i k : Nat) (v : α) :
    (m.write i v).read free k = if k = i then v else m.read free k := by
  by_cases h : k = i
  · subst h; simp [Memory.read, Memory.get?, Memory.write, lookup_insertCell_self]
  · simp [Memory.read, Memory.get?, Memory.write, lookup_insertCell_of_ne h, h]

theorem lookup_cellsFrom (k i : Nat) (vs : List α) : (cellsFrom k vs).lookup i = if k ≤ i then vs[i - k]? else none := by
  induction vs generalizing k with
  | nil => simp [cellsFrom]
  | cons v vs ih =>
    rw [cellsFrom, lookup_cons_ite, ih]
    by_cases h : i = k
    · subst h; simp
    · rw [if_neg h]
      by_cases hk : k ≤ i
      · have h1 : k + 1 ≤ i := by omega
        have h2 : i - k = (i - (k + 1)) + 1 := by omega
        simp [hk, h1, h2]
      · have h1 : ¬ k + 1 ≤ i := by omega
        simp [hk, h1]

/-- A memory a command has written whole reads as the list it wrote. -/
theorem Memory.read_ofList (free : Nat → Nat → α) (g : Nat) (vs : List α) {i : Nat} (h : i < vs.length) :
    (Memory.ofList g vs).read free i = vs[i] := by
  simp [Memory.read, Memory.get?, Memory.ofList, lookup_cellsFrom, h]

/-- The elements a command wrote, as a list. -/
theorem Memory.map_read_ofList (free : Nat → Nat → α) (g : Nat) (vs : List α) :
    (List.range vs.length).map ((Memory.ofList g vs).read free) = vs := by
  apply List.ext_getElem
  · simp
  · intro i h1 h2
    simp [Memory.read_ofList free g vs h2]

/-! Every memory operation keeps the canonical form. -/

theorem Memory.unknown_wf (size g : Nat) : (Memory.unknown g : Memory α).wf size := by
  simp [Memory.wf, Memory.unknown]

theorem mem_insertCell {i : Nat} {v : α} {cs : List (Nat × α)} {c : Nat × α} (h : c ∈ insertCell i v cs) :
    c = (i, v) ∨ c ∈ cs := by
  induction cs with
  | nil => simpa [insertCell] using h
  | cons d cs ih =>
    obtain ⟨j, w⟩ := d
    simp only [insertCell] at h
    split at h
    · simpa using h
    · split at h
      · rcases List.mem_cons.1 h with h | h
        · exact .inl h
        · exact .inr (List.mem_cons_of_mem _ h)
      · rcases List.mem_cons.1 h with h | h
        · exact .inr (h ▸ List.mem_cons_self)
        · rcases ih h with h | h
          · exact .inl h
          · exact .inr (List.mem_cons_of_mem _ h)

theorem Memory.write_wf {size : Nat} {m : Memory α} (h : m.wf size) {i : Nat} (hi : i < size) (v : α) :
    (m.write i v).wf size := by
  obtain ⟨hp, hb⟩ := h
  refine ⟨?_, ?_⟩
  · simp only [Memory.write]
    revert hp
    generalize m.cells = cs
    intro hp
    induction cs with
    | nil => simp [insertCell]
    | cons c cs ih =>
      obtain ⟨j, w⟩ := c
      rw [List.pairwise_cons] at hp
      simp only [insertCell]
      split
      · next hij =>
        refine List.pairwise_cons.2 ⟨?_, List.pairwise_cons.2 hp⟩
        intro d hd
        rcases List.mem_cons.1 hd with hd | hd
        · subst hd; exact hij
        · exact lt_trans hij (hp.1 d hd)
      · split
        · next hij => subst hij; exact List.pairwise_cons.2 hp
        · next h1 h2 =>
          refine List.pairwise_cons.2 ⟨?_, ih hp.2⟩
          intro d hd
          rcases mem_insertCell hd with hd | hd
          · subst hd; simp only; omega
          · exact hp.1 d hd
  · intro c hc
    rcases mem_insertCell hc with hc | hc
    · subst hc; exact hi
    · exact hb c hc

theorem mem_cellsFrom {k : Nat} {vs : List α} {c : Nat × α} (h : c ∈ cellsFrom k vs) :
    k ≤ c.1 ∧ c.1 < k + vs.length := by
  induction vs generalizing k with
  | nil => simp [cellsFrom] at h
  | cons v vs ih =>
    rcases List.mem_cons.1 h with h | h
    · subst h; simp
    · have := ih h
      simp only [List.length_cons]; omega

theorem Memory.ofList_wf {size g : Nat} {vs : List α} (h : vs.length ≤ size) : (Memory.ofList g vs).wf size := by
  refine ⟨?_, fun c hc => ?_⟩
  · simp only [Memory.ofList]
    generalize 0 = k
    clear h
    induction vs generalizing k with
    | nil => simp [cellsFrom]
    | cons v vs ih =>
      refine List.pairwise_cons.2 ⟨fun c hc => ?_, ih (k + 1)⟩
      have := mem_cellsFrom hc
      simp only; omega
  · have := mem_cellsFrom hc
    omega

theorem Memory.forgetIf_wf {size : Nat} {m : Memory α} (h : m.wf size) (b : Bool) (g : Nat) :
    (m.forgetIf b g).wf size := by
  cases b
  · simpa [Memory.forgetIf] using h
  · simpa [Memory.forgetIf] using Memory.unknown_wf size g

@[simp] theorem Memory.forgetIf_false (m : Memory α) (g : Nat) : m.forgetIf false g = m := rfl
@[simp] theorem Memory.forgetIf_true (m : Memory α) (g : Nat) : m.forgetIf true g = Memory.unknown g := rfl

/-! The element lists after a command wrote a memory. -/

theorem State.putSym_symbols (s : State) (vs : List Byte) : (s.putSym vs).symbols vs.length = vs :=
  Memory.map_read_ofList _ _ _
theorem State.putPay_payload (s : State) (vs : List Byte) : (s.putPay vs).payload vs.length = vs :=
  Memory.map_read_ofList _ _ _
theorem State.putBits_bitString (s : State) (vs : List Bool) : (s.putBits vs).bitString vs.length = vs :=
  Memory.map_read_ofList _ _ _
theorem State.putFt_ftTable (s : State) (vs : List FtEntry) : (s.putFt vs).ftTable vs.length = vs :=
  Memory.map_read_ofList _ _ _
theorem State.putCdft_cdfTable (s : State) (vs : List CdfEntry) : (s.putCdft vs).cdfTable vs.length = vs :=
  Memory.map_read_ofList _ _ _

theorem State.putSym_symAt (s : State) (vs : List Byte) {i : Nat} (h : i < vs.length) : (s.putSym vs).symAt i = vs[i] :=
  Memory.read_ofList _ _ _ h
theorem State.putPay_payAt (s : State) (vs : List Byte) {i : Nat} (h : i < vs.length) : (s.putPay vs).payAt i = vs[i] :=
  Memory.read_ofList _ _ _ h
theorem State.putBits_bitAt (s : State) (vs : List Bool) {i : Nat} (h : i < vs.length) : (s.putBits vs).bitAt i = vs[i] :=
  Memory.read_ofList _ _ _ h
theorem State.putFt_ftAt (s : State) (vs : List FtEntry) {i : Nat} (h : i < vs.length) : (s.putFt vs).ftAt i = vs[i] :=
  Memory.read_ofList _ _ _ h
theorem State.putCdft_cdftAt (s : State) (vs : List CdfEntry) {i : Nat} (h : i < vs.length) :
    (s.putCdft vs).cdftAt i = vs[i] :=
  Memory.read_ofList _ _ _ h
theorem State.putHt_htAt (s : State) (vs : List HtNode) {i : Nat} (h : i < vs.length) : (s.putHt vs).htAt i = vs[i] :=
  Memory.read_ofList _ _ _ h
theorem State.putCt_ctAt (s : State) (vs : List CtEntry) {i : Nat} (h : i < vs.length) : (s.putCt vs).ctAt i = vs[i] :=
  Memory.read_ofList _ _ _ h

end Sys2Proof.Machine
end

