-- ==== Sys2Proof/Laws/Frame.lean ====
section
/-! SUPPORT. What the command frame and error entry do, said once (R106, R212), and the frames of the updates. -/

namespace Sys2Proof.Machine

/-! The command frame. -/

theorem runCommand_done {i : Instr} {body : State → Result State} {s u : State} (h : body (s.begin i.opc) = .done u) :
    runCommand i body s = .next (u.finish 0) := by simp [runCommand, h]

theorem runCommand_raise {i : Instr} {body : State → Result State} {s : State} {k : ErrKind}
    (h : body (s.begin i.opc) = .raise k) : runCommand i body s = .next ((s.begin i.opc).raiseError i k) := by
  simp [runCommand, h]

/-- Everything a framed command can do when it answers a next state. -/
theorem runCommand_cases {i : Instr} {body : State → Result State} {s t : State}
    (h : runCommand i body s = .next t) :
    (∃ u, body (s.begin i.opc) = .done u ∧ t = u.finish 0) ∨
      (∃ k, body (s.begin i.opc) = .raise k ∧ t = (s.begin i.opc).raiseError i k) := by
  unfold runCommand at h
  split at h
  · next u hb => exact .inl ⟨u, hb, by cases h; rfl⟩
  · next k hb => exact .inr ⟨k, hb, by cases h; rfl⟩
  · cases h

@[simp] theorem Result.andThen_done {α β : Type} (a : α) (f : α → Result β) : (Result.done a).andThen f = f a := rfl
@[simp] theorem Result.andThen_raise {α β : Type} (k : ErrKind) (f : α → Result β) :
    (Result.raise k).andThen f = .raise k := rfl
@[simp] theorem Result.andThen_stuck {α β : Type} (g : Fault) (f : α → Result β) :
    (Result.stuck g).andThen f = .stuck g := rfl

theorem Result.andThen_eq_done {α β : Type} {r : Result α} {f : α → Result β} {b : β} :
    r.andThen f = .done b ↔ ∃ a, r = .done a ∧ f a = .done b := by
  cases r <;> simp [Result.andThen]

theorem Result.andThen_eq_raise {α β : Type} {r : Result α} {f : α → Result β} {k : ErrKind} :
    r.andThen f = .raise k ↔ r = .raise k ∨ ∃ a, r = .done a ∧ f a = .raise k := by
  cases r <;> simp [Result.andThen]

theorem Result.andThen_eq_stuck {α β : Type} {r : Result α} {f : α → Result β} {g : Fault} :
    r.andThen f = .stuck g ↔ r = .stuck g ∨ ∃ a, r = .done a ∧ f a = .stuck g := by
  cases r <;> simp [Result.andThen]

/-! `exec` is the frame around each command's body. -/

/-- The body of each command. -/
def bodyOf : Instr → State → Result State
  | .freq => freqBody
  | .cdf => cdfBody
  | .renc => rencBody
  | .rdec => rdecBody
  | .htree => htreeBody
  | .hcode => hcodeBody
  | .henc => hencBody
  | .hdec => hdecBody
  | .bpack => packBits
  | .bunpk => unpackBits

theorem exec_eq (i : Instr) (s : State) : exec i s = runCommand i (bodyOf i) s := by cases i <;> rfl

/-! Frames. -/

theorem Frame.refl (rs : List Reg) (ms : List SpaceId) (s : State) : Frame rs ms s s := ⟨by simp, by simp, rfl, rfl⟩

theorem Frame.trans {rs : List Reg} {ms : List SpaceId} {s t u : State} (h : Frame rs ms s t) (g : Frame rs ms t u) :
    Frame rs ms s u :=
  ⟨fun r hr => (g.1 r hr).trans (h.1 r hr), fun sp hs i => (g.2.1 sp hs i).trans (h.2.1 sp hs i),
    g.2.2.1.trans h.2.2.1, g.2.2.2.trans h.2.2.2⟩

theorem Frame.mono {rs rs' : List Reg} {ms ms' : List SpaceId} {s t : State} (h : Frame rs ms s t)
    (hr : ∀ r ∈ rs, r ∈ rs') (hm : ∀ m ∈ ms, m ∈ ms') : Frame rs' ms' s t :=
  ⟨fun r h' => h.1 r fun c => h' (hr r c), fun sp h' => h.2.1 sp fun c => h' (hm sp c), h.2.2⟩

theorem Frame.setNat {rs : List Reg} {r : Reg} (hr : r ∈ rs) (ms : List SpaceId) (s : State) (v : Nat) :
    Frame rs ms s (s.setNat r v) := by
  refine ⟨fun q hq => ?_, fun sp _ i => by cases sp <;> rfl, rfl, rfl⟩
  have : q ≠ r := fun h => hq (h ▸ hr)
  simp [this]

theorem Frame.begin (rs : List Reg) (ms : List SpaceId) (s : State) (op : BitVec 8) : Frame rs ms s (s.begin op) :=
  ⟨fun _ _ => rfl, fun sp _ i => by cases sp <;> rfl, rfl, rfl⟩

theorem Frame.finish (rs : List Reg) (ms : List SpaceId) (s : State) (code : BitVec 8) :
    Frame rs ms s (s.finish code) :=
  ⟨fun _ _ => rfl, fun sp _ i => by cases sp <;> rfl, rfl, rfl⟩

theorem Frame.putSym (rs : List Reg) {ms : List SpaceId} (h : SpaceId.sym ∈ ms) (s : State) (vs : List Byte) :
    Frame rs ms s (s.putSym vs) :=
  ⟨fun _ _ => rfl, fun sp hs i => by cases sp <;> first | rfl | exact absurd h hs, rfl, rfl⟩

theorem Frame.putPay (rs : List Reg) {ms : List SpaceId} (h : SpaceId.pay ∈ ms) (s : State) (vs : List Byte) :
    Frame rs ms s (s.putPay vs) :=
  ⟨fun _ _ => rfl, fun sp hs i => by cases sp <;> first | rfl | exact absurd h hs, rfl, rfl⟩

theorem Frame.putBits (rs : List Reg) {ms : List SpaceId} (h : SpaceId.bits ∈ ms) (s : State) (vs : List Bool) :
    Frame rs ms s (s.putBits vs) :=
  ⟨fun _ _ => rfl, fun sp hs i => by cases sp <;> first | rfl | exact absurd h hs, rfl, rfl⟩

theorem Frame.putFt (rs : List Reg) {ms : List SpaceId} (h : SpaceId.ft ∈ ms) (s : State) (vs : List FtEntry) :
    Frame rs ms s (s.putFt vs) :=
  ⟨fun _ _ => rfl, fun sp hs i => by cases sp <;> first | rfl | exact absurd h hs, rfl, rfl⟩

theorem Frame.putCdft (rs : List Reg) {ms : List SpaceId} (h : SpaceId.cdft ∈ ms) (s : State) (vs : List CdfEntry) :
    Frame rs ms s (s.putCdft vs) :=
  ⟨fun _ _ => rfl, fun sp hs i => by cases sp <;> first | rfl | exact absurd h hs, rfl, rfl⟩

theorem Frame.putHt (rs : List Reg) {ms : List SpaceId} (h : SpaceId.ht ∈ ms) (s : State) (vs : List HtNode) :
    Frame rs ms s (s.putHt vs) :=
  ⟨fun _ _ => rfl, fun sp hs i => by cases sp <;> first | rfl | exact absurd h hs, rfl, rfl⟩

theorem Frame.putCt (rs : List Reg) {ms : List SpaceId} (h : SpaceId.ct ∈ ms) (s : State) (vs : List CtEntry) :
    Frame rs ms s (s.putCt vs) :=
  ⟨fun _ _ => rfl, fun sp hs i => by cases sp <;> first | rfl | exact absurd h hs, rfl, rfl⟩

theorem Frame.forget (s : State) (rs : List Reg) (ms : List SpaceId) : Frame rs ms s (s.forget rs ms) := by
  refine ⟨fun r hr => s.forget_reg_of_not_mem ms hr, fun sp hs i => ?_, rfl, rfl⟩
  have hc : ms.contains sp = false := by simpa using hs
  cases sp <;>
    simp only [State.elemAt, State.symAt, State.payAt, State.bitAt, State.ftAt, State.cdftAt, State.htAt, State.ctAt,
      State.forget_sym, State.forget_pay, State.forget_bits, State.forget_ft, State.forget_cdft, State.forget_ht,
      State.forget_ct, hc, Memory.forgetIf_false]

theorem Frame.zeroRegs {rs qs : List Reg} (h : ∀ r ∈ qs, r ∈ rs) (ms : List SpaceId) (s : State) :
    Frame rs ms s (s.zeroRegs qs) := by
  refine ⟨fun r hr => ?_, fun sp _ i => by cases sp <;> rfl, rfl, rfl⟩
  rw [State.zeroRegs_reg, if_neg fun c => hr (h r c)]

theorem lengthRegs_subset (i : Instr) : ∀ r ∈ lengthRegs i, r ∈ outRegs i := by
  cases i <;> simp [lengthRegs, outRegs]

/-- Everything error entry does (R212). -/
theorem raiseError_spec (s : State) (i : Instr) (k : ErrKind) :
    ((s.begin i.opc).raiseError i k).status = errStatus i k ∧
      (∀ r ∈ lengthRegs i, ((s.begin i.opc).raiseError i k).reg r = 0) ∧
      Frame (outRegs i) (outSpaces i) s ((s.begin i.opc).raiseError i k) := by
  refine ⟨?_, fun r hr => ?_, ?_⟩
  · cases k <;> rfl
  · simp [State.raiseError, State.zeroRegs_reg, hr]
  · exact ((Frame.begin _ _ s _).trans (Frame.forget _ _ _)).trans
      ((Frame.zeroRegs (lengthRegs_subset i) _ _).trans (Frame.finish _ _ _ _))

/-- A body that raises makes its command end with that error. -/
theorem endsWith_of_raise {i : Instr} {k : ErrKind} {s : State} (h : bodyOf i (s.begin i.opc) = .raise k) :
    EndsWith i k s := by
  refine ⟨(s.begin i.opc).raiseError i k, ?_, raiseError_spec s i k⟩
  rw [exec_eq, runCommand_raise h]

/-- A body that is done makes its command end without error. -/
theorem exec_of_done {i : Instr} {s u : State} (h : bodyOf i (s.begin i.opc) = .done u) :
    exec i s = .next (u.finish 0) := by rw [exec_eq, runCommand_done h]

/-- Everything a command can do when it answers a next state: its body is done, or it raised and R212 applies. -/
theorem exec_cases {i : Instr} {s t : State} (h : exec i s = .next t) :
    (∃ u, bodyOf i (s.begin i.opc) = .done u ∧ t = u.finish 0) ∨
      (∃ k, bodyOf i (s.begin i.opc) = .raise k ∧ t = (s.begin i.opc).raiseError i k) := by
  rw [exec_eq] at h
  exact runCommand_cases h

theorem Frame.andSetNat {rs : List Reg} {ms : List SpaceId} {s t : State} (h : Frame rs ms s t) {r : Reg} (hr : r ∈ rs)
    (v : Nat) : Frame rs ms s (t.setNat r v) :=
  h.trans (Frame.setNat hr _ _ _)

/-- The pack unit writes PAY, PLEN and PAD only (R191). -/
theorem packBits_frame {s u : State} (h : packBits s = .done u) {rs : List Reg} {ms : List SpaceId} (h1 : Reg.plen ∈ rs) (h2 : Reg.pad ∈ rs)
    (h3 : SpaceId.pay ∈ ms) : Frame rs ms s u := by
  unfold packBits at h
  simp only at h
  repeat' split at h
  all_goals cases h
  exact Frame.andSetNat (Frame.andSetNat (Frame.putPay _ h3 _ _) h1 _) h2 _

/-- The unpack unit writes BITS, BLEN and PAD only (R193). -/
theorem unpackBits_frame {s u : State} (h : unpackBits s = .done u) {rs : List Reg} {ms : List SpaceId} (h1 : Reg.blen ∈ rs) (h2 : Reg.pad ∈ rs)
    (h3 : SpaceId.bits ∈ ms) : Frame rs ms s u := by
  unfold unpackBits at h
  simp only at h
  repeat' split at h
  all_goals cases h
  exact Frame.andSetNat (Frame.andSetNat (Frame.putBits _ h3 _ _) h1 _) h2 _

/-- A body writes its outputs only (R65). -/
theorem bodyOf_frame {i : Instr} {s u : State} (h : bodyOf i s = .done u) : Frame (outRegs i) (outSpaces i) s u := by
  cases i <;> simp only [bodyOf] at h
  · unfold freqBody at h
    split at h <;> cases h
    exact Frame.andSetNat (Frame.putFt _ (by simp [outSpaces]) _ _) (by simp [outRegs]) _
  · simp only [cdfBody, Result.andThen_eq_done] at h
    obtain ⟨a, -, b, -, h⟩ := h
    cases h
    exact Frame.andSetNat (Frame.andSetNat (Frame.putCdft _ (by simp [outSpaces]) _ _) (by simp [outRegs]) _) (by simp [outRegs]) _
  · unfold rencBody at h
    repeat' split at h
    · cases h; exact Frame.andSetNat (Frame.setNat (by simp [outRegs]) _ _ _) (by simp [outRegs]) _
    · cases h
    · cases h
    · simp only [Result.andThen_eq_done] at h
      obtain ⟨a, -, h⟩ := h
      split at h <;> cases h
      exact Frame.andSetNat (Frame.andSetNat (Frame.andSetNat (Frame.putPay _ (by simp [outSpaces]) _ _) (by simp [outRegs]) _) (by simp [outRegs]) _) (by simp [outRegs]) _
  · unfold rdecBody at h
    repeat' split at h
    · cases h; exact (Frame.setNat (by simp [outRegs]) _ _ _)
    · cases h
    · cases h
    · cases h
    · simp only [Result.andThen_eq_done] at h
      obtain ⟨a, -, h⟩ := h
      cases h
      exact Frame.andSetNat (Frame.andSetNat (Frame.andSetNat (Frame.putSym _ (by simp [outSpaces]) _ _) (by simp [outRegs]) _) (by simp [outRegs]) _) (by simp [outRegs]) _
  · simp only [htreeBody, Result.andThen_eq_done] at h
    obtain ⟨a, -, h⟩ := h
    split at h <;> cases h
    exact Frame.andSetNat (Frame.andSetNat (Frame.putHt _ (by simp [outSpaces]) _ _) (by simp [outRegs]) _) (by simp [outRegs]) _
  · unfold hcodeBody at h
    repeat' split at h
    all_goals cases h
    all_goals exact (Frame.putCt _ (by simp [outSpaces]) _ _)
  · unfold hencBody at h
    repeat' split at h
    · cases h; exact Frame.andSetNat (Frame.setNat (by simp [outRegs]) _ _ _) (by simp [outRegs]) _
    · cases h
    · simp only [Result.andThen_eq_done] at h
      obtain ⟨a, -, b, hb, h⟩ := h
      cases h
      refine Frame.andSetNat (Frame.trans ?_ (packBits_frame hb (by simp [outRegs]) (by simp [outRegs]) (by simp [outSpaces]))) (by simp [outRegs]) _
      exact Frame.andSetNat (Frame.putBits _ (by simp [outSpaces]) _ _) (by simp [outRegs]) _
  · unfold hdecBody at h
    repeat' split at h
    · cases h; exact (Frame.setNat (by simp [outRegs]) _ _ _)
    · cases h
    · simp only [Result.andThen_eq_done] at h
      obtain ⟨a, ha, b, -, h⟩ := h
      cases h
      refine Frame.andSetNat (Frame.trans ?_ (Frame.putSym _ (by simp [outSpaces]) _ _)) (by simp [outRegs]) _
      exact (unpackBits_frame ha (by simp [outRegs]) (by simp [outRegs]) (by simp [outSpaces]))
  · exact packBits_frame h (by simp [outRegs]) (by simp [outRegs]) (by simp [outSpaces])
  · exact unpackBits_frame h (by simp [outRegs]) (by simp [outRegs]) (by simp [outSpaces])

/-- A body never writes STATUS. -/
theorem bodyOf_status {i : Instr} {s u : State} (h : bodyOf i s = .done u) : u.status = s.status := by
  have pack : ∀ {s u : State}, packBits s = .done u → u.status = s.status := by
    intro s u h
    unfold packBits at h
    simp only at h
    repeat' split at h
    all_goals cases h
    rfl
  have unpack : ∀ {s u : State}, unpackBits s = .done u → u.status = s.status := by
    intro s u h
    unfold unpackBits at h
    simp only at h
    repeat' split at h
    all_goals cases h
    rfl
  cases i <;> simp only [bodyOf] at h
  · unfold freqBody at h
    split at h <;> cases h
    rfl
  · simp only [cdfBody, Result.andThen_eq_done] at h
    obtain ⟨a, -, b, -, h⟩ := h
    cases h; rfl
  · unfold rencBody at h
    repeat' split at h
    · cases h; rfl
    · cases h
    · cases h
    · simp only [Result.andThen_eq_done] at h
      obtain ⟨a, -, h⟩ := h
      split at h <;> cases h
      rfl
  · unfold rdecBody at h
    repeat' split at h
    · cases h; rfl
    · cases h
    · cases h
    · cases h
    · simp only [Result.andThen_eq_done] at h
      obtain ⟨a, -, h⟩ := h
      cases h; rfl
  · simp only [htreeBody, Result.andThen_eq_done] at h
    obtain ⟨a, -, h⟩ := h
    split at h <;> cases h
    rfl
  · unfold hcodeBody at h
    repeat' split at h
    all_goals cases h
    all_goals rfl
  · unfold hencBody at h
    repeat' split at h
    · cases h; rfl
    · cases h
    · simp only [Result.andThen_eq_done] at h
      obtain ⟨a, -, b, hb, h⟩ := h
      cases h
      have := pack hb
      simpa using this
  · unfold hdecBody at h
    repeat' split at h
    · cases h; rfl
    · cases h
    · simp only [Result.andThen_eq_done] at h
      obtain ⟨a, ha, b, -, h⟩ := h
      cases h
      simpa using unpack ha
  · exact pack h
  · exact unpack h

/-- STATUS after a command that ended without error (R37). -/
theorem status_of_done {i : Instr} {s u : State} (h : bodyOf i (s.begin i.opc) = .done u) :
    (u.finish 0).status = okStatus i := by
  have := bodyOf_status h
  simp [this, okStatus, Status.finished, Status.started]

/-- A command that answers a next state ended without error exactly when its body was done. -/
theorem done_of_no_error {i : Instr} {s t : State} (h : exec i s = .next t) (he : t.status.err = false) :
    ∃ u, bodyOf i (s.begin i.opc) = .done u ∧ t = u.finish 0 := by
  rcases exec_cases h with h | ⟨k, -, rfl⟩
  · exact h
  · rw [(raiseError_spec s i k).1] at he
    simp [errStatus] at he

end Sys2Proof.Machine
end

