-- ==== Sys2Proof/Laws/BitPack.lean ====
section
/-! SUPPORT. The laws of the bit-packing and bit-unpacking units (R191, R193, R195). -/

namespace Sys2Proof.Machine

theorem padCount_lt (len : Nat) : padCount len < 8 := Nat.mod_lt _ (by decide)

/-- `k` is the count that reaches a byte boundary (R92). -/
theorem padCount_spec (len : Nat) : (len + padCount len) % 8 = 0 := by
  unfold padCount; omega

/-- The number of packed bytes is the length in bytes, rounded up (R195 c). -/
theorem packed_bytes (len : Nat) : (len + padCount len) / 8 = (len + 7) / 8 := by
  unfold padCount; omega

theorem packed_bits (len : Nat) : 8 * ((len + padCount len) / 8) = len + padCount len := by
  have := padCount_spec len
  omega

theorem packByte_bit (bs : List Bool) (q : Nat) {t : Nat} (ht : t < 8) :
    (packByte bs q).getLsbD (7 - t) = bs.getD (8 * q + t) false := by
  have key : ∀ b0 b1 b2 b3 b4 b5 b6 b7 : Bool,
      let v : Byte := 0 ||| (BitVec.ofNat 8 b0.toNat) <<< 7 ||| (BitVec.ofNat 8 b1.toNat) <<< 6 |||
        (BitVec.ofNat 8 b2.toNat) <<< 5 ||| (BitVec.ofNat 8 b3.toNat) <<< 4 ||| (BitVec.ofNat 8 b4.toNat) <<< 3 |||
        (BitVec.ofNat 8 b5.toNat) <<< 2 ||| (BitVec.ofNat 8 b6.toNat) <<< 1 ||| (BitVec.ofNat 8 b7.toNat) <<< 0
      v.getLsbD 7 = b0 ∧ v.getLsbD 6 = b1 ∧ v.getLsbD 5 = b2 ∧ v.getLsbD 4 = b3 ∧ v.getLsbD 3 = b4 ∧
        v.getLsbD 2 = b5 ∧ v.getLsbD 1 = b6 ∧ v.getLsbD 0 = b7 := by decide
  have h := key (bs.getD (8 * q + 0) false) (bs.getD (8 * q + 1) false) (bs.getD (8 * q + 2) false)
    (bs.getD (8 * q + 3) false) (bs.getD (8 * q + 4) false) (bs.getD (8 * q + 5) false) (bs.getD (8 * q + 6) false)
    (bs.getD (8 * q + 7) false)
  obtain ⟨h0, h1, h2, h3, h4, h5, h6, h7⟩ := h
  have hr : List.range 8 = [0, 1, 2, 3, 4, 5, 6, 7] := rfl
  unfold packByte
  rw [hr]
  simp only [List.foldl_cons, List.foldl_nil]
  interval_cases t
  · exact h0
  · exact h1
  · exact h2
  · exact h3
  · exact h4
  · exact h5
  · exact h6
  · exact h7

/-- The stream bit at `idx` of a packed payload is bit `idx` of what was packed, 0 past its end (R93, R195 a). -/
theorem unpackBit_packed (bs : List Bool) (k : Byte) (nb : Nat) {idx : Nat} (h : idx < 8 * nb) :
    unpackBit (k :: (List.range nb).map (packByte bs)) idx = bs.getD idx false := by
  have hq : idx / 8 < nb := by omega
  have hget : (k :: (List.range nb).map (packByte bs)).getD (1 + idx / 8) 0 = packByte bs (idx / 8) := by
    rw [Nat.add_comm, List.getD_cons_succ, List.getD_eq_getElem?_getD]
    simp [hq]
  rw [unpackBit, hget, packByte_bit bs _ (Nat.mod_lt _ (by decide))]
  congr 1
  omega

/-- Unpacking what was packed gives it back (R195 a). -/
theorem unpack_packed (bs : List Bool) (k : Byte) :
    (List.range bs.length).map
        (unpackBit (k :: (List.range ((bs.length + padCount bs.length) / 8)).map (packByte bs))) = bs := by
  apply List.ext_getElem
  · simp
  · intro i h1 h2
    have := packed_bits bs.length
    rw [List.getElem_map, List.getElem_range, unpackBit_packed bs k _ (by omega)]
    simp [List.getD_eq_getElem?_getD, h2]

/-- The state the pack unit leaves (R191). -/
def packedState (s : State) : State :=
  ((s.putPay (BitVec.ofNat 8 (padCount (s.n .blen)) ::
      (List.range ((s.n .blen + padCount (s.n .blen)) / 8)).map (packByte (s.bitString (s.n .blen))))).setNat
    .plen (1 + (s.n .blen + padCount (s.n .blen)) / 8)).setNat .pad (padCount (s.n .blen))

/-- All that the pack unit can do (R191, R192): it packs, or it raises CapacityError. -/
theorem packBits_eq (s : State) :
    packBits s =
      if s.n .blen ≤ s.cfg.bitsCap.val ∧ 1 + (s.n .blen + 7) / 8 ≤ s.cfg.payCap.val then .done (packedState s)
      else .raise .capacity := by
  have := packed_bytes (s.n .blen)
  unfold packBits
  simp only
  split
  · rw [if_neg (by omega)]
  · split
    · rw [if_neg (by omega)]
    · rw [if_pos (by omega)]
      rfl

/-- The state the unpack unit leaves for a stream of `len` bits (R193). -/
def unpackedState (s : State) : State :=
  ((s.putBits ((List.range (8 * (s.n .plen - 1) - (s.payAt 0).toNat)).map (unpackBit (s.payload (s.n .plen))))).setNat
    .blen (8 * (s.n .plen - 1) - (s.payAt 0).toNat)).setNat .pad (s.payAt 0).toNat

/-- All that the unpack unit can do, in the order of its checks (R193, R194). -/
theorem unpackBits_eq (s : State) :
    unpackBits s =
      if s.cfg.payCap.val < s.n .plen then .raise .capacity
      else if s.n .plen = 0 then .raise .truncatedStream
      else if 7 < (s.payAt 0).toNat ∨ 8 * (s.n .plen - 1) < (s.payAt 0).toNat then .raise .invalidPadding
      else if s.cfg.bitsCap.val < 8 * (s.n .plen - 1) - (s.payAt 0).toNat then .raise .capacity
      else .done (unpackedState s) := by
  unfold unpackBits
  split
  · rfl
  · split
    · rfl
    · by_cases h1 : 7 < (s.payAt 0).toNat
      · simp only [if_pos h1, if_pos (Or.inl h1)]
      · by_cases h2 : 8 * (s.n .plen - 1) < (s.payAt 0).toNat
        · simp only [if_neg h1, if_pos h2, if_pos (Or.inr h2)]
        · have h3 : ¬ (7 < (s.payAt 0).toNat ∨ 8 * (s.n .plen - 1) < (s.payAt 0).toNat) := fun h => h.elim h1 h2
          simp only [if_neg h1, if_neg h2, if_neg h3]
          rfl

theorem getD_payload (s : State) {n j : Nat} (h : j < n) : (s.payload n).getD j 0 = s.payAt j := by
  simp [State.payload, List.getD_eq_getElem?_getD, h]

/-- A stream bit read from the payload list is the stream bit of the payload memory. -/
theorem unpackBit_payload (s : State) {n idx : Nat} (h : idx < 8 * (n - 1)) :
    unpackBit (s.payload n) idx = streamBit s.payAt idx := by
  rw [unpackBit, streamBit, getD_payload s (by omega)]

/-- PLEN and PAD after packing (R191). -/
theorem packedState_n (s : State) (h : 1 + (s.n .blen + 7) / 8 ≤ s.cfg.payCap.val) :
    (packedState s).n .plen = 1 + (s.n .blen + 7) / 8 ∧ (packedState s).n .pad = (8 - s.n .blen % 8) % 8 := by
  have := s.cfg.payCap.isLt
  have hb := packed_bytes (s.n .blen)
  constructor
  · simp [packedState, State.setNat_n]; rw [heldBy_toNat (by simp) (by omega)]; omega
  · simp [packedState, State.setNat_n]; rw [heldBy_toNat (by simp) (by unfold padCount; omega)]; rfl

/-- The header after packing (R191). -/
theorem packedState_header (s : State) : ((packedState s).payAt 0).toNat = (8 - s.n .blen % 8) % 8 := by
  simp [packedState, State.putPay_payAt, padCount]; omega

/-- The packed stream is the bits, then filler bits 0 (R191). -/
theorem packedState_bit (s : State) {idx : Nat} (h : idx < 8 * ((s.n .blen + 7) / 8)) :
    streamBit (packedState s).payAt idx = if idx < s.n .blen then s.bitAt idx else false := by
  have hb := packed_bytes (s.n .blen)
  have key : (packedState s).payload (1 + (s.n .blen + padCount (s.n .blen)) / 8) = BitVec.ofNat 8 (padCount (s.n .blen)) ::
      (List.range ((s.n .blen + padCount (s.n .blen)) / 8)).map (packByte (s.bitString (s.n .blen))) := by
    have := State.putPay_payload s (BitVec.ofNat 8 (padCount (s.n .blen)) ::
      (List.range ((s.n .blen + padCount (s.n .blen)) / 8)).map (packByte (s.bitString (s.n .blen))))
    rw [List.length_cons, List.length_map, List.length_range, Nat.add_comm _ 1] at this
    exact this
  rw [← unpackBit_payload (n := 1 + (s.n .blen + padCount (s.n .blen)) / 8) _ (by omega), key, unpackBit_packed _ _ _ (by omega)]
  split
  · simp [State.bitString, List.getD_eq_getElem?_getD, *]
  · simp [State.bitString, List.getD_eq_getElem?_getD, *]

/-- BLEN, PAD and the bits after unpacking (R193). -/
theorem unpackedState_spec (s : State) (h1 : 1 ≤ s.n .plen)
    (hc : 8 * (s.n .plen - 1) - (s.payAt 0).toNat ≤ s.cfg.bitsCap.val) :
    (unpackedState s).n .blen = 8 * (s.n .plen - 1) - (s.payAt 0).toNat ∧ (unpackedState s).n .pad = (s.payAt 0).toNat ∧
    ∀ idx < 8 * (s.n .plen - 1) - (s.payAt 0).toNat, (unpackedState s).bitAt idx = streamBit s.payAt idx := by
  have := s.cfg.bitsCap.isLt
  have := (s.payAt 0).isLt
  refine ⟨?_, ?_, ?_⟩
  · simp only [unpackedState, State.setNat_n]; rw [if_neg (by simp), if_pos True.intro, heldBy_toNat (by simp) (by omega)]
  · simp only [unpackedState, State.setNat_n]; rw [if_pos True.intro, heldBy_toNat (by simp) (by omega)]
  · intro idx h
    simp only [unpackedState, State.setNat_bitAt]
    rw [State.putBits_bitAt _ _ (by simpa using h)]
    simp
    rw [unpackBit_payload _ (by omega)]

/-- When every check passes the unpack unit ends without error (R193). -/
theorem unpackBits_of_ok (s : State) (h1 : 1 ≤ s.n .plen) (h2 : s.n .plen ≤ s.cfg.payCap.val)
    (h3 : (s.payAt 0).toNat ≤ 7) (h4 : (s.payAt 0).toNat ≤ 8 * (s.n .plen - 1))
    (h5 : 8 * (s.n .plen - 1) - (s.payAt 0).toNat ≤ s.cfg.bitsCap.val) : unpackBits s = .done (unpackedState s) := by
  rw [unpackBits_eq, if_neg (by omega), if_neg (by omega), if_neg (by omega), if_neg (by omega)]

end Sys2Proof.Machine
end

