-- ==== Sys2Proof/Laws/Frequency.lean ====
section
/-! SUPPORT. The laws of a histogram (R113) and of an accumulated distribution (R115), as facts about lists, and
`ValidateFT` as the predicate `FtOk`. -/

namespace Sys2Proof.Machine

/-! ## The histogram -/

theorem toNat_one_word : (1 : Word).toNat = 1 := rfl

theorem countSymbol_syms (b : Byte) (t : List FtEntry) :
    (countSymbol b t).map (·.sym) = if b ∈ t.map (·.sym) then t.map (·.sym) else t.map (·.sym) ++ [b] := by
  induction t with
  | nil => simp [countSymbol]
  | cons e es ih =>
    rw [countSymbol]
    split
    · next h => simp [h]
    · next h =>
      have h' : ¬ b = e.sym := fun c => h c.symm
      rw [List.map_cons, ih, List.map_cons]
      by_cases hb : b ∈ es.map (·.sym)
      · rw [if_pos hb, if_pos (List.mem_cons_of_mem _ hb)]
      · rw [if_neg hb, if_neg (by simp only [List.mem_cons, not_or]; exact ⟨h', hb⟩)]
        rfl

theorem countSymbol_length_pos (b : Byte) (t : List FtEntry) : 0 < (countSymbol b t).length := by
  cases t with
  | nil => simp [countSymbol]
  | cons e es => rw [countSymbol]; split <;> simp

theorem mem_countSymbol {b : Byte} {t : List FtEntry} (hn : (t.map (·.sym)).Nodup) {e : FtEntry}
    (h : e ∈ countSymbol b t) :
    (e ∈ t ∧ e.sym ≠ b) ∨ (∃ e0 ∈ t, e0.sym = b ∧ e = ⟨b, e0.count + 1⟩) ∨ (b ∉ t.map (·.sym) ∧ e = ⟨b, 1⟩) := by
  induction t with
  | nil => exact .inr (.inr ⟨by simp, by simpa [countSymbol] using h⟩)
  | cons d ds ih =>
    rw [countSymbol] at h
    rw [List.map_cons, List.nodup_cons] at hn
    split at h
    · next hd =>
      rcases List.mem_cons.1 h with h | h
      · exact .inr (.inl ⟨d, List.mem_cons_self, hd, by rw [h, hd]⟩)
      · refine .inl ⟨List.mem_cons_of_mem _ h, fun c => hn.1 ?_⟩
        rw [hd, ← c]
        exact List.mem_map_of_mem h
    · next hd =>
      rcases List.mem_cons.1 h with h | h
      · exact .inl ⟨h ▸ List.mem_cons_self, h ▸ hd⟩
      · rcases ih hn.2 h with h | ⟨e0, h0, h1, h2⟩ | ⟨h0, h1⟩
        · exact .inl ⟨List.mem_cons_of_mem _ h.1, h.2⟩
        · exact .inr (.inl ⟨e0, List.mem_cons_of_mem _ h0, h1, h2⟩)
        · refine .inr (.inr ⟨?_, h1⟩)
          simp only [List.map_cons, List.mem_cons, not_or]
          exact ⟨fun c => hd c.symm, h0⟩

theorem histogram_append (l : List Byte) (b : Byte) : histogram (l ++ [b]) = countSymbol b (histogram l) := by
  simp [histogram, List.foldl_append]

/-- The laws (a) to (d) of a table built by FREQ (R113), for a buffer shorter than `2^32`. -/
structure HistogramLaws (l : List Byte) (t : List FtEntry) : Prop where
  nodup : (t.map (·.sym)).Nodup
  mem : ∀ b, b ∈ t.map (·.sym) ↔ b ∈ l
  count : ∀ e ∈ t, e.count.toNat = l.count e.sym
  order : (t.map (·.sym)).Pairwise (fun a b => l.idxOf a < l.idxOf b)

theorem histogram_laws (l : List Byte) (hl : l.length < 2 ^ 32) : HistogramLaws l (histogram l) := by
  induction l using List.reverseRecOn with
  | nil => exact ⟨by simp [histogram], by simp [histogram], by simp [histogram], by simp [histogram]⟩
  | append_singleton l b ih =>
    have hlen : l.length + 1 < 2 ^ 32 := by simpa using hl
    obtain ⟨hn, hm, hc, ho⟩ := ih (by omega)
    rw [histogram_append]
    have hs := countSymbol_syms b (histogram l)
    have key : ∀ a ∈ l, (l ++ [b]).idxOf a = l.idxOf a := fun a ha => List.idxOf_append_of_mem ha
    have hold : ((histogram l).map (·.sym)).Pairwise (fun a c => (l ++ [b]).idxOf a < (l ++ [b]).idxOf c) := by
      refine List.Pairwise.imp_of_mem ?_ ho
      intro x y hx hy h
      rwa [key x ((hm x).1 hx), key y ((hm y).1 hy)]
    refine ⟨?_, ?_, ?_, ?_⟩
    · rw [hs]
      split
      · exact hn
      · next hb => exact List.nodup_append.2 ⟨hn, by simp, by intro a ha c hc; rintro rfl; simp_all⟩
    · intro a
      rw [hs]
      split
      · next hb =>
        have := (hm b).1 hb
        rw [hm a, List.mem_append, List.mem_singleton]
        exact ⟨.inl, fun h => h.elim id fun h => h ▸ this⟩
      · rw [List.mem_append, hm a, List.mem_append]
    · intro e he
      rcases mem_countSymbol hn he with ⟨h1, h2⟩ | ⟨e0, h0, h1, rfl⟩ | ⟨h0, rfl⟩
      · rw [hc e h1, List.count_append]
        simp [Ne.symm h2]
      · have hc0 := hc e0 h0
        have : l.count e0.sym ≤ l.length := List.count_le_length
        have hlt : (e0.count.toNat + 1) % 2 ^ 32 = e0.count.toNat + 1 := Nat.mod_eq_of_lt (by omega)
        simp only [BitVec.toNat_add, toNat_one_word, List.count_append]
        subst h1
        simp only [List.count_singleton_self]
        omega
      · rw [hm b] at h0
        simp [List.count_append, List.count_eq_zero_of_not_mem h0]
    · rw [hs]
      split
      · exact hold
      · next hb =>
        refine List.pairwise_append.2 ⟨hold, by simp, ?_⟩
        intro a ha c hc
        rw [List.mem_singleton] at hc
        subst hc
        have ha' := (hm a).1 ha
        have hb' : c ∉ l := fun h => hb ((hm c).2 h)
        rw [key a ha', List.idxOf_append_of_notMem hb']
        simp only [List.idxOf_cons_self]
        have := List.idxOf_lt_length_of_mem ha'
        omega

/-- A list of different bytes has at most 256 elements. -/
theorem length_le_of_nodup_bytes {l : List Byte} (h : l.Nodup) : l.length ≤ 256 := by
  have h1 : (l.map (·.toNat)).Nodup := h.map (fun a b hab => BitVec.eq_of_toNat_eq hab)
  have h2 : (l.map (·.toNat)) ⊆ List.range 256 := by
    intro n hn
    obtain ⟨b, -, rfl⟩ := List.mem_map.1 hn
    exact List.mem_range.2 b.isLt
  have := (h1.subperm h2).length_le
  simpa using this

theorem histogram_length_le (l : List Byte) (hl : l.length < 2 ^ 32) : (histogram l).length ≤ 256 := by
  simpa using length_le_of_nodup_bytes (histogram_laws l hl).nodup

theorem histogram_length_le_length (l : List Byte) : (histogram l).length ≤ l.length := by
  induction l using List.reverseRecOn with
  | nil => simp [histogram]
  | append_singleton l b ih =>
    rw [histogram_append]
    have := congrArg List.length (countSymbol_syms b (histogram l))
    split at this <;> simp at this <;> simp <;> omega

theorem histogram_count_pos (l : List Byte) (hl : l.length < 2 ^ 32) {e : FtEntry} (he : e ∈ histogram l) :
    0 < e.count.toNat := by
  have h := histogram_laws l hl
  rw [h.count e he]
  exact List.count_pos_iff.2 ((h.mem e.sym).1 (List.mem_map_of_mem he))

theorem countSum_countSymbol {b : Byte} {t : List FtEntry} (h : ∀ e ∈ t, e.count.toNat + 1 < 2 ^ 32) :
    countSum (countSymbol b t) = countSum t + 1 := by
  induction t with
  | nil => simp [countSymbol, countSum]
  | cons e es ih =>
    rw [countSymbol]
    split
    · have := h e List.mem_cons_self
      simp only [countSum, List.map_cons, List.sum_cons, BitVec.toNat_add, toNat_one_word]
      omega
    · have := ih fun d hd => h d (List.mem_cons_of_mem _ hd)
      simp only [countSum, List.map_cons, List.sum_cons] at this ⊢
      omega

/-- "sum of counts == length of input" (R113 a). -/
theorem countSum_histogram (l : List Byte) (hl : l.length < 2 ^ 32) : countSum (histogram l) = l.length := by
  induction l using List.reverseRecOn with
  | nil => simp [histogram, countSum]
  | append_singleton l b ih =>
    have hlen : l.length + 1 < 2 ^ 32 := by simpa using hl
    rw [histogram_append, countSum_countSymbol, ih (by omega)]
    · simp
    · intro e he
      rw [(histogram_laws l (by omega)).count e he]
      have : l.count e.sym ≤ l.length := List.count_le_length
      omega

/-! ## ValidateFT -/

theorem ftValid_iff (t : List FtEntry) :
    ftValid t = true ↔ (∀ e ∈ t, e.count ≠ 0) ∧ (t.map (·.sym)).Nodup := by
  simp [ftValid]

/-- `ValidateFT` gives the table exactly when it is valid (R111). -/
theorem validateFt_eq_done {s : State} {t : List FtEntry} :
    validateFt s = .done t ↔ s.n .ftlen ≤ 256 ∧ t = s.ftTable (s.n .ftlen) ∧ ftValid t = true := by
  unfold validateFt
  split
  · next h => simp; omega
  · next h =>
    simp only
    split
    · next hv =>
      simp only [Result.done.injEq]
      exact ⟨fun e => ⟨by omega, e.symm, e ▸ hv⟩, fun e => e.2.1.symm⟩
    · next hv =>
      simp only [reduceCtorEq, false_iff, not_and]
      rintro - rfl
      exact hv

/-- Otherwise it raises ModelInvariantError (R111). -/
theorem validateFt_cases (s : State) :
    validateFt s = .raise .modelInvariant ∨ validateFt s = .done (s.ftTable (s.n .ftlen)) := by
  unfold validateFt
  split
  · exact .inl rfl
  · simp only
    split
    · exact .inr rfl
    · exact .inl rfl

theorem ftOk_iff (s : State) :
    FtOk (s.n .ftlen) s.ftAt ↔ s.n .ftlen ≤ 256 ∧ ftValid (s.ftTable (s.n .ftlen)) = true := by
  rw [ftValid_iff, FtOk]
  refine and_congr_right fun _ => and_congr ?_ ?_
  · simp [State.ftTable]
  · simp only [State.ftTable, List.map_map, List.Nodup, List.pairwise_map]
    rw [List.pairwise_iff_getElem]
    simp only [List.length_range, List.getElem_range, Function.comp_apply]
    exact ⟨fun h i j hi hj hij => h j hj i hij, fun h k hk j hj => h j k (by omega) hk hj⟩

theorem validateFt_of_ok {s : State} (h : FtOk (s.n .ftlen) s.ftAt) :
    validateFt s = .done (s.ftTable (s.n .ftlen)) := by
  obtain ⟨h1, h2⟩ := (ftOk_iff s).1 h
  exact validateFt_eq_done.2 ⟨h1, rfl, h2⟩

theorem validateFt_of_not_ok {s : State} (h : ¬ FtOk (s.n .ftlen) s.ftAt) :
    validateFt s = .raise .modelInvariant := by
  rcases validateFt_cases s with h' | h'
  · exact h'
  · obtain ⟨h1, -, h2⟩ := validateFt_eq_done.1 h'
    exact absurd ((ftOk_iff s).2 ⟨h1, h2⟩) h

theorem countSum_ftTable (s : State) (n : Nat) : countSum (s.ftTable n) = countBelow s.ftAt n := by
  simp [countSum, State.ftTable, countBelow, Function.comp_def]

/-! ## The accumulation -/

/-- The entries of CDFT over a table, from a running total `low` on. -/
def cdfEntries (low : Nat) : List FtEntry → List CdfEntry
  | [] => []
  | e :: es => ⟨e.sym, BitVec.ofNat 32 low, e.count⟩ :: cdfEntries (low + e.count.toNat) es

@[simp] theorem cdfEntries_length (low : Nat) (t : List FtEntry) : (cdfEntries low t).length = t.length := by
  induction t generalizing low with
  | nil => rfl
  | cons e es ih => simp [cdfEntries, ih]

/-- CDF's walk in closed form: the entries when the total is at most `base`, else ModelInvariantError (R114). -/
theorem accumulate_eq (base low : Nat) (t : List FtEntry) (h : low ≤ base) :
    accumulate base low t =
      if low + countSum t ≤ base then .done (cdfEntries low t, low + countSum t) else .raise .modelInvariant := by
  induction t generalizing low with
  | nil => simp [accumulate, cdfEntries, countSum, h]
  | cons e es ih =>
    rw [accumulate]
    have hsum : countSum (e :: es) = e.count.toNat + countSum es := by simp [countSum]
    split
    · rw [if_neg (by omega)]
    · rw [ih _ (by omega), hsum]
      by_cases hc : low + e.count.toNat + countSum es ≤ base
      · rw [if_pos hc, if_pos (by omega)]
        simp [cdfEntries, Nat.add_assoc]
      · rw [if_neg hc, if_neg (by omega)]
        rfl

/-- Entry `j` of the distribution (R114): the symbol and count of entry `j`, and the sum of the counts before it. -/
theorem cdfEntries_getElem (low : Nat) (t : List FtEntry) (j : Nat) (h : j < t.length) :
    (cdfEntries low t)[j]'(by simpa using h) = ⟨t[j].sym, BitVec.ofNat 32 (low + countSum (t.take j)), t[j].count⟩ := by
  induction t generalizing low j with
  | nil => simp at h
  | cons e es ih =>
    cases j with
    | zero => simp [cdfEntries, countSum]
    | succ j =>
      simp only [cdfEntries, List.getElem_cons_succ, List.take_succ_cons]
      rw [ih _ _ (by simpa using h)]
      simp [countSum, Nat.add_assoc]

end Sys2Proof.Machine
end

