-- ==== Sys2Proof/Laws/HuffmanCode.lean ====
section
/-! SUPPORT. The laws of code-table entries (R86), of HENC's concatenation (R167), of MatchCode (R169) and of HDEC's
loop on a prefix-free table (R170, R172). -/

namespace Sys2Proof.Machine

/-! ## Code-table entries -/

theorem bitsValue_append (p : List Bool) (b : Bool) : bitsValue (p ++ [b]) = 2 * bitsValue p + b.toNat := by
  simp [bitsValue, List.foldl_append]

theorem bitsValue_lt (p : List Bool) : bitsValue p < 2 ^ p.length := by
  induction p using List.reverseRecOn with
  | nil => simp [bitsValue]
  | append_singleton p b ih =>
    rw [bitsValue_append, List.length_append, List.length_singleton, pow_succ]
    cases b <;> simp <;> omega

theorem bitsValue_testBit (p : List Bool) {i : Nat} (h : i < p.length) :
    (bitsValue p).testBit (p.length - 1 - i) = p[i] := by
  induction p using List.reverseRecOn with
  | nil => simp at h
  | append_singleton p b ih =>
    rw [bitsValue_append]
    simp only [List.length_append, List.length_singleton] at h ⊢
    by_cases hi : i = p.length
    · subst hi
      simp only [Nat.add_sub_cancel, Nat.sub_self]
      cases b <;> simp [Nat.testBit_zero]
    · have hlt : i < p.length := by omega
      have he : p.length + 1 - 1 - i = (p.length - 1 - i) + 1 := by omega
      rw [he, Nat.testBit_succ, List.getElem_append_left hlt, ← ih hlt]
      congr 1
      cases b
      · simp
      · simp; omega

@[simp] theorem codeword_length (e : CtEntry) : (codeword e).length = e.len.toNat := by simp [codeword]

theorem ctOfPath_len {p : List Bool} (h : p.length ≤ 255) : (ctOfPath p).len.toNat = p.length := by
  simp [ctOfPath]; omega

/-- The bits of the entry HCODE writes for a codeword: `code[j]` at bit `254 - j`, 0 past the codeword (R86). -/
theorem ctOfPath_bit {p : List Bool} (h : p.length ≤ 255) {j : Nat} (hj : j < 255) :
    (ctOfPath p).code.getLsbD (254 - j) = p.getD j false := by
  have hlt : bitsValue p * 2 ^ (255 - p.length) < 2 ^ 255 := by
    have h1 := bitsValue_lt p
    calc bitsValue p * 2 ^ (255 - p.length) < 2 ^ p.length * 2 ^ (255 - p.length) :=
          Nat.mul_lt_mul_of_pos_right h1 (Nat.pow_pos (by decide))
      _ = 2 ^ 255 := by rw [← pow_add]; congr 1; omega
  have h254 : 254 - j < 255 := by omega
  rw [ctOfPath, BitVec.getLsbD_ofNat]
  simp only [h254, decide_true, Bool.true_and]
  rw [Nat.testBit_mul_two_pow]
  by_cases hp : j < p.length
  · have h1 : 255 - p.length ≤ 254 - j := by omega
    have h2 : 254 - j - (255 - p.length) = p.length - 1 - j := by omega
    simp only [h1, decide_true, Bool.true_and, h2]
    rw [bitsValue_testBit p hp]
    simp [List.getD_eq_getElem?_getD, hp]
  · have h1 : ¬ 255 - p.length ≤ 254 - j := by omega
    simp only [h1, decide_false, Bool.false_and]
    simp [List.getD_eq_getElem?_getD, List.getElem?_eq_none (by omega : p.length ≤ j)]

/-- The codeword of the entry HCODE writes for a path is the path (R86, R164). -/
theorem codeword_ctOfPath {p : List Bool} (h : p.length ≤ 255) : codeword (ctOfPath p) = p := by
  apply List.ext_getElem
  · rw [codeword_length, ctOfPath_len h]
  · intro j h1 h2
    simp only [codeword, List.getElem_map, List.getElem_range]
    rw [ctOfPath_bit h (by omega)]
    simp [List.getD_eq_getElem?_getD, h2]

theorem len_ne_zero_iff (e : CtEntry) : e.len ≠ 0 ↔ codeword e ≠ [] := by
  rw [← List.length_pos_iff, codeword_length]
  constructor
  · intro h
    have : e.len.toNat ≠ 0 := fun c => h (BitVec.eq_of_toNat_eq (by simpa using c))
    omega
  · intro h c
    rw [c] at h
    simp at h

/-! ## HENC's loop -/

/-- The sum of the code lengths of a buffer. -/
def codeBits (ct : Byte → CtEntry) (bs : List Byte) : Nat := (bs.map fun b => (ct b).len.toNat).sum

theorem concat_length (ct : Byte → CtEntry) (bs : List Byte) :
    (bs.flatMap fun b => codeword (ct b)).length = codeBits ct bs := by
  simp [codeBits, List.length_flatMap]

/-- All that HENC's loop can do (R167): the concatenation, or the first error met. -/
theorem concatCodes_of_ok {cap : Nat} {ct : Byte → CtEntry} :
    ∀ {bs : List Byte} {len : Nat}, (∀ b ∈ bs, (ct b).len ≠ 0) → len + codeBits ct bs ≤ cap →
      concatCodes cap ct len bs = .done (bs.flatMap fun b => codeword (ct b)) := by
  intro bs
  induction bs with
  | nil => intro len _ _; simp [concatCodes]
  | cons b bs ih =>
    intro len h1 h2
    have hb := h1 b List.mem_cons_self
    have hs : codeBits ct (b :: bs) = (ct b).len.toNat + codeBits ct bs := by simp [codeBits]
    rw [concatCodes, if_neg hb, if_neg (by omega), ih (fun c hc => h1 c (List.mem_cons_of_mem _ hc)) (by omega)]
    simp

theorem concatCodes_done {cap : Nat} {ct : Byte → CtEntry} :
    ∀ {bs : List Byte} {len : Nat} {r : List Bool}, concatCodes cap ct len bs = .done r →
      (∀ b ∈ bs, (ct b).len ≠ 0) ∧ len + codeBits ct bs ≤ max cap len ∧ r = bs.flatMap fun b => codeword (ct b) := by
  intro bs
  induction bs with
  | nil => intro len r h; simp only [concatCodes, Result.done.injEq] at h; subst h; simp [codeBits]
  | cons b bs ih =>
    intro len r h
    rw [concatCodes] at h
    split at h
    · cases h
    · next hb =>
      split at h
      · cases h
      · next hc =>
        rw [Result.andThen_eq_done] at h
        obtain ⟨r', h1, h2⟩ := h
        obtain ⟨g1, g2, rfl⟩ := ih h1
        have hs : codeBits ct (b :: bs) = (ct b).len.toNat + codeBits ct bs := by simp [codeBits]
        refine ⟨?_, ?_, ?_⟩
        · intro c hc'
          rcases List.mem_cons.1 hc' with rfl | hc'
          · exact hb
          · exact g1 c hc'
        · omega
        · simp only [Result.done.injEq] at h2
          simp [← h2]

/-- HENC's loop ends with the error of the first symbol that has one: no codeword, or no room for its codeword (R167,
R210). -/
theorem concatCodes_split {cap : Nat} {ct : Byte → CtEntry} (as : List Byte) (b : Byte) (bs : List Byte) (len : Nat)
    (h1 : ∀ a ∈ as, (ct a).len ≠ 0) (h2 : len + codeBits ct as ≤ cap) :
    ((ct b).len = 0 → concatCodes cap ct len (as ++ b :: bs) = .raise .modelInvariant) ∧
      ((ct b).len ≠ 0 → cap < len + codeBits ct as + (ct b).len.toNat →
        concatCodes cap ct len (as ++ b :: bs) = .raise .capacity) := by
  induction as generalizing len with
  | nil =>
    simp only [List.nil_append, codeBits, List.map_nil, List.sum_nil, Nat.add_zero]
    exact ⟨fun h => by rw [concatCodes, if_pos h], fun h g => by rw [concatCodes, if_neg h, if_pos g]⟩
  | cons a as ih =>
    have ha := h1 a List.mem_cons_self
    have hs : codeBits ct (a :: as) = (ct a).len.toNat + codeBits ct as := by simp [codeBits]
    have := ih (len + (ct a).len.toNat) (fun c hc => h1 c (List.mem_cons_of_mem _ hc)) (by omega)
    rw [List.cons_append, concatCodes, if_neg ha, if_neg (by omega)]
    refine ⟨fun h => ?_, fun h g => ?_⟩
    · rw [this.1 h, Result.andThen_raise]
    · rw [this.2 h (by omega), Result.andThen_raise]

/-! ## MatchCode -/

theorem mem_allBytes (b : Byte) : b ∈ (List.range 256).map (BitVec.ofNat 8) := by
  rw [List.mem_map]
  exact ⟨b.toNat, List.mem_range.2 b.isLt, by simp⟩

theorem matchCode_some {ct : Byte → CtEntry} {acc : List Bool} {s : Byte} (h : matchCode ct acc = some s) :
    codeword (ct s) = acc := by
  have := List.find?_some h
  simp only [Bool.and_eq_true, beq_iff_eq] at this
  exact this.2

theorem matchCode_none_iff {ct : Byte → CtEntry} {acc : List Bool} :
    matchCode ct acc = none ↔ ∀ s, codeword (ct s) ≠ acc := by
  rw [matchCode, List.find?_eq_none]
  simp only [Bool.and_eq_true, beq_iff_eq, not_and]
  constructor
  · intro h s hs
    exact h s (mem_allBytes s) (by rw [← codeword_length, hs]) hs
  · intro h s _ _ hs
    exact h s hs

/-- On a prefix-free table a codeword matches its own symbol (R169). -/
theorem matchCode_codeword {ct : Byte → CtEntry} (hp : PrefixFree ct) {c : Byte} (hc : (ct c).len ≠ 0) :
    matchCode ct (codeword (ct c)) = some c := by
  cases h : matchCode ct (codeword (ct c)) with
  | none => exact absurd rfl (matchCode_none_iff.1 h c)
  | some s =>
    have hs := matchCode_some h
    by_contra hne
    have hsc : s ≠ c := fun e => hne (by rw [e])
    have : (ct s).len ≠ 0 := by
      rw [len_ne_zero_iff, hs, ← len_ne_zero_iff]; exact hc
    exact hp s c hsc this hc (hs ▸ List.prefix_refl _)

/-- No proper prefix of a codeword matches (R172). -/
theorem matchCode_proper_prefix {ct : Byte → CtEntry} (hp : PrefixFree ct) {c : Byte} (hc : (ct c).len ≠ 0)
    {acc rest : List Bool} (h : codeword (ct c) = acc ++ rest) (hacc : acc ≠ []) (hrest : rest ≠ []) :
    matchCode ct acc = none := by
  rw [matchCode_none_iff]
  intro s hs
  have hs0 : (ct s).len ≠ 0 := by rw [len_ne_zero_iff, hs]; exact hacc
  by_cases hsc : s = c
  · subst hsc
    rw [hs] at h
    have := congrArg List.length h
    rw [List.length_append] at this
    have : 0 < rest.length := List.length_pos_iff.2 hrest
    omega
  · exact hp s c hsc hs0 hc (by rw [hs, h]; exact List.prefix_append _ _)

/-! ## HDEC's loop -/

/-- On a prefix-free table a codeword is what the decoder cuts off first (R172). -/
theorem firstMatch_codeword {ct : Byte → CtEntry} (hp : PrefixFree ct) {c : Byte} (hc : (ct c).len ≠ 0) :
    FirstMatch ct (codeword (ct c)) c := by
  refine ⟨(len_ne_zero_iff _).1 hc, matchCode_codeword hp hc, ?_⟩
  rintro q hq ⟨rest, h⟩ hne
  refine matchCode_proper_prefix hp hc h.symm hq ?_
  rintro rfl
  exact hne (by simpa using h)

/-- The decoder's loop over what is left of one piece, on any table (R170). -/
theorem decodeBits_firstMatch {ct : Byte → CtEntry} {p : List Bool} {c : Byte} (hp : FirstMatch ct p c) (n : Nat)
    (bs : List Bool) (out : List Byte) :
    ∀ (rest acc : List Bool), p = acc ++ rest → rest ≠ [] →
      decodeBits ct n (rest ++ bs) acc out =
        if out.length = n then .raise .lengthMismatch else decodeBits ct n bs [] (out ++ [c]) := by
  intro rest
  induction rest with
  | nil => intro acc _ h; exact absurd rfl h
  | cons b rest ih =>
    intro acc h _
    have h' : p = (acc ++ [b]) ++ rest := by rw [h]; simp
    rw [List.cons_append, decodeBits]
    cases rest with
    | nil =>
      rw [List.append_nil] at h'
      rw [← h', hp.2.1]
      rfl
    | cons d rest =>
      rw [hp.2.2 (acc ++ [b]) (by simp) ⟨_, h'.symm⟩ (by rw [h']; simp)]
      exact ih (acc ++ [b]) h' (by simp)

/-- The decoder's loop over the pieces of a stream, on any table, while they fit the symbol count (R170). -/
theorem decodeBits_pieces {ct : Byte → CtEntry} (n : Nat) (bs : List Bool) :
    ∀ (ps : List (List Bool × Byte)) (out : List Byte), (∀ p ∈ ps, FirstMatch ct p.1 p.2) →
      out.length + ps.length ≤ n →
      decodeBits ct n (ps.flatMap Prod.fst ++ bs) [] out = decodeBits ct n bs [] (out ++ ps.map Prod.snd) := by
  intro ps
  induction ps with
  | nil => intro out _ _; simp
  | cons p ps ih =>
    intro out h hn
    simp only [List.length_cons] at hn
    have hp := h p List.mem_cons_self
    rw [List.flatMap_cons, List.append_assoc, decodeBits_firstMatch hp n _ out p.1 [] (by simp) hp.1, if_neg (by omega),
      ih (out ++ [p.2]) (fun q hq => h q (List.mem_cons_of_mem _ hq)) (by simp; omega)]
    simp

/-- More pieces than the symbol count end the decoder's loop, on any table (R171). -/
theorem decodeBits_surplusPieces {ct : Byte → CtEntry} (n : Nat) (bs : List Bool) :
    ∀ (ps : List (List Bool × Byte)) (out : List Byte), (∀ p ∈ ps, FirstMatch ct p.1 p.2) →
      out.length ≤ n → n < out.length + ps.length →
      decodeBits ct n (ps.flatMap Prod.fst ++ bs) [] out = .raise .lengthMismatch := by
  intro ps
  induction ps with
  | nil => intro out _ h1 h2; simp only [List.length_nil] at h2; omega
  | cons p ps ih =>
    intro out h h1 h2
    simp only [List.length_cons] at h2
    have hp := h p List.mem_cons_self
    rw [List.flatMap_cons, List.append_assoc, decodeBits_firstMatch hp n _ out p.1 [] (by simp) hp.1]
    split
    · rfl
    · exact ih (out ++ [p.2]) (fun q hq => h q (List.mem_cons_of_mem _ hq)) (by simp; omega) (by simp; omega)

/-- The decoder's loop over what is left of one codeword (R170). -/
theorem decodeBits_codeword {ct : Byte → CtEntry} (hp : PrefixFree ct) {c : Byte} (hc : (ct c).len ≠ 0) (n : Nat)
    (bs : List Bool) (out : List Byte) :
    ∀ (rest acc : List Bool), codeword (ct c) = acc ++ rest → rest ≠ [] →
      decodeBits ct n (rest ++ bs) acc out =
        if out.length = n then .raise .lengthMismatch else decodeBits ct n bs [] (out ++ [c]) :=
  decodeBits_firstMatch (firstMatch_codeword hp hc) n bs out

/-- The decoder's loop over a concatenation of codewords that fits the symbol count (R170, R172). -/
theorem decodeBits_concat {ct : Byte → CtEntry} (hp : PrefixFree ct) (n : Nat) (bs : List Bool) (w out : List Byte)
    (h : ∀ c ∈ w, (ct c).len ≠ 0) (hn : out.length + w.length ≤ n) :
    decodeBits ct n ((w.flatMap fun c => codeword (ct c)) ++ bs) [] out = decodeBits ct n bs [] (out ++ w) := by
  have := decodeBits_pieces (ct := ct) n bs (w.map fun c => (codeword (ct c), c)) out
    (by simpa using fun c hc => firstMatch_codeword hp (h c hc)) (by simpa using hn)
  simpa [List.flatMap_map, Function.comp_def] using this

/-- A surplus symbol ends the decoder's loop (R171). -/
theorem decodeBits_surplus {ct : Byte → CtEntry} (hp : PrefixFree ct) (n : Nat) (bs : List Bool) (c : Byte)
    (w out : List Byte) (h : ∀ d ∈ w, (ct d).len ≠ 0) (hc : (ct c).len ≠ 0) (hn : out.length + w.length = n) :
    decodeBits ct n ((w.flatMap fun d => codeword (ct d)) ++ (codeword (ct c) ++ bs)) [] out =
      .raise .lengthMismatch := by
  rw [decodeBits_concat hp n _ w out h (by omega),
    decodeBits_codeword hp hc n bs (out ++ w) (codeword (ct c)) [] (by simp) ((len_ne_zero_iff _).1 hc),
    if_pos (by simpa using hn)]

/-- Bits no beginning of which is a codeword leave the accumulator non-empty (R171). -/
theorem decodeBits_unmatched {ct : Byte → CtEntry} (n : Nat) (out : List Byte) :
    ∀ (bs acc : List Bool), acc ++ bs ≠ [] → (∀ k, acc.length < k → k ≤ acc.length + bs.length →
      ∀ s, codeword (ct s) ≠ (acc ++ bs).take k) → decodeBits ct n bs acc out = .raise .malformedCode := by
  intro bs
  induction bs with
  | nil =>
    intro acc h _
    rw [List.append_nil] at h
    simp [decodeBits, h]
  | cons b bs ih =>
    intro acc _ h
    have hm : matchCode ct (acc ++ [b]) = none := by
      rw [matchCode_none_iff]
      intro s hs
      refine h (acc.length + 1) (by omega) (by simp) s ?_
      rw [hs, List.take_append]
      simp [List.take_of_length_le]
    rw [decodeBits, hm]
    refine ih (acc ++ [b]) (by simp) ?_
    intro k hk1 hk2 s
    simp only [List.length_append, List.length_singleton] at hk1 hk2
    have := h k (by omega) (by simp only [List.length_cons]; omega) s
    simpa using this

/-- Bits no beginning of which matches end in MalformedCodeError, on any table (R171). -/
theorem decodeBits_noMatch {ct : Byte → CtEntry} (n : Nat) (out : List Byte) {bs : List Bool} (h0 : bs ≠ [])
    (h : NoMatch ct bs) : decodeBits ct n bs [] out = .raise .malformedCode := by
  refine decodeBits_unmatched n out bs [] (by simpa using h0) fun k hk _ s => ?_
  simp only [List.length_nil] at hk
  refine matchCode_none_iff.1 (h (bs.take k) ?_ (List.take_prefix _ _)) s
  simp only [ne_eq, List.take_eq_nil_iff, not_or]
  exact ⟨by omega, h0⟩

/-- Every bit string is cut, on every table, into pieces and a rest that nothing matches (R170). -/
theorem pieces_exist (ct : Byte → CtEntry) (bs : List Bool) :
    ∃ (ps : List (List Bool × Byte)) (rest : List Bool), (∀ p ∈ ps, FirstMatch ct p.1 p.2) ∧
      bs = ps.flatMap Prod.fst ++ rest ∧ NoMatch ct rest := by
  suffices h : ∀ (bs acc : List Bool), NoMatch ct acc →
      ∃ (ps : List (List Bool × Byte)) (rest : List Bool), (∀ p ∈ ps, FirstMatch ct p.1 p.2) ∧
        acc ++ bs = ps.flatMap Prod.fst ++ rest ∧ NoMatch ct rest by
    refine h bs [] fun q hq hp => ?_
    exact absurd (List.prefix_nil.1 hp) hq
  intro bs
  induction bs with
  | nil => exact fun acc h => ⟨[], acc, by simp, by simp, h⟩
  | cons b bs ih =>
    intro acc h
    have hcut : ∀ q, q ≠ [] → q <+: acc ++ [b] → q ≠ acc ++ [b] → matchCode ct q = none := by
      intro q hq hp hne
      rcases List.prefix_concat_iff.1 hp with rfl | hp
      · exact absurd rfl hne
      · exact h q hq hp
    cases hm : matchCode ct (acc ++ [b]) with
    | none =>
      obtain ⟨ps, rest, h1, h2, h3⟩ := ih (acc ++ [b]) fun q hq hp => by
        by_cases hne : q = acc ++ [b]
        · rw [hne]; exact hm
        · exact hcut q hq hp hne
      exact ⟨ps, rest, h1, by rw [← h2]; simp, h3⟩
    | some c =>
      obtain ⟨ps, rest, h1, h2, h3⟩ := ih [] fun q hq hp => absurd (List.prefix_nil.1 hp) hq
      refine ⟨(acc ++ [b], c) :: ps, rest, ?_, ?_, h3⟩
      · rintro p (_ | ⟨_, hp⟩)
        · exact ⟨by simp, hm, hcut⟩
        · exact h1 p hp
      · rw [List.nil_append] at h2
        rw [List.flatMap_cons, List.append_assoc, ← h2]
        simp

end Sys2Proof.Machine
end

