-- ==== Sys2Proof/Laws/HuffmanTree.lean ====
section
/-! SUPPORT. The laws of the priority queue (R162), of the tree HTREE builds (R163) and of the code HCODE reads from it
(R164, R166). -/

namespace Sys2Proof.Machine

/-! ## The priority queue -/

theorem qBefore_iff (a b : Nat × Nat) : qBefore a b = true ↔ a.1 < b.1 ∨ (a.1 = b.1 ∧ a.2 < b.2) := by
  simp [qBefore]

theorem popLeast_eq_none {q : List (Nat × Nat)} : popLeast q = none ↔ q = [] := by
  cases q with
  | nil => simp [popLeast]
  | cons e es =>
    rw [popLeast]
    cases popLeast es with
    | none => simp
    | some r =>
      obtain ⟨m, r⟩ := r
      simp only
      split <;> simp

/-- The queue's removal (R162): it takes out one element, and none of the others comes before it. -/
theorem popLeast_spec {q r : List (Nat × Nat)} {m : Nat × Nat} (h : popLeast q = some (m, r)) :
    q.Perm (m :: r) ∧ ∀ x ∈ r, qBefore x m = false := by
  induction q generalizing m r with
  | nil => simp [popLeast] at h
  | cons e es ih =>
    rw [popLeast] at h
    cases hp : popLeast es with
    | none =>
      rw [hp] at h
      have := popLeast_eq_none.1 hp
      subst this
      simp only [Option.some.injEq, Prod.mk.injEq] at h
      obtain ⟨rfl, rfl⟩ := h
      exact ⟨List.Perm.refl _, by simp⟩
    | some mr =>
      obtain ⟨m', r'⟩ := mr
      rw [hp] at h
      obtain ⟨hperm, hleast⟩ := ih hp
      simp only at h
      split at h
      · next hb =>
        simp only [Option.some.injEq, Prod.mk.injEq] at h
        obtain ⟨rfl, rfl⟩ := h
        refine ⟨List.Perm.refl _, fun x hx => ?_⟩
        rcases List.mem_cons.1 (hperm.mem_iff.1 hx) with hx | hx
        · subst hx
          rw [Bool.eq_false_iff, Ne, qBefore_iff]
          rw [qBefore_iff] at hb
          omega
        · have := hleast x hx
          rw [Bool.eq_false_iff, Ne, qBefore_iff] at this ⊢
          rw [qBefore_iff] at hb
          omega
      · next hb =>
        simp only [Option.some.injEq, Prod.mk.injEq] at h
        obtain ⟨rfl, rfl⟩ := h
        refine ⟨(List.Perm.cons e hperm).trans (List.Perm.swap _ _ _), fun x hx => ?_⟩
        rcases List.mem_cons.1 hx with hx | hx
        · subst hx
          simpa using hb
        · exact hleast x hx

/-! ## The merging loop -/

/-- Node `i` of a list of nodes. -/
def nodeAt (nodes : List HtNode) (i : Nat) : HtNode := nodes.getD i default

theorem nodeAt_append_lt {nodes : List HtNode} {i : Nat} (h : i < nodes.length) (x : HtNode) :
    nodeAt (nodes ++ [x]) i = nodeAt nodes i := by
  simp [nodeAt, List.getD_eq_getElem?_getD, List.getElem?_append_left h]

theorem nodeAt_append_eq (nodes : List HtNode) (x : HtNode) : nodeAt (nodes ++ [x]) nodes.length = x := by
  simp [nodeAt, List.getD_eq_getElem?_getD]

/-- What HTREE's loop keeps (R161 to R163): `nodes` so far and queue `q`, for a table of `n` entries. -/
structure TreeBuild (t : List FtEntry) (nodes : List HtNode) (q : List (Nat × Nat)) : Prop where
  len : nodes.length + q.length = 2 * t.length
  ge : t.length ≤ nodes.length
  leaf : ∀ j, (h : j < t.length) → nodeAt nodes j = leafNode t[j]
  internal : ∀ m < nodes.length, t.length ≤ m → (nodeAt nodes m).tag = .internal ∧
    (nodeAt nodes m).left.toNat < m ∧ (nodeAt nodes m).right.toNat < m ∧
    (nodeAt nodes m).left ≠ (nodeAt nodes m).right ∧
    (nodeAt nodes m).weight.toNat = (nodeAt nodes (nodeAt nodes m).left.toNat).weight.toNat +
      (nodeAt nodes (nodeAt nodes m).right.toNat).weight.toNat
  greedy : ∀ m < nodes.length, t.length ≤ m →
    InQueue t.length (nodeAt nodes) (nodeAt nodes m).left.toNat m ∧
    InQueue t.length (nodeAt nodes) (nodeAt nodes m).right.toNat m ∧
    (∀ i, InQueue t.length (nodeAt nodes) i m → i ≠ (nodeAt nodes m).left.toNat →
      Before (nodeAt nodes) (nodeAt nodes m).left.toNat i) ∧
    (∀ i, InQueue t.length (nodeAt nodes) i m → i ≠ (nodeAt nodes m).left.toNat → i ≠ (nodeAt nodes m).right.toNat →
      Before (nodeAt nodes) (nodeAt nodes m).right.toNat i)
  qmem : ∀ i, i ∈ q.map (·.2) ↔ InQueue t.length (nodeAt nodes) i nodes.length
  qnodup : (q.map (·.2)).Nodup
  qweight : ∀ e ∈ q, e.1 = (nodeAt nodes e.2).weight.toNat
  qsum : (q.map (·.1)).sum = countSum t
  parent : ∀ i < nodes.length, i ∉ q.map (·.2) →
    ∃ m < nodes.length, t.length ≤ m ∧ ChildOf (nodeAt nodes) i m ∧
      ∀ m' < nodes.length, t.length ≤ m' → ChildOf (nodeAt nodes) i m' → m' = m

theorem leafQueue_snd (t : List FtEntry) : (leafQueue t).map (·.2) = List.range t.length := by
  rw [leafQueue, List.map_map]
  apply List.ext_getElem
  · simp
  · intro i h1 h2; simp

theorem leafQueue_fst (t : List FtEntry) : (leafQueue t).map (·.1) = t.map (fun e => e.count.toNat) := by
  rw [leafQueue, List.map_map]
  apply List.ext_getElem
  · simp
  · intro i h1 h2; simp

theorem treeBuild_init (t : List FtEntry) : TreeBuild t (t.map leafNode) (leafQueue t) := by
  have hleaf : ∀ j, (h : j < t.length) → nodeAt (t.map leafNode) j = leafNode t[j] := by
    intro j h
    simp [nodeAt, List.getD_eq_getElem?_getD, h]
  refine ⟨by simp [leafQueue]; omega, by simp, hleaf, ?_, ?_, ?_, ?_, ?_, ?_, ?_⟩
  · intro m h1 h2; simp at h1; omega
  · intro m h1 h2; simp at h1; omega
  · intro i
    rw [leafQueue_snd, List.mem_range, InQueue, List.length_map]
    exact ⟨fun h => ⟨h, fun p h1 h2 => by omega⟩, fun h => h.1⟩
  · rw [leafQueue_snd]; exact List.nodup_range
  · intro e he
    simp only [leafQueue, List.mem_map] at he
    obtain ⟨⟨d, i⟩, hd, rfl⟩ := he
    obtain ⟨-, h2, h3⟩ := List.mem_zipIdx hd
    simp only at h2 h3 ⊢
    rw [hleaf i (by omega), leafNode]
    simp [h3]
  · rw [leafQueue_fst]; rfl
  · intro i hi hn
    rw [leafQueue_snd, List.mem_range] at hn
    simp at hi
    omega

theorem childOf_congr {ht ht' : Nat → HtNode} {q m : Nat} (h : ht' m = ht m) : ChildOf ht' q m ↔ ChildOf ht q m := by
  simp [ChildOf, h]

/-- One round of the loop keeps `TreeBuild` (R161). -/
theorem treeBuild_step {t : List FtEntry} {nodes : List HtNode} {q q1 q2 : List (Nat × Nat)} {a b : Nat × Nat}
    (h : TreeBuild t nodes q) (hn : t.length ≤ 256) (hs : countSum t < 2 ^ 32) (ha : popLeast q = some (a, q1))
    (hb : popLeast q1 = some (b, q2)) :
    TreeBuild t (nodes ++ [internalNode (a.1 + b.1) a.2 b.2]) ((a.1 + b.1, nodes.length) :: q2) := by
  obtain ⟨pa, la⟩ := popLeast_spec ha
  obtain ⟨pb, lb⟩ := popLeast_spec hb
  have pq : q.Perm (a :: b :: q2) := pa.trans (List.Perm.cons a pb)
  have hlen : q.length = q2.length + 2 := by simpa using pq.length_eq
  have hnl := h.len
  have hge := h.ge
  have hnodup : ((a :: b :: q2).map (·.2)).Nodup := (pq.map (·.2)).nodup_iff.1 h.qnodup
  simp only [List.map_cons, List.nodup_cons, List.mem_cons, not_or] at hnodup
  obtain ⟨⟨hab, haq⟩, hbq, hq2⟩ := hnodup
  have memq : ∀ i, i ∈ q.map (·.2) ↔ i = a.2 ∨ i = b.2 ∨ i ∈ q2.map (·.2) := by
    intro i
    rw [(pq.map (·.2)).mem_iff]
    simp only [List.map_cons, List.mem_cons]
  have ina := (h.qmem a.2).1 ((memq _).2 (.inl rfl))
  have inb := (h.qmem b.2).1 ((memq _).2 (.inr (.inl rfl)))
  have hsum : a.1 + (b.1 + (q2.map (·.1)).sum) = countSum t := by
    rw [← h.qsum, (pq.map (·.1)).sum_eq]
    simp
  have wa : a.1 = (nodeAt nodes a.2).weight.toNat := h.qweight a (pq.mem_iff.2 (by simp))
  have wb : b.1 = (nodeAt nodes b.2).weight.toNat := h.qweight b (pq.mem_iff.2 (by simp))
  have alt := ina.1
  have blt := inb.1
  -- the new node
  let x := internalNode (a.1 + b.1) a.2 b.2
  have xl : x.left.toNat = a.2 := by simp [x, internalNode]; omega
  have xr : x.right.toNat = b.2 := by simp [x, internalNode]; omega
  have xw : x.weight.toNat = a.1 + b.1 := by simp [x, internalNode]; omega
  have old : ∀ i < nodes.length, nodeAt (nodes ++ [x]) i = nodeAt nodes i := fun i hi => nodeAt_append_lt hi x
  have new : nodeAt (nodes ++ [x]) nodes.length = x := nodeAt_append_eq nodes x
  have child_old : ∀ i m, m < nodes.length → (ChildOf (nodeAt (nodes ++ [x])) i m ↔ ChildOf (nodeAt nodes) i m) :=
    fun i m hm => childOf_congr (old m hm)
  have child_new : ∀ i, ChildOf (nodeAt (nodes ++ [x])) i nodes.length ↔ i = a.2 ∨ i = b.2 := by
    intro i
    rw [ChildOf, new, xl, xr]
    exact ⟨fun h => h.elim (fun h => .inl h.symm) (fun h => .inr h.symm),
      fun h => h.elim (fun h => .inl h.symm) (fun h => .inr h.symm)⟩
  have inq_old : ∀ i m, m ≤ nodes.length →
      (InQueue t.length (nodeAt (nodes ++ [x])) i m ↔ InQueue t.length (nodeAt nodes) i m) := by
    intro i m hm
    simp only [InQueue]
    refine and_congr_right fun _ => forall_congr' fun p => imp_congr_ctx Iff.rfl fun hp => imp_congr_right fun _ => ?_
    rw [child_old i p (by omega)]
  have before_old : ∀ i j, i < nodes.length → j < nodes.length →
      (Before (nodeAt (nodes ++ [x])) i j ↔ Before (nodeAt nodes) i j) := by
    intro i j hi hj
    simp only [Before, old i hi, old j hj]
  have nlen : (nodes ++ [x]).length = nodes.length + 1 := by simp
  -- an element of the queue that is not `a` comes after `a`; one that is neither comes after `b`
  have after_a : ∀ i, InQueue t.length (nodeAt nodes) i nodes.length → i ≠ a.2 → Before (nodeAt nodes) a.2 i := by
    intro i hi hne
    obtain ⟨e, he, rfl⟩ := List.mem_map.1 ((h.qmem i).2 hi)
    rcases List.mem_cons.1 (pa.mem_iff.1 he) with h1 | h1
    · exact absurd (by rw [h1]) hne
    · have := la e h1
      rw [Bool.eq_false_iff, Ne, qBefore_iff] at this
      rw [Before, ← wa, ← h.qweight e he]
      omega
  have after_b : ∀ i, InQueue t.length (nodeAt nodes) i nodes.length → i ≠ a.2 → i ≠ b.2 →
      Before (nodeAt nodes) b.2 i := by
    intro i hi hna hnb
    obtain ⟨e, he, rfl⟩ := List.mem_map.1 ((h.qmem i).2 hi)
    rcases List.mem_cons.1 (pa.mem_iff.1 he) with h1 | h1
    · exact absurd (by rw [h1]) hna
    · rcases List.mem_cons.1 (pb.mem_iff.1 h1) with h2 | h2
      · exact absurd (by rw [h2]) hnb
      · have := lb e h2
        rw [Bool.eq_false_iff, Ne, qBefore_iff] at this
        rw [Before, ← wb, ← h.qweight e he]
        omega
  refine ⟨?_, ?_, ?_, ?_, ?_, ?_, ?_, ?_, ?_, ?_⟩
  · rw [nlen, List.length_cons]; omega
  · rw [nlen]; omega
  · intro j hj
    rw [old j (by omega), h.leaf j hj]
  · intro m hm hnm
    rw [nlen] at hm
    rcases Nat.lt_succ_iff_lt_or_eq.1 hm with hm | rfl
    · rw [old m hm]
      obtain ⟨h1, h2, h3, h4, h5⟩ := h.internal m hm hnm
      refine ⟨h1, h2, h3, h4, ?_⟩
      rw [old _ (by omega), old _ (by omega)]
      exact h5
    · rw [new]
      refine ⟨rfl, by omega, by omega, ?_, ?_⟩
      · intro c
        have := congrArg BitVec.toNat c
        rw [xl, xr] at this
        exact hab this
      · rw [xl, xr, old _ alt, old _ blt, ← wa, ← wb, xw]
  · intro m hm hnm
    rw [nlen] at hm
    rcases Nat.lt_succ_iff_lt_or_eq.1 hm with hm | rfl
    · rw [old m hm]
      obtain ⟨g1, g2, g3, g4⟩ := h.greedy m hm hnm
      refine ⟨(inq_old _ _ (by omega)).2 g1, (inq_old _ _ (by omega)).2 g2, ?_, ?_⟩
      · intro i hi hne
        have hi' := (inq_old i m (by omega)).1 hi
        rw [before_old _ _ (lt_trans g1.1 hm) (lt_trans hi'.1 hm)]
        exact g3 i hi' hne
      · intro i hi hn1 hn2
        have hi' := (inq_old i m (by omega)).1 hi
        rw [before_old _ _ (lt_trans g2.1 hm) (lt_trans hi'.1 hm)]
        exact g4 i hi' hn1 hn2
    · rw [new, xl, xr]
      refine ⟨(inq_old _ _ le_rfl).2 ina, (inq_old _ _ le_rfl).2 inb, ?_, ?_⟩
      · intro i hi hne
        have hi' := (inq_old i _ le_rfl).1 hi
        rw [before_old _ _ alt hi'.1]
        exact after_a i hi' hne
      · intro i hi hn1 hn2
        have hi' := (inq_old i _ le_rfl).1 hi
        rw [before_old _ _ blt hi'.1]
        exact after_b i hi' hn1 hn2
  · intro i
    rw [nlen]
    simp only [List.map_cons, List.mem_cons]
    constructor
    · rintro (rfl | hi)
      · refine ⟨by omega, fun p hp hnp c => ?_⟩
        rcases Nat.lt_succ_iff_lt_or_eq.1 hp with hp | rfl
        · rw [child_old _ p hp] at c
          have := h.internal p hp hnp
          rcases c with c | c <;> omega
        · rcases (child_new _).1 c with c | c <;> omega
      · have hq := (h.qmem i).1 ((memq i).2 (.inr (.inr hi)))
        refine ⟨by have := hq.1; omega, fun p hp hnp c => ?_⟩
        rcases Nat.lt_succ_iff_lt_or_eq.1 hp with hp | rfl
        · rw [child_old _ p hp] at c
          exact hq.2 p hp hnp c
        · rcases (child_new _).1 c with c | c
          · exact haq (c ▸ hi)
          · exact hbq (c ▸ hi)
    · rintro ⟨h1, h2⟩
      rcases Nat.lt_succ_iff_lt_or_eq.1 h1 with h1 | h1
      · have hna : ¬ (i = a.2 ∨ i = b.2) := fun c => h2 nodes.length (by omega) hge ((child_new i).2 c)
        have : InQueue t.length (nodeAt nodes) i nodes.length :=
          ⟨h1, fun p hp hnp c => h2 p (by omega) hnp ((child_old i p hp).2 c)⟩
        rcases (memq i).1 ((h.qmem i).2 this) with c | c | c
        · exact absurd (.inl c) hna
        · exact absurd (.inr c) hna
        · exact .inr c
      · exact .inl h1
  · simp only [List.map_cons, List.nodup_cons]
    refine ⟨fun c => ?_, hq2⟩
    have := ((h.qmem _).1 ((memq _).2 (.inr (.inr c)))).1
    omega
  · intro e he
    rcases List.mem_cons.1 he with rfl | he
    · simp only; rw [new, xw]
    · have hmem : e ∈ q := pq.mem_iff.2 (by simp [he])
      have := ((h.qmem e.2).1 (List.mem_map_of_mem hmem)).1
      rw [old _ this]
      exact h.qweight e hmem
  · simp only [List.map_cons, List.sum_cons]; omega
  · intro i hi hnq
    rw [nlen] at hi
    simp only [List.map_cons, List.mem_cons, not_or] at hnq
    have hi' : i < nodes.length := by have := hnq.1; omega
    by_cases hc : i = a.2 ∨ i = b.2
    · refine ⟨nodes.length, lt_of_lt_of_eq (by omega) nlen.symm, hge, (child_new i).2 hc, ?_⟩
      intro m' hm' hnm' c
      rw [nlen] at hm'
      rcases Nat.lt_succ_iff_lt_or_eq.1 hm' with hm' | hm'
      · exfalso
        rw [child_old i m' hm'] at c
        rcases hc with rfl | rfl
        · exact ina.2 m' hm' hnm' c
        · exact inb.2 m' hm' hnm' c
      · exact hm'
    · have : i ∉ q.map (·.2) := by
        rw [memq]; rintro (c | c | c)
        · exact hc (.inl c)
        · exact hc (.inr c)
        · exact hnq.2 c
      obtain ⟨m, hm, hnm, hch, huniq⟩ := h.parent i hi' this
      refine ⟨m, lt_of_lt_of_eq (by omega) nlen.symm, hnm, (child_old i m hm).2 hch, ?_⟩
      intro m' hm' hnm' c
      rw [nlen] at hm'
      rcases Nat.lt_succ_iff_lt_or_eq.1 hm' with hm' | rfl
      · exact huniq m' hm' hnm' ((child_old i m' hm').1 c)
      · exact absurd ((child_new i).1 c) hc

/-- The loop keeps `TreeBuild` and ends with one element in the queue (R161). -/
theorem treeBuild_merge {t : List FtEntry} (hn : t.length ≤ 256) (hs : countSum t < 2 ^ 32) :
    ∀ (fuel : Nat) (nodes : List HtNode) (q : List (Nat × Nat)), TreeBuild t nodes q → q.length ≤ fuel + 1 → q ≠ [] →
      TreeBuild t (mergeNodes fuel nodes q).1 (mergeNodes fuel nodes q).2 ∧ (mergeNodes fuel nodes q).2.length = 1 := by
  intro fuel
  induction fuel with
  | zero =>
    intro nodes q h hl hne
    have := List.length_pos_iff.2 hne
    exact ⟨h, by simp only [mergeNodes]; omega⟩
  | succ fuel ih =>
    intro nodes q h hl hne
    rw [mergeNodes]
    cases ha : popLeast q with
    | none => exact absurd (popLeast_eq_none.1 ha) hne
    | some aq =>
      obtain ⟨a, q1⟩ := aq
      have la := (popLeast_spec ha).1.length_eq
      rw [List.length_cons] at la
      simp only
      cases hb : popLeast q1 with
      | none =>
        rw [popLeast_eq_none.1 hb] at la
        exact ⟨h, by simpa using la⟩
      | some bq =>
        obtain ⟨b, q2⟩ := bq
        have lb := (popLeast_spec hb).1.length_eq
        rw [List.length_cons] at lb
        refine ih _ _ (treeBuild_step h hn hs ha hb) ?_ (by simp)
        rw [List.length_cons]; omega

/-- What HTREE leaves for a valid non-empty table (R161, R163). -/
theorem buildTree_spec {t : List FtEntry} (hpos : 0 < t.length) (hn : t.length ≤ 256) (hs : countSum t < 2 ^ 32) :
    TreeBuild t (buildTree t).1 (buildTree t).2 ∧ (buildTree t).1.length = 2 * t.length - 1 ∧
      rootOf (buildTree t).2 = 2 * t.length - 2 := by
  have hl : (leafQueue t).length = t.length := by simp [leafQueue]
  have hne : leafQueue t ≠ [] := List.length_pos_iff.1 (by omega)
  obtain ⟨h, h1⟩ := treeBuild_merge hn hs t.length _ _ (treeBuild_init t) (by omega) hne
  have h' : TreeBuild t (buildTree t).1 (buildTree t).2 := h
  have h1' : (buildTree t).2.length = 1 := h1
  have hlen := h'.len
  refine ⟨h', by omega, ?_⟩
  obtain ⟨e, he⟩ := List.length_eq_one_iff.1 h1'
  -- the last node is in the queue, so it is the one element left
  have hin : InQueue t.length (nodeAt (buildTree t).1) (2 * t.length - 2) (buildTree t).1.length := by
    refine ⟨by omega, fun p hp hnp c => ?_⟩
    have := h'.internal p hp hnp
    rcases c with c | c <;> omega
  have := (h'.qmem _).2 hin
  rw [he] at this
  simp only [List.map_cons, List.map_nil, List.mem_singleton] at this
  rw [he, rootOf]
  exact this.symm

theorem buildTree_nil : buildTree [] = ([], []) := rfl

/-- The nodes HTREE leaves are a tree in the sense of R163. -/
theorem huffmanTree_of_build {t : List FtEntry} (hpos : 0 < t.length) (hn : t.length ≤ 256) (hs : countSum t < 2 ^ 32)
    (hd : (t.map (·.sym)).Nodup) : HuffmanTree t.length (nodeAt (buildTree t).1) := by
  obtain ⟨h, hlen, -⟩ := buildTree_spec hpos hn hs
  have hq1 : (buildTree t).2.length = 1 := by have := h.len; omega
  refine ⟨?_, ?_, ?_, ?_⟩
  · intro j hj
    rw [h.leaf j hj]; rfl
  · intro m hm hnm
    exact h.internal m (by omega) hnm
  · intro q hq
    have hnot : q ∉ (buildTree t).2.map (·.2) := by
      obtain ⟨e, he⟩ := List.length_eq_one_iff.1 hq1
      have hr := (buildTree_spec hpos hn hs).2.2
      rw [he, rootOf] at hr
      rw [he]
      simp only [List.map_cons, List.map_nil, List.mem_singleton]
      omega
    obtain ⟨m, h1, h2, h3, h4⟩ := h.parent q (by omega) hnot
    exact ⟨m, by omega, h2, h3, fun m' hm' hn' c => h4 m' (by omega) hn' c⟩
  · intro k hk j hj
    rw [h.leaf j (by omega), h.leaf k hk]
    rw [List.Nodup, List.pairwise_map, List.pairwise_iff_getElem] at hd
    exact hd j k (by omega) hk hj

/-! ## Walking the tree -/

theorem walk_append {ht : Nat → HtNode} : ∀ (p r : List Bool) (q : Nat),
    walk ht q (p ++ r) = (walk ht q p).bind fun m => walk ht m r := by
  intro p
  induction p with
  | nil => intro r q; rfl
  | cons b p ih =>
    intro r q
    rw [List.cons_append, walk, walk]
    cases (ht q).tag with
    | leaf => rfl
    | internal => exact ih r _

/-- No edge leaves a Leaf. -/
theorem walk_leaf {ht : Nat → HtNode} {q r : Nat} (h : (ht q).tag = .leaf) {p : List Bool} (hw : walk ht q p = some r) :
    p = [] ∧ r = q := by
  cases p with
  | nil => exact ⟨rfl, by simpa [walk] using hw.symm⟩
  | cons b p => rw [walk, h] at hw; cases hw

theorem walk_concat {ht : Nat → HtNode} {q r : Nat} {p : List Bool} {b : Bool} (h : walk ht q (p ++ [b]) = some r) :
    ∃ m, walk ht q p = some m ∧ (ht m).tag = .internal ∧
      r = if b then (ht m).right.toNat else (ht m).left.toNat := by
  rw [walk_append, Option.bind_eq_some_iff] at h
  obtain ⟨m, h1, h2⟩ := h
  refine ⟨m, h1, ?_⟩
  rw [walk] at h2
  cases ht' : (ht m).tag with
  | leaf => rw [ht'] at h2; cases h2
  | internal =>
    rw [ht'] at h2
    simp only [walk, Option.some.injEq] at h2
    exact ⟨rfl, h2.symm⟩

section Tree

variable {n : Nat} {ht : Nat → HtNode} (h : HuffmanTree n ht)

include h

theorem HuffmanTree.internal_ge {m : Nat} (hi : (ht m).tag = .internal) : n ≤ m := by
  by_contra hc
  rw [h.1 m (by omega)] at hi
  cases hi

/-- A walk goes down: it ends at or below where it began, in at most as many edges as there are Internal nodes. -/
theorem HuffmanTree.walk_le {p : List Bool} : ∀ {q r : Nat}, q < 2 * n - 1 → walk ht q p = some r →
    r ≤ q ∧ p.length ≤ q + 1 - n := by
  induction p with
  | nil =>
    intro q r _ hw
    simp only [walk, Option.some.injEq] at hw
    subst hw; simp
  | cons b p ih =>
    intro q r hq hw
    rw [walk] at hw
    cases hi : (ht q).tag with
    | leaf => rw [hi] at hw; cases hw
    | internal =>
      rw [hi] at hw
      have hn := h.internal_ge hi
      obtain ⟨-, h2, h3, -, -⟩ := h.2.1 q hq hn
      simp only at hw
      have hlt : (if b then (ht q).right.toNat else (ht q).left.toNat) < q := by split <;> assumption
      have := ih (by omega) hw
      simp only [List.length_cons]
      omega

/-- Every node is reached from the root (R163 c). -/
theorem HuffmanTree.reach (hn : 1 ≤ n) : ∀ d q, q + d = 2 * n - 2 → ∃ p, walk ht (2 * n - 2) p = some q := by
  intro d
  induction d using Nat.strong_induction_on with
  | _ d ih =>
    intro q hq
    by_cases hr : q = 2 * n - 2
    · exact ⟨[], by simp [walk, hr]⟩
    · obtain ⟨m, hm, hnm, hch, -⟩ := h.2.2.1 q (by omega)
      obtain ⟨hi, hl, hrr, -, -⟩ := h.2.1 m hm hnm
      have hlt : q < m := by rcases hch with c | c <;> omega
      obtain ⟨p, hp⟩ := ih (2 * n - 2 - m) (by omega) m (by omega)
      rcases hch with c | c
      · refine ⟨p ++ [false], ?_⟩
        rw [walk_append, hp]
        simp [walk, hi, c]
      · refine ⟨p ++ [true], ?_⟩
        rw [walk_append, hp]
        simp [walk, hi, c]

/-- Only one path leads to a node (R163 c). -/
theorem HuffmanTree.walk_unique (hn : 1 ≤ n) : ∀ (p1 p2 : List Bool) (r : Nat),
    walk ht (2 * n - 2) p1 = some r → walk ht (2 * n - 2) p2 = some r → p1 = p2 := by
  intro p1
  induction p1 using List.reverseRecOn with
  | nil =>
    intro p2 r h1 h2
    simp only [walk, Option.some.injEq] at h1
    subst h1
    cases p2 using List.reverseRecOn with
    | nil => rfl
    | append_singleton p2 b =>
      exfalso
      obtain ⟨m, w1, hi, hr⟩ := walk_concat h2
      have hm := (h.walk_le (by omega) w1).1
      obtain ⟨-, a, c, -, -⟩ := h.2.1 m (by omega) (h.internal_ge hi)
      split at hr <;> omega
  | append_singleton p1 b1 ih =>
    intro p2 r h1 h2
    obtain ⟨m1, w1, hi1, hr1⟩ := walk_concat h1
    have hm1 := (h.walk_le (by omega) w1).1
    obtain ⟨-, a1, c1, hne1, -⟩ := h.2.1 m1 (by omega) (h.internal_ge hi1)
    cases p2 using List.reverseRecOn with
    | nil =>
      exfalso
      simp only [walk, Option.some.injEq] at h2
      split at hr1 <;> omega
    | append_singleton p2 b2 =>
      obtain ⟨m2, w2, hi2, hr2⟩ := walk_concat h2
      have hm2 := (h.walk_le (by omega) w2).1
      have hc1 : ChildOf ht r m1 := by
        cases b1
        · exact .inl (by simpa using hr1.symm)
        · exact .inr (by simpa using hr1.symm)
      have hc2 : ChildOf ht r m2 := by
        cases b2
        · exact .inl (by simpa using hr2.symm)
        · exact .inr (by simpa using hr2.symm)
      have hrlt : r < 2 * n - 2 := by
        have : r < m1 := by split at hr1 <;> omega
        omega
      obtain ⟨m, -, -, -, huniq⟩ := h.2.2.1 r hrlt
      have e1 := huniq m1 (by omega) (h.internal_ge hi1) hc1
      have e2 := huniq m2 (by omega) (h.internal_ge hi2) hc2
      have e : m2 = m1 := by rw [e1, e2]
      subst e
      have hb : b1 = b2 := by
        cases b1 <;> cases b2 <;> try rfl
        all_goals
          exfalso
          simp only [if_true, if_false, Bool.false_eq_true] at hr1 hr2
          exact hne1 (BitVec.eq_of_toNat_eq (by omega))
      rw [hb, ih p2 m2 w1 w2]

/-- What HCODE's traversal records from a node: one pair for every Leaf below it, its symbol and the path to it (R164). -/
theorem HuffmanTree.visit_spec : ∀ (fuel q : Nat) (path : List Bool), q < 2 * n - 1 → q + 1 - n ≤ fuel →
    ∃ cs, visit ht fuel q path = some cs ∧ ∀ c p, (c, p) ∈ cs ↔
      ∃ p' r, walk ht q p' = some r ∧ (ht r).tag = .leaf ∧ c = (ht r).sym ∧ p = path ++ p' := by
  intro fuel
  have leafCase : ∀ (f q : Nat) (path : List Bool), (ht q).tag = .leaf →
      ∃ cs, visit ht f q path = some cs ∧ ∀ c p, (c, p) ∈ cs ↔
        ∃ p' r, walk ht q p' = some r ∧ (ht r).tag = .leaf ∧ c = (ht r).sym ∧ p = path ++ p' := by
    intro f q path hl
    refine ⟨[((ht q).sym, path)], ?_, ?_⟩
    · cases f <;> simp [visit, hl]
    · intro c p
      simp only [List.mem_singleton, Prod.mk.injEq]
      constructor
      · rintro ⟨rfl, rfl⟩
        exact ⟨[], q, rfl, hl, rfl, by simp⟩
      · rintro ⟨p', r, hw, -, rfl, rfl⟩
        obtain ⟨rfl, rfl⟩ := walk_leaf hl hw
        simp
  induction fuel with
  | zero =>
    intro q path hq hf
    exact leafCase 0 q path (h.1 q (by omega))
  | succ fuel ih =>
    intro q path hq hf
    cases hi : (ht q).tag with
    | leaf => exact leafCase _ q path hi
    | internal =>
      have hn := h.internal_ge hi
      obtain ⟨-, h2, h3, -, -⟩ := h.2.1 q hq hn
      obtain ⟨l, hl, hml⟩ := ih (ht q).left.toNat (path ++ [false]) (by omega) (by omega)
      obtain ⟨r, hr, hmr⟩ := ih (ht q).right.toNat (path ++ [true]) (by omega) (by omega)
      refine ⟨l ++ r, by simp [visit, hi, hl, hr], ?_⟩
      intro c p
      rw [List.mem_append, hml, hmr]
      constructor
      · rintro (⟨p', x, hw, hx, hc, rfl⟩ | ⟨p', x, hw, hx, hc, rfl⟩)
        · exact ⟨false :: p', x, by simpa [walk, hi] using hw, hx, hc, by simp⟩
        · exact ⟨true :: p', x, by simpa [walk, hi] using hw, hx, hc, by simp⟩
      · rintro ⟨p', x, hw, hx, hc, rfl⟩
        cases p' with
        | nil =>
          simp only [walk, Option.some.injEq] at hw
          subst hw
          rw [hi] at hx; cases hx
        | cons b p' =>
          rw [walk, hi] at hw
          simp only at hw
          cases b
          · exact .inl ⟨p', x, by simpa using hw, hx, hc, by simp⟩
          · exact .inr ⟨p', x, by simpa using hw, hx, hc, by simp⟩

end Tree

/-! ## The code table -/

@[simp] theorem codeTable_length (cs : List (Byte × List Bool)) : (codeTable cs).length = 256 := by simp [codeTable]

theorem codeTable_getElem (cs : List (Byte × List Bool)) (b : Byte) :
    (codeTable cs)[b.toNat]'(by rw [codeTable_length]; exact b.isLt) =
      match cs.reverse.lookup b with
      | none => ctAbsent
      | some p => ctOfPath p := by
  simp only [codeTable, List.getElem_map, List.getElem_range, BitVec.ofNat_toNat, BitVec.setWidth_eq] <;>
    cases cs.reverse.lookup b <;> rfl

theorem lookup_eq_none_iff' {cs : List (Byte × List Bool)} {b : Byte} : cs.lookup b = none ↔ ∀ p, (b, p) ∉ cs := by
  rw [List.lookup_eq_none_iff]
  constructor
  · intro h p hp
    have := h (b, p) hp
    simp at this
  · rintro h ⟨a, p⟩ hp
    by_cases e : b = a
    · subst e; exact absurd hp (h p)
    · simpa using e

theorem mem_of_lookup {cs : List (Byte × List Bool)} {b : Byte} {p : List Bool} (h : cs.lookup b = some p) :
    (b, p) ∈ cs := by
  induction cs with
  | nil => simp at h
  | cons d ds ih =>
    obtain ⟨a, r⟩ := d
    rw [List.lookup_cons] at h
    by_cases e : b = a
    · subst e; simp at h; simp [h]
    · rw [beq_false_of_ne e] at h
      exact List.mem_cons_of_mem _ (ih h)

/-- The entry of a symbol whose recorded codewords are all one path. -/
theorem codeTable_of_mem {cs : List (Byte × List Bool)} {b : Byte} {p : List Bool} (hm : (b, p) ∈ cs)
    (hu : ∀ p', (b, p') ∈ cs → p' = p) :
    (codeTable cs)[b.toNat]'(by rw [codeTable_length]; exact b.isLt) = ctOfPath p := by
  rw [codeTable_getElem]
  cases hl : cs.reverse.lookup b with
  | none => exact absurd (List.mem_reverse.2 hm) (lookup_eq_none_iff'.1 hl p)
  | some p' => rw [hu p' (List.mem_reverse.1 (mem_of_lookup hl))]

/-- The entry of a symbol no codeword was recorded for. -/
theorem codeTable_of_not_mem {cs : List (Byte × List Bool)} {b : Byte} (hm : ∀ p, (b, p) ∉ cs) :
    (codeTable cs)[b.toNat]'(by rw [codeTable_length]; exact b.isLt) = ctAbsent := by
  rw [codeTable_getElem]
  cases hl : cs.reverse.lookup b with
  | none => rfl
  | some p' => exact absurd (List.mem_reverse.1 (mem_of_lookup hl)) (hm p')

/-- The merging loop writes `sym` 0 in every Internal node (R85, R161). -/
theorem mergeNodes_sym (n : Nat) : ∀ (fuel : Nat) (nodes : List HtNode) (q : List (Nat × Nat)),
    (∀ m < nodes.length, n ≤ m → (nodeAt nodes m).sym = 0) →
      ∀ m < (mergeNodes fuel nodes q).1.length, n ≤ m → (nodeAt (mergeNodes fuel nodes q).1 m).sym = 0 := by
  intro fuel
  induction fuel with
  | zero => intro nodes q h; exact h
  | succ fuel ih =>
    intro nodes q h
    rw [mergeNodes]
    split
    · exact h
    · split
      · exact h
      · apply ih
        intro m hm hn
        by_cases hm' : m < nodes.length
        · rw [nodeAt_append_lt hm']; exact h m hm' hn
        · simp at hm
          have : m = nodes.length := by omega
          subst this; rw [nodeAt_append_eq]; rfl

theorem buildTree_sym (t : List FtEntry) : ∀ m < (buildTree t).1.length, t.length ≤ m → (nodeAt (buildTree t).1 m).sym = 0 := by
  apply mergeNodes_sym
  intro m hm; simp at hm; omega

/-- The queue before node `m` depends on the nodes before it only. -/
theorem inQueue_congr {n m : Nat} {ht ht' : Nat → HtNode} (h : ∀ p < m, ht' p = ht p) (i : Nat) :
    InQueue n ht' i m ↔ InQueue n ht i m := by
  unfold InQueue
  refine and_congr_right fun _ => forall_congr' fun p => forall_congr' fun hp => ?_
  rw [childOf_congr (h p hp)]

/-- The laws of a tree depend on its nodes only. -/
theorem HuffmanTree.congr {n : Nat} {ht ht' : Nat → HtNode} (h : HuffmanTree n ht)
    (hc : ∀ p < 2 * n - 1, ht' p = ht p) (hn : 1 ≤ n) : HuffmanTree n ht' := by
  obtain ⟨h1, h2, h3, h4⟩ := h
  refine ⟨?_, ?_, ?_, ?_⟩
  · intro j hj; rw [hc j (by omega)]; exact h1 j hj
  · intro m hm hn
    obtain ⟨a, b, c, d, e⟩ := h2 m hm hn
    rw [hc m hm, hc _ (by omega), hc _ (by omega)]; exact ⟨a, b, c, d, e⟩
  · intro q hq
    obtain ⟨m, hm, hn, hq, hu⟩ := h3 q hq
    exact ⟨m, hm, hn, (childOf_congr (hc m hm)).2 hq, fun m' hm' hn' hq' => hu m' hm' hn' ((childOf_congr (hc m' hm')).1 hq')⟩
  · intro k hk j hj; rw [hc k (by omega), hc j (by omega)]; exact h4 k hk j hj

end Sys2Proof.Machine
end

