-- ==== Sys2Proof/Laws/PerInstr.lean ====
section
/-! SUPPORT. Facts about every instruction as syntax, one lemma per constructor: its word stands in the table (R81), is a
legal command word (R80, R96, R97), and decodes to it (R82). -/

namespace Sys2Proof.Laws.RoundTrip

/-- The instruction is well formed, its word has the reserved field 0 and its operation in the low byte, and the
decoder reads the instruction back from its word. -/
def Statement (i : Instr) : Prop :=
  i.wf = true ∧ (cmdFields (encode i)).wf = true ∧ (cmdFields (encode i)).opc = i.opc ∧ decode (encode i) = .ok i ∧
    decodeTableWord 32 (encode i).toNat = some i

theorem freq : Statement .freq := by unfold Statement; decide
theorem cdf : Statement .cdf := by unfold Statement; decide
theorem renc : Statement .renc := by unfold Statement; decide
theorem rdec : Statement .rdec := by unfold Statement; decide
theorem htree : Statement .htree := by unfold Statement; decide
theorem hcode : Statement .hcode := by unfold Statement; decide
theorem henc : Statement .henc := by unfold Statement; decide
theorem hdec : Statement .hdec := by unfold Statement; decide
theorem bpack : Statement .bpack := by unfold Statement; decide
theorem bunpk : Statement .bunpk := by unfold Statement; decide

end Sys2Proof.Laws.RoundTrip
end

