-- ==== Sys2Proof/Laws/Rans.lean ====
section
/-! SUPPORT. The laws of the rANS unit as facts about lists and numbers: what the renormalisation loops do (R135, R136),
that the decoding step undoes the coding step (R132), the state interval (R133, R134), and that decoding undoes
encoding (R142). -/

namespace Sys2Proof

/-! ## The configuration's numbers -/

theorem Config.base_eq (c : Config) : c.base = 256 ^ (c.p / 8) := by
  cases h : c.prec <;> simp [Config.base, Config.p, Precision.bits, h]

theorem Config.fb_eq (c : Config) : c.fb = c.p / 8 + 1 := by
  cases h : c.prec <;> simp [Config.fb, Config.p, Precision.bits, h]

theorem Config.two_pow_xw (c : Config) : 2 ^ c.xw = 256 * c.base := by
  cases h : c.prec <;> simp [Config.xw, Config.base, Config.p, Precision.bits, h]

theorem Config.pow_fb (c : Config) : 256 ^ c.fb = 256 * c.base := by
  rw [c.fb_eq, c.base_eq, pow_succ, Nat.mul_comm]

theorem Config.base_pos (c : Config) : 0 < c.base := Nat.pow_pos (by decide)

theorem Config.base_le (c : Config) : c.base ≤ 2 ^ 24 := by
  cases h : c.prec <;> simp [Config.base, Config.p, Precision.bits, h]

theorem Config.fb_pos (c : Config) : 0 < c.fb := by rw [c.fb_eq]; omega

theorem Config.fb_le (c : Config) : c.fb ≤ 4 := by
  cases h : c.prec <;> simp [Config.fb, Config.p, Precision.bits, h]

end Sys2Proof

namespace Sys2Proof.Machine

/-! ## The renormalisation loops -/

theorem div_pow_succ (x k : Nat) : x / 256 / 256 ^ k = x / 256 ^ (k + 1) := by
  rw [Nat.div_div_eq_div_mul, pow_succ, Nat.mul_comm]

theorem div_pow_succ' (x k : Nat) : x / 256 ^ k / 256 = x / 256 ^ (k + 1) := by
  rw [Nat.div_div_eq_div_mul, pow_succ]

theorem lt_pow_shiftRounds (x : Nat) : x < 256 ^ shiftRounds x := by
  have h1 : x < 2 ^ (x.log2 + 1) := Nat.lt_log2_self
  have h2 : (2 : Nat) ^ (x.log2 + 1) ≤ 2 ^ (8 * (x.log2 / 8 + 1)) := Nat.pow_le_pow_right (by decide) (by omega)
  have h3 : (256 : Nat) ^ shiftRounds x = 2 ^ (8 * (x.log2 / 8 + 1)) := by
    rw [shiftRounds, Nat.pow_mul]
  omega

/-- The encoder's renormalisation (R135): it emits the least number of bytes that brings the state below `256 f`. -/
theorem shiftOut_spec {f : Nat} (hf : 1 ≤ f) (fuel x : Nat) (hx : x < 256 ^ fuel) :
    ∃ k, shiftOut f fuel x = ((List.range k).map (fun t => lowByte (x / 256 ^ t)), x / 256 ^ k) ∧
      x / 256 ^ k < 256 * f ∧ ∀ d < k, 256 * f ≤ x / 256 ^ d := by
  induction fuel generalizing x with
  | zero =>
    refine ⟨0, ?_, ?_, by omega⟩
    · simp [shiftOut]
    · simp at hx; subst hx; simp; omega
  | succ n ih =>
    rw [shiftOut]
    split
    · next h =>
      have hx' : x / 256 < 256 ^ n := by
        rw [Nat.div_lt_iff_lt_mul (by decide)]
        rwa [pow_succ] at hx
      obtain ⟨k, hk, hlt, hge⟩ := ih (x / 256) hx'
      refine ⟨k + 1, ?_, ?_, ?_⟩
      · rw [hk, List.range_succ_eq_map]
        simp [div_pow_succ, Function.comp_def]
      · rwa [div_pow_succ] at hlt
      · intro d hd
        cases d with
        | zero => simpa using h
        | succ d =>
          rw [← div_pow_succ]
          exact hge d (by omega)
    · next h => exact ⟨0, by simp, by simp; omega, by omega⟩

/-- Whatever was shifted, the state does not fall below `f` (R135). -/
theorem le_of_shifted {f x k : Nat} (hx : f ≤ x) (hge : ∀ d < k, 256 * f ≤ x / 256 ^ d) : f ≤ x / 256 ^ k := by
  cases k with
  | zero => simpa using hx
  | succ k =>
    have := hge k (by omega)
    rw [← div_pow_succ', Nat.le_div_iff_mul_le (by decide)]
    omega

/-- The decoder's renormalisation reads back exactly what was shifted out (R136). -/
theorem shiftIn_shifted {base x : Nat} (hl : base ≤ x) (hu : x < 256 * base) (k : Nat) (rest : List Byte) :
    shiftIn base (x / 256 ^ k) (((List.range k).map (fun t => lowByte (x / 256 ^ t))).reverse ++ rest) = (x, rest) := by
  induction k with
  | zero =>
    have : ¬ x < base := by omega
    cases rest <;> simp [shiftIn, this]
  | succ k ih =>
    have hlt : x / 256 ^ (k + 1) < base := by
      rw [← div_pow_succ]
      have : x / 256 < base := by rw [Nat.div_lt_iff_lt_mul (by decide)]; omega
      exact lt_of_le_of_lt (Nat.div_le_self _ _) this
    have hb : x / 256 ^ (k + 1) * 256 + (lowByte (x / 256 ^ k)).toNat = x / 256 ^ k := by
      rw [← div_pow_succ']
      simp only [lowByte, BitVec.toNat_ofNat]
      omega
    rw [List.range_succ, List.map_append, List.reverse_append]
    simp only [List.map_cons, List.map_nil, List.reverse_cons, List.reverse_nil, List.nil_append, List.cons_append]
    rw [shiftIn, if_pos hlt, hb, ih]

/-! ## The two steps -/

/-- A CDF list the codec can run on: positive frequencies, intervals within `base`, no two of them meeting (R115). -/
structure CdfListOk (base : Nat) (t : List CdfEntry) : Prop where
  freq_pos : ∀ e ∈ t, 1 ≤ e.freq.toNat
  le_base : ∀ e ∈ t, e.low.toNat + e.freq.toNat ≤ base
  disjoint : t.Pairwise (fun a b => a.low.toNat + a.freq.toNat ≤ b.low.toNat)

/-- Exactly one entry's interval holds a slot that some entry's interval holds (R138). -/
theorem lookupSlot_of_mem {base : Nat} {t : List CdfEntry} (ht : CdfListOk base t) {e : CdfEntry} (he : e ∈ t) {v : Nat}
    (h1 : e.low.toNat ≤ v) (h2 : v < e.low.toNat + e.freq.toNat) : lookupSlot t v = some e := by
  have hd := ht.disjoint
  clear ht
  induction t with
  | nil => simp at he
  | cons d ds ih =>
    rw [List.pairwise_cons] at hd
    rw [lookupSlot, List.find?_cons]
    rcases List.mem_cons.1 he with he | he
    · subst he; simp [h1, h2]
    · have := hd.1 e he
      have hn : ¬ v < d.low.toNat + d.freq.toNat := by omega
      simp only [hn, decide_false, Bool.and_false]
      exact ih he hd.2

theorem mem_of_lookupSlot {t : List CdfEntry} {v : Nat} {e : CdfEntry} (h : lookupSlot t v = some e) :
    e ∈ t ∧ e.low.toNat ≤ v ∧ v < e.low.toNat + e.freq.toNat := by
  have h1 := List.find?_some h
  simp only [Bool.and_eq_true, decide_eq_true_eq] at h1
  exact ⟨List.mem_of_find?_eq_some h, h1⟩

theorem mem_of_lookupSym {t : List CdfEntry} {b : Byte} {e : CdfEntry} (h : lookupSym t b = some e) :
    e ∈ t ∧ e.sym = b := by
  have h1 := List.find?_some h
  exact ⟨List.mem_of_find?_eq_some h, by simpa using h1⟩

/-- The symbol's entry, when symbols are distinct (R137). -/
theorem lookupSym_of_mem {t : List CdfEntry} (hn : (t.map (·.sym)).Nodup) {e : CdfEntry} (he : e ∈ t) :
    lookupSym t e.sym = some e := by
  induction t with
  | nil => simp at he
  | cons d ds ih =>
    rw [List.map_cons, List.nodup_cons] at hn
    rw [lookupSym, List.find?_cons]
    rcases List.mem_cons.1 he with he | he
    · subst he; simp
    · have : d.sym ≠ e.sym := fun c => hn.1 (c ▸ List.mem_map_of_mem he)
      simp only [beq_false_of_ne this]
      exact ih hn.2 he

/-- The coding step's result (R131): the state interval, the slot and the high part. -/
theorem codeStep_spec {base y : Nat} {e : CdfEntry} (hf : 1 ≤ e.freq.toNat) (hb : e.low.toNat + e.freq.toNat ≤ base)
    (h1 : e.freq.toNat ≤ y) (h2 : y < 256 * e.freq.toNat) :
    base ≤ codeStep base y e ∧ codeStep base y e < 256 * base ∧
      codeStep base y e % base = y % e.freq.toNat + e.low.toNat ∧
      codeStep base y e / base = y / e.freq.toNat := by
  have hm : y % e.freq.toNat < e.freq.toNat := Nat.mod_lt _ (by omega)
  have hq1 : 1 ≤ y / e.freq.toNat := by rw [Nat.le_div_iff_mul_le (by omega)]; omega
  have hq2 : y / e.freq.toNat < 256 := by rw [Nat.div_lt_iff_lt_mul (by omega)]; omega
  have hc : codeStep base y e = (y % e.freq.toNat + e.low.toNat) + base * (y / e.freq.toNat) := by
    rw [codeStep, Nat.mul_comm]; omega
  have hpos : 0 < base := by omega
  rw [hc]
  refine ⟨?_, ?_, ?_, ?_⟩
  · have : base * 1 ≤ base * (y / e.freq.toNat) := Nat.mul_le_mul_left _ hq1
    omega
  · have : base * (y / e.freq.toNat) ≤ base * 255 := Nat.mul_le_mul_left _ (by omega)
    omega
  · rw [Nat.add_mul_mod_self_left, Nat.mod_eq_of_lt (by omega)]
  · rw [Nat.add_mul_div_left _ _ hpos, Nat.div_eq_of_lt (by omega)]; omega

/-- "D undoes C" (R132). -/
theorem uncodeStep_codeStep {base y : Nat} {e : CdfEntry} (hf : 1 ≤ e.freq.toNat)
    (hb : e.low.toNat + e.freq.toNat ≤ base) (h1 : e.freq.toNat ≤ y) (h2 : y < 256 * e.freq.toNat) :
    uncodeStep base (codeStep base y e) e = y := by
  obtain ⟨-, -, hmod, hdiv⟩ := codeStep_spec hf hb h1 h2
  rw [uncodeStep, hmod, hdiv]
  have := Nat.div_add_mod' y e.freq.toNat
  omega

/-! ## Encoding -/

/-- One symbol of the encoder, when it has an entry (R139). -/
theorem encodeSymbol_spec {base : Nat} {t : List CdfEntry} (ht : CdfListOk base t) {b : Byte} {e : CdfEntry}
    (he : lookupSym t b = some e) {x : Nat} {em : List Byte} (hl : base ≤ x) :
    ∃ k, x / 256 ^ k < 256 * e.freq.toNat ∧ e.freq.toNat ≤ x / 256 ^ k ∧ (∀ d < k, 256 * e.freq.toNat ≤ x / 256 ^ d) ∧
      encodeSymbol base t b (x, em) =
        .done (codeStep base (x / 256 ^ k) e, em ++ (List.range k).map (fun t => lowByte (x / 256 ^ t))) := by
  obtain ⟨hm, -⟩ := mem_of_lookupSym he
  have hf := ht.freq_pos e hm
  have hb := ht.le_base e hm
  obtain ⟨k, hk, hlt, hge⟩ := shiftOut_spec hf (shiftRounds x) x (lt_pow_shiftRounds x)
  refine ⟨k, hlt, le_of_shifted (by omega) hge, hge, ?_⟩
  have hne : e.freq ≠ 0 := by
    intro h; rw [h] at hf; simp at hf
  simp only [encodeSymbol, he, hk, if_neg hne]

/-- What the encoder's loop leaves (R139, R140 a), and that the decoder's loop undoes it (R142). -/
theorem encodeSymbols_spec {base : Nat} (hpos : 0 < base) {t : List CdfEntry} (ht : CdfListOk base t) :
    ∀ {bs : List Byte} {x : Nat} {em : List Byte}, encodeSymbols base t bs = .done (x, em) →
      base ≤ x ∧ x < 256 * base ∧
        ∀ rest, decodeSymbols base t bs.length x (em.reverse ++ rest) = .done (bs, base, rest) := by
  intro bs
  induction bs with
  | nil =>
    intro x em h
    simp only [encodeSymbols, Result.done.injEq, Prod.mk.injEq] at h
    obtain ⟨rfl, rfl⟩ := h
    exact ⟨le_rfl, by omega, by simp [decodeSymbols]⟩
  | cons b bs ih =>
    intro x em h
    rw [encodeSymbols, Result.andThen_eq_done] at h
    obtain ⟨⟨x', em'⟩, h1, h2⟩ := h
    obtain ⟨hl, hu, hdec⟩ := ih h1
    cases he : lookupSym t b with
    | none => simp [encodeSymbol, he] at h2
    | some e =>
      obtain ⟨hm, hsym⟩ := mem_of_lookupSym he
      have hf := ht.freq_pos e hm
      have hb := ht.le_base e hm
      obtain ⟨k, hlt, hge, -, henc⟩ := encodeSymbol_spec ht he (em := em') hl
      rw [henc, Result.done.injEq, Prod.mk.injEq] at h2
      obtain ⟨rfl, rfl⟩ := h2
      obtain ⟨c1, c2, c3, c4⟩ := codeStep_spec hf hb hge hlt
      refine ⟨c1, c2, fun rest => ?_⟩
      have hslot := lookupSlot_of_mem ht hm (v := codeStep base (x' / 256 ^ k) e % base) (by rw [c3]; omega)
        (by rw [c3]; have := Nat.mod_lt (x' / 256 ^ k) (show 0 < e.freq.toNat by omega); omega)
      rw [List.length_cons, decodeSymbols, hslot]
      simp only
      rw [uncodeStep_codeStep hf hb hge hlt, List.reverse_append, List.append_assoc, shiftIn_shifted hl hu]
      have hn : ¬ (x' < base ∧ bs.length ≠ 0) := by omega
      rw [if_neg hn, hdec]
      simp [hsym]

/-- The encoder's loop is done exactly when every symbol has an entry; otherwise it raises ModelInvariantError (R139). -/
theorem encodeSymbols_cases {base : Nat} (hpos : 0 < base) {t : List CdfEntry} (ht : CdfListOk base t) (bs : List Byte) :
    ((∀ b ∈ bs, (lookupSym t b).isSome) ∧ ∃ x em, encodeSymbols base t bs = .done (x, em)) ∨
      ((∃ b ∈ bs, lookupSym t b = none) ∧ encodeSymbols base t bs = .raise .modelInvariant) := by
  induction bs with
  | nil => exact .inl ⟨by simp, base, [], rfl⟩
  | cons b bs ih =>
    rcases ih with ⟨h1, x, em, h2⟩ | ⟨⟨c, hc, hn⟩, h2⟩
    · obtain ⟨hl, -, -⟩ := encodeSymbols_spec hpos ht h2
      cases he : lookupSym t b with
      | none =>
        refine .inr ⟨⟨b, List.mem_cons_self, he⟩, ?_⟩
        simp [encodeSymbols, h2, encodeSymbol, he]
      | some e =>
        obtain ⟨k, -, -, -, henc⟩ := encodeSymbol_spec ht he (em := em) hl
        refine .inl ⟨?_, _, _, by rw [encodeSymbols, h2, Result.andThen_done, henc]⟩
        intro c hc
        rcases List.mem_cons.1 hc with hc | hc
        · subst hc; simp [he]
        · exact h1 c hc
    · exact .inr ⟨⟨c, List.mem_cons_of_mem _ hc, hn⟩, by rw [encodeSymbols, h2, Result.andThen_raise]⟩

/-- The emission list grows by at most `m` bytes a symbol when `base = 256^m` (R140 b). -/
theorem encodeSymbols_length {base m : Nat} (hbase : base = 256 ^ m) {t : List CdfEntry} (ht : CdfListOk base t) :
    ∀ {bs : List Byte} {x : Nat} {em : List Byte}, encodeSymbols base t bs = .done (x, em) →
      em.length ≤ bs.length * m := by
  have hpos : 0 < base := by rw [hbase]; exact Nat.pow_pos (by decide)
  intro bs
  induction bs with
  | nil =>
    intro x em h
    simp only [encodeSymbols, Result.done.injEq, Prod.mk.injEq] at h
    simp [← h.2]
  | cons b bs ih =>
    intro x em h
    rw [encodeSymbols, Result.andThen_eq_done] at h
    obtain ⟨⟨x', em'⟩, h1, h2⟩ := h
    obtain ⟨hl, hu, -⟩ := encodeSymbols_spec hpos ht h1
    cases he : lookupSym t b with
    | none => simp [encodeSymbol, he] at h2
    | some e =>
      have hf := ht.freq_pos e (mem_of_lookupSym he).1
      obtain ⟨k, -, -, hge, henc⟩ := encodeSymbol_spec ht he (em := em') hl
      rw [henc, Result.done.injEq, Prod.mk.injEq] at h2
      obtain ⟨-, rfl⟩ := h2
      have hk : k ≤ m := by
        by_contra hc
        have := hge m (by omega)
        have hx : x' < 256 * 256 ^ m := by rw [← hbase]; exact hu
        have : x' / 256 ^ m < 256 := by rw [Nat.div_lt_iff_lt_mul (Nat.pow_pos (by decide))]; exact hx
        omega
      have := ih h1
      simp only [List.length_append, List.length_map, List.length_range, List.length_cons, Nat.add_mul]
      omega

/-! ## The state word -/

theorem bytesValue_append (as bs : List Byte) :
    bytesValue (as ++ bs) = bs.foldl (fun x b => x * 256 + b.toNat) (bytesValue as) := by
  simp [bytesValue, List.foldl_append]

theorem stateBytes_eq (fb x : Nat) : stateBytes fb x = (List.range fb).map (fun t => lowByte (x / 256 ^ t)) := by
  simp [stateBytes, Nat.pow_mul]

@[simp] theorem stateBytes_length (fb x : Nat) : (stateBytes fb x).length = fb := by simp [stateBytes]

/-- The state word is read back as it was written (R89). -/
theorem bytesValue_stateBytes (fb x : Nat) (h : x < 256 ^ fb) : bytesValue (stateBytes fb x).reverse = x := by
  have key : ∀ k y, ((List.range k).map (fun t => lowByte (x / 256 ^ t))).reverse.foldl
      (fun x b => x * 256 + b.toNat) y = y * 256 ^ k + x % 256 ^ k := by
    intro k
    induction k with
    | zero => intro y; simp [Nat.mod_one]
    | succ k ih =>
      intro y
      rw [List.range_succ, List.map_append, List.reverse_append]
      simp only [List.map_cons, List.map_nil, List.reverse_cons, List.reverse_nil, List.nil_append,
        List.cons_append, List.foldl_cons]
      rw [ih]
      have h1 : (lowByte (x / 256 ^ k)).toNat = x / 256 ^ k % 256 := by simp [lowByte]
      have h2 : x % 256 ^ (k + 1) = x / 256 ^ k % 256 * 256 ^ k + x % 256 ^ k := by
        rw [Nat.mod_pow_succ]; ring
      rw [h1, h2, pow_succ]
      ring
  rw [bytesValue, stateBytes_eq, key]
  simp [Nat.mod_eq_of_lt h]

/-! ## The table in the state -/

theorem cdfPartition_low_le {base n total : Nat} {e : Nat → CdfEntry} (h : CdfPartition base n total e) {i j : Nat}
    (hij : i < j) (hj : j < n) : (e i).low.toNat + (e i).freq.toNat ≤ (e j).low.toNat := by
  obtain ⟨-, -, -, -, hstep, -⟩ := h
  induction j with
  | zero => omega
  | succ j ih =>
    have hs := hstep j (by omega) hj
    rcases Nat.lt_succ_iff_lt_or_eq.1 hij with h | h
    · have := ih h (by omega)
      omega
    · subst h; omega

theorem cdfPartition_le_total {base n total : Nat} {e : Nat → CdfEntry} (h : CdfPartition base n total e) {j : Nat}
    (hj : j < n) : (e j).low.toNat + (e j).freq.toNat ≤ total := by
  have h' := h
  obtain ⟨-, -, -, -, -, hlast, -⟩ := h
  have hl := hlast (by omega)
  by_cases hc : j = n - 1
  · subst hc; omega
  · have := cdfPartition_low_le h' (show j < n - 1 by omega) (by omega)
    omega

/-- The table of a state whose tables are as CDF left them is one the codec can run on (R115, R133). -/
theorem cdfListOk_of_inv {s : State} (h : CdfInv s) : CdfListOk s.cfg.base (s.cdfTable (s.n .clen)) := by
  have h' : CdfPartition s.cfg.base (s.n .clen) (s.n .total) s.cdftAt := h
  refine ⟨?_, ?_, ?_⟩
  · intro e he
    simp only [State.cdfTable, List.mem_map, List.mem_range] at he
    obtain ⟨j, hj, rfl⟩ := he
    exact h'.2.1 j hj
  · intro e he
    simp only [State.cdfTable, List.mem_map, List.mem_range] at he
    obtain ⟨j, hj, rfl⟩ := he
    exact le_trans (cdfPartition_le_total h' hj) h'.2.2.2.2.2.2.2
  · rw [State.cdfTable, List.pairwise_map, List.pairwise_iff_getElem]
    intro i j hi hj hij
    simp only [List.getElem_range]
    exact cdfPartition_low_le h' hij (by simpa using hj)

theorem cdfTable_nodup {s : State} (h : CdfInv s) : ((s.cdfTable (s.n .clen)).map (·.sym)).Nodup := by
  have h' : CdfPartition s.cfg.base (s.n .clen) (s.n .total) s.cdftAt := h
  rw [State.cdfTable, List.map_map, List.Nodup, List.pairwise_map, List.pairwise_iff_getElem]
  intro i j hi hj hij
  simp only [List.getElem_range, Function.comp_apply]
  exact h'.2.2.1 j (by simpa using hj) i hij

/-- No interval holds a slot at or beyond the total; exactly one holds any other (R115 a, R138). -/
theorem lookupSlot_eq_none_iff {s : State} (h : CdfInv s) (v : Nat) :
    lookupSlot (s.cdfTable (s.n .clen)) v = none ↔ s.n .total ≤ v := by
  have h' : CdfPartition s.cfg.base (s.n .clen) (s.n .total) s.cdftAt := h
  constructor
  · intro hn
    by_contra hv
    have hlt : v < s.n .total := by omega
    have hclen : 0 < s.n .clen := by
      by_contra h0
      have := h'.2.2.2.2.2.2.1 (by omega)
      omega
    -- the first entry whose upper end lies above the slot
    have hex : ∃ j, j < s.n .clen ∧ v < (s.cdftAt j).low.toNat + (s.cdftAt j).freq.toNat :=
      ⟨s.n .clen - 1, by omega, by have := h'.2.2.2.2.2.1 hclen; omega⟩
    classical
    let j := Nat.find hex
    obtain ⟨hj, hj2⟩ := Nat.find_spec hex
    have hlow : (s.cdftAt j).low.toNat ≤ v := by
      rcases Nat.eq_zero_or_pos j with h0 | hp
      · rw [h0, h'.2.2.2.1 hclen]; exact Nat.zero_le _
      · have hnot := Nat.find_min hex (show j - 1 < j by omega)
        have hs := h'.2.2.2.2.1 (j - 1) (by omega) (by omega)
        rw [show j - 1 + 1 = j by omega] at hs
        by_contra hc
        exact hnot ⟨by omega, by omega⟩
    have := List.find?_eq_none.1 hn (s.cdftAt j)
      (by simp only [State.cdfTable, List.mem_map, List.mem_range]; exact ⟨j, hj, rfl⟩)
    simp only [Bool.and_eq_true, decide_eq_true_eq] at this
    exact this ⟨hlow, hj2⟩
  · intro hv
    rw [lookupSlot, List.find?_eq_none]
    intro e he
    simp only [State.cdfTable, List.mem_map, List.mem_range] at he
    obtain ⟨j, hj, rfl⟩ := he
    have := cdfPartition_le_total h' hj
    simp only [Bool.and_eq_true, decide_eq_true_eq]
    omega

end Sys2Proof.Machine
end

