-- ==== Sys2Proof/Tests/Slice0.lean ====
section
/-! SUPPORT. Tests with expected results taken from the spec's vectors (95_test_vectors.md, named at each test) and rules, and
for every statement that has hypotheses a witness that meets them. -/

namespace Sys2Proof.Tests

open Sys2Proof.Machine

/-! ## Well-formedness: an ill-formed word for each check -/

theorem test_wf_refuses_reserved : (CmdWord.mk 1 1).wf = false := by decide
theorem test_wf_refuses_opcode_zero : (CmdWord.mk 0 0).wf = false := by decide
theorem test_wf_refuses_opcode_eleven : (CmdWord.mk 0 0x0B).wf = false := by decide
theorem test_wf_accepts_the_ends : (CmdWord.mk 0 1).wf = true ∧ (CmdWord.mk 0 0x0A).wf = true := by decide

/-! ## Decoding: the word of every row, written out from R80 and R81 (RSV 24 bits, OPC 8 bits) -/

theorem test_decode_freq : decode (0#24 ++ 0b00000001#8) = .ok .freq := by decide
theorem test_decode_cdf : decode (0#24 ++ 0b00000010#8) = .ok .cdf := by decide
theorem test_decode_renc : decode (0#24 ++ 0b00000011#8) = .ok .renc := by decide
theorem test_decode_rdec : decode (0#24 ++ 0b00000100#8) = .ok .rdec := by decide
theorem test_decode_htree : decode (0#24 ++ 0b00000101#8) = .ok .htree := by decide
theorem test_decode_hcode : decode (0#24 ++ 0b00000110#8) = .ok .hcode := by decide
theorem test_decode_henc : decode (0#24 ++ 0b00000111#8) = .ok .henc := by decide
theorem test_decode_hdec : decode (0#24 ++ 0b00001000#8) = .ok .hdec := by decide
theorem test_decode_bpack : decode (0#24 ++ 0b00001001#8) = .ok .bpack := by decide
theorem test_decode_bunpk : decode (0#24 ++ 0b00001010#8) = .ok .bunpk := by decide
theorem test_decode_reserved : decode (0x800000#24 ++ 0b00000001#8) = .error .reservedField := by decide
theorem test_decode_undefined : decode 0x000000FF = .error .undefinedOpcode := by decide
theorem test_decodeTableWord :
    decodeTableWord 32 5 = some .htree ∧ decodeTableWord 8 10 = some .bunpk ∧ decodeTableWord 40 0x100000001 = none := by
  decide
/-- No two rows of the table match the same word (R82). -/
theorem test_rows_disjoint : opcodeTable.Pairwise (fun a b => a.pattern ≠ b.pattern) ∧
    ∀ r ∈ opcodeTable, r.mask = 0xFFFFFFFF := by decide

/-! ## Helpers -/

/-- The reset state with some registers set. -/
def ready (rs : List (Reg × Nat)) : State := rs.foldl (fun s p => s.setNat p.1 p.2) State.reset

/-- The reset state of an instance with small capacities, with some registers set. -/
def tiny (symCap payCap bitsCap : Capacity) (rs : List (Reg × Nat)) : State :=
  rs.foldl (fun s p => s.setNat p.1 p.2) (State.resetWith ⟨.p16, symCap, payCap, bitsCap⟩)

/-- The outcome is a next state with the property. -/
def after (o : Host.Outcome State Fault Refusal) (p : State → Bool) : Bool :=
  match o with
  | .next t => p t
  | _ => false

theorem after_true {o : Host.Outcome State Fault Refusal} {p : State → Bool} (h : after o p = true) :
    ∃ t, o = .next t ∧ p t = true := by
  cases o with
  | next t => exact ⟨t, rfl, h⟩
  | fault f => cases h
  | refused r => cases h

/-- STATUS as the number the host reads. -/
def statusOf (t : State) : Nat := (t.readCtl .status).toNat

/-- "ab" in SYM with the table of V-R2. -/
def abTable : State :=
  ((ready [(.slen, 2), (.clen, 2), (.total, 2)]).putSym [0x61, 0x62]).putCdft [⟨0x61, 0, 1⟩, ⟨0x62, 1, 1⟩]

/-- The payload of V-R2 with its table. -/
def abPayload : State :=
  ((ready [(.nsym, 2), (.plen, 7), (.clen, 2), (.total, 2)]).putPay [1, 0, 0, 0, 1, 0, 0]).putCdft
    [⟨0x61, 0, 1⟩, ⟨0x62, 1, 1⟩]

/-- The tree of V-H5, "abc". -/
def abcTree : State :=
  (ready [(.nnode, 5), (.root, 4)]).putHt
    [⟨.leaf, 1, 0x61, 0, 0⟩, ⟨.leaf, 1, 0x62, 0, 0⟩, ⟨.leaf, 1, 0x63, 0, 0⟩, ⟨.internal, 2, 0, 0, 1⟩, ⟨.internal, 3, 0, 2, 3⟩]

/-- The single-symbol code `a` = "0" of V-H10. -/
def aCode (s : State) : State := s.putCt (codeTable [(0x61, [false])])

/-! ## One step of each command -/

/-- V-F1. -/
theorem test_freq_first_occurrence_order :
    after (exec .freq ((ready [(.slen, 11)]).putSym [0x61, 0x62, 0x72, 0x61, 0x63, 0x61, 0x64, 0x61, 0x62, 0x72, 0x61]))
      (fun t => t.n .ftlen == 5 && t.ftTable 5 == [⟨0x61, 5⟩, ⟨0x62, 2⟩, ⟨0x72, 2⟩, ⟨0x63, 1⟩, ⟨0x64, 1⟩] &&
        statusOf t == 0x00010002) = true := by decide
/-- R112, R207, R36: a buffer longer than SYM_CAP. -/
theorem test_freq_capacity :
    after (exec .freq (tiny 2 9 9 [(.slen, 3), (.ftlen, 7)])) (fun t => t.n .ftlen == 0 && statusOf t == 0x00010706) = true := by
  decide

/-- V-F5: a total of exactly `base`. -/
theorem test_cdf_total_base :
    after (exec .cdf ((ready [(.ftlen, 2)]).putFt [⟨0x61, 65535⟩, ⟨0x62, 1⟩]))
      (fun t => t.n .total == 65536 && t.cdfTable 2 == [⟨0x61, 0, 65535⟩, ⟨0x62, 65535, 1⟩] && statusOf t == 0x00020002) =
        true := by decide
/-- V-F5: one more. -/
theorem test_cdf_total_above_base :
    after (exec .cdf ((ready [(.ftlen, 2), (.clen, 3)]).putFt [⟨0x61, 65536⟩, ⟨0x62, 1⟩]))
      (fun t => t.n .total == 0 && t.n .clen == 0 && statusOf t == 0x00020506) = true := by decide

/-- V-R2. -/
theorem test_renc_ab :
    after (exec .renc abTable) (fun t => t.payload 7 == [1, 0, 0, 0, 1, 0, 0] && t.n .plen == 7 && t.n .nsym == 2 &&
      t.n .x == 0x010000 && statusOf t == 0x00030002) = true := by decide
/-- V-R11: a symbol without an entry. -/
theorem test_renc_no_entry :
    after (exec .renc (abTable.putSym [0x61, 0x7A])) (fun t => t.n .plen == 0 && statusOf t == 0x00030506) = true := by decide

/-- V-R2. -/
theorem test_rdec_ab :
    after (exec .rdec abPayload) (fun t => t.symbols 2 == [0x61, 0x62] && t.n .slen == 2 && t.n .x == 0x010000 &&
      t.n .pos == 7 && statusOf t == 0x00040002) = true := by decide
/-- V-R10: a slot equal to TOTAL. -/
theorem test_rdec_mismatch :
    after (exec .rdec (abPayload.putPay [1, 0, 2, 0, 1, 0, 0])) (fun t => t.n .slen == 0 && statusOf t == 0x00040206) = true := by
  decide

/-- V-H5: the tie between node 2 and node 3, and the left child. -/
theorem test_htree_abc :
    after (exec .htree ((ready [(.ftlen, 3)]).putFt [⟨0x61, 1⟩, ⟨0x62, 1⟩, ⟨0x63, 1⟩]))
      (fun t => t.n .nnode == 5 && t.n .root == 4 && t.htAt 2 == ⟨.leaf, 1, 0x63, 0, 0⟩ &&
        t.htAt 3 == ⟨.internal, 2, 0, 0, 1⟩ && t.htAt 4 == ⟨.internal, 3, 0, 2, 3⟩ && statusOf t == 0x00050002) = true := by
  decide
/-- V-F5 under HTREE: a symbol twice. -/
theorem test_htree_symbol_twice :
    after (exec .htree ((ready [(.ftlen, 2), (.root, 4)]).putFt [⟨0x61, 1⟩, ⟨0x61, 2⟩]))
      (fun t => t.n .nnode == 0 && t.n .root == 0 && statusOf t == 0x00050506) = true := by decide

/-- V-H5: c = "0", a = "10", b = "11", and no other codeword. -/
theorem test_hcode_abc :
    after (exec .hcode abcTree) (fun t => codeword (t.ctOf 0x61) == [true, false] && codeword (t.ctOf 0x62) == [true, true] &&
      codeword (t.ctOf 0x63) == [false] && t.ctOf 0x64 == ⟨0, 0⟩ && statusOf t == 0x00060002) = true := by decide
/-- R86: the first bit of a codeword is the most significant of the 255. -/
theorem test_hcode_entry_bits :
    after (exec .hcode abcTree) (fun t => (t.ctOf 0x61).code == 1#255 <<< 254 && (t.ctOf 0x61).len == 2) = true := by decide

/-- V-H5. -/
theorem test_henc_abc :
    after (exec .henc { (ready [(.slen, 3)]).putSym [0x61, 0x62, 0x63] with
        ct := ⟨[(0x61, ctOfPath [true, false]), (0x62, ctOfPath [true, true]), (0x63, ctOfPath [false])], 0⟩ })
      (fun t => t.bitString 5 == [true, false, true, true, false] && t.n .blen == 5 && t.n .pad == 3 &&
        t.payload 2 == [0x03, 0xB0] && t.n .plen == 2 && t.n .nsym == 3 && statusOf t == 0x00070002) = true := by decide
/-- V-H11: a symbol without a codeword. -/
theorem test_henc_no_codeword :
    after (exec .henc { (ready [(.slen, 1)]).putSym [0x7A] with ct := ⟨[(0x7A, ctAbsent)], 0⟩ })
      (fun t => t.n .plen == 0 && statusOf t == 0x00070506) = true := by decide

/-- V-H10, the single-symbol code: `07 00` is "a". -/
theorem test_hdec_single :
    after (exec .hdec (aCode ((ready [(.nsym, 1), (.plen, 2)]).putPay [0x07, 0x00])))
      (fun t => t.symAt 0 == 0x61 && t.n .slen == 1 && t.n .blen == 1 && t.n .pad == 7 && statusOf t == 0x00080002) = true := by
  decide
/-- V-H10: `06 00` with NSYM = 1 yields a second symbol. -/
theorem test_hdec_surplus :
    after (exec .hdec (aCode ((ready [(.nsym, 1), (.plen, 2)]).putPay [0x06, 0x00])))
      (fun t => t.n .slen == 0 && statusOf t == 0x00080606) = true := by decide
/-- P5: STATUS `0x00080406` is HDEC's MalformedCodeError, code 4 (R200). -/
theorem test_malformed_status : ((Status.started Instr.hdec.opc).finished ErrKind.malformedCode.code).word = 0x00080406 := by
  decide

/-- V-B1: nine bits. -/
theorem test_bpack_nine :
    after (exec .bpack ((ready [(.blen, 9)]).putBits [true, false, true, true, false, false, true, true, true]))
      (fun t => t.payload 3 == [0x07, 0xB3, 0x80] && t.n .plen == 3 && t.n .pad == 7 && statusOf t == 0x00090002) = true := by
  decide
/-- R192, R207: no room for the packed form. -/
theorem test_bpack_capacity :
    after (exec .bpack (tiny 9 1 9 [(.blen, 1), (.plen, 5)])) (fun t => t.n .plen == 0 && statusOf t == 0x00090706) = true := by
  decide

/-- V-B1: `03 B0`. -/
theorem test_bunpk :
    after (exec .bunpk ((ready [(.plen, 2)]).putPay [0x03, 0xB0]))
      (fun t => t.bitString 5 == [true, false, true, true, false] && t.n .blen == 5 && t.n .pad == 3 &&
        statusOf t == 0x000A0002) = true := by decide
/-- V-B2: `07` alone claims more filler bits than there are. -/
theorem test_bunpk_negative_length :
    after (exec .bunpk ((ready [(.plen, 1)]).putPay [0x07])) (fun t => t.n .blen == 0 && statusOf t == 0x000A0106) = true := by
  decide

/-- Program placement: the next step after reset runs the placed command (R234: BUNPK raises TruncatedStreamError). -/
theorem test_step_runs_placed_command :
    after (step (State.reset.withFetchWord 32 10)) (fun t => statusOf t == 0x000A0306 && t.inputs == []) = true := by decide
/-- R104: after the error of BUNPK the second command is not issued. -/
theorem test_pseudo_stops :
    after (step { State.reset with inputs := [.issue [.bunpk, .freq]] })
      (fun t => statusOf t == 0x000A0306 && t.inputs == []) = true := by decide

/-! ## Witnesses: for every statement that has hypotheses, states and operands that meet them -/

/-- CodeEntryHoldsItsCodeword: the longest codeword, and the bits at both ends. -/
theorem witness_codeEntry : (List.replicate 255 true).length ≤ 255 ∧ ([] : List Bool).length ≤ 255 ∧ 0 < 255 ∧ 254 < 255 :=
  ⟨by rw [List.length_replicate], by simp, by decide, by decide⟩

/-- StepRunsTheDecodedCommand: an idle state and a command word, and a table word. -/
theorem witness_stepRuns : State.reset.status.busy = false ∧ decode 3 = .ok .renc ∧ decodeTableWord 32 10 = some .bunpk := by
  decide

/-- IllegalWordChangesStatusOnly: a word for each way to be illegal, at the ends of the ranges. -/
theorem witness_illegalWord : State.reset.status.busy = false ∧ (0x00000101 : Word).extractLsb' 8 24 ≠ 0 ∧
    (0 : Word).extractLsb' 0 8 = 0 ∧ 10 < ((0x0B : Word).extractLsb' 0 8).toNat ∧
    10 < ((0xFF : Word).extractLsb' 0 8).toNat := by decide

/-- HostWritesRespectReadOnly: a register of each kind, and the last entry of CDFT and HT. -/
theorem witness_hostWrites : State.reset.status.busy = false ∧ Reg.x ∈ [Reg.clen, .total, .x, .pos, .pad, .nnode, .root] ∧
    Reg.slen ∈ [Reg.slen, .nsym, .plen, .ftlen, .blen] ∧ 255 < 256 ∧ 510 < 511 := by decide

/-- HostWritesOfStatusAndCfgAreIgnored. -/
theorem witness_controlWrites : State.reset.status.busy = false := by decide

/-- HostElementWritesReadBack: the last entry of FT, the first index beyond it, and the last byte of PAY. -/
theorem witness_hostElements : State.reset.status.busy = false ∧
    (Elem.ft ⟨0, 0⟩).space ∈ [SpaceId.sym, .pay, .bits, .ft, .ct] ∧ 255 < spaceSize State.reset.cfg (Elem.ft ⟨0, 0⟩).space ∧
    spaceSize State.reset.cfg (Elem.ft ⟨0, 0⟩).space ≤ 256 ∧
    4194303 < spaceSize State.reset.cfg (Elem.pay 0).space := by decide

/-- HostAccessWhileBusyIsRefused: a busy state and an access. -/
theorem witness_hostBusy : ({ State.reset with status := ⟨true, false, false, 0, 3⟩ } : State).status.busy = true ∧
    HostAction.getr .x ≠ .readCtl .status ∧ HostAction.getr .x ≠ .reset ∧ HostAction.getr .x ≠ .issue [] := by decide

/-- HostReadsChangeNothing: an idle state and the ends of a memory. -/
theorem witness_hostReads : State.reset.status.busy = false ∧ 0 < spaceSize State.reset.cfg .ct ∧
    255 < spaceSize State.reset.cfg .ct ∧ 510 < spaceSize State.reset.cfg .ht := by decide

/-- PseudoInstructionStopsAtFirstError: a command that ends with an error and one that does not, from an idle state. -/
theorem witness_pseudo : State.reset.status.busy = false ∧
    (∃ t, exec .bunpk State.reset = .next t ∧ t.status.err = true) ∧
    ∃ t, exec .freq State.reset = .next t ∧ t.status.err = false := by
  refine ⟨by decide, ?_, ?_⟩
  · simpa using after_true (p := fun t => t.status.err) (o := exec .bunpk State.reset) (by decide)
  · simpa using after_true (p := fun t => !t.status.err) (o := exec .freq State.reset) (by decide)

/-- CommandsStraightAfterReset: the reset state, with room for BPACK's header. -/
theorem witness_afterReset : (∀ r, State.reset.reg r = 0) ∧ 1 ≤ State.reset.cfg.payCap.val := by
  refine ⟨fun r => ?_, by decide⟩
  cases r <;> decide

/-- EveryCommandLeavesItsStatus, ConfigurationIsConstant and the frames: every command answers a next state on reset. -/
theorem witness_everyCommand : ∀ i, ∃ t, exec i State.reset = .next t := by
  have h : ∀ i, after (exec i State.reset) (fun _ => true) = true := by intro i; cases i <;> decide
  intro i
  obtain ⟨t, ht, -⟩ := after_true (h i)
  exact ⟨t, ht⟩

/-- FreqCountsTheBuffer: an empty buffer, "ab", and the longest buffer that fits. -/
theorem witness_freq : State.reset.n .slen ≤ State.reset.cfg.symCap.val ∧ abTable.n .slen ≤ abTable.cfg.symCap.val ∧
    (ready [(.slen, 1048576)]).n .slen ≤ (ready [(.slen, 1048576)]).cfg.symCap.val := by decide

/-- FreqCapacityError: one symbol too many. -/
theorem witness_freqCapacity : (ready [(.slen, 1048577)]).cfg.symCap.val < (ready [(.slen, 1048577)]).n .slen := by decide

/-- The frequency table of V-F5 whose counts sum to `base`. -/
def fullTable : State := (ready [(.ftlen, 2)]).putFt [⟨0x61, 65535⟩, ⟨0x62, 1⟩]

/-- CdfBuildsThePartition: an empty table, and a table whose counts sum to `base`. -/
theorem witness_cdf : (FtOk (State.reset.n .ftlen) State.reset.ftAt ∧
      countBelow State.reset.ftAt (State.reset.n .ftlen) ≤ State.reset.cfg.base) ∧
    FtOk (fullTable.n .ftlen) fullTable.ftAt ∧ countBelow fullTable.ftAt (fullTable.n .ftlen) ≤ fullTable.cfg.base := by
  unfold FtOk; decide

theorem abTable_inv : CdfInv abTable := by unfold CdfInv CdfPartition; decide

/-- CdfIntervalsHaveNoGapAndNoOverlap: the table of V-R2; the last slot of the range and the first beyond it. -/
theorem witness_cdfIntervals : CdfInv abTable ∧ 1 < abTable.n .total ∧ abTable.n .total ≤ 2 := ⟨abTable_inv, by decide⟩

/-- CdfRejectsEveryOtherTable: a zero count, a total above `base`, and too many entries (V-F5). -/
theorem witness_cdfRejects :
    (∀ s, s = (ready [(.ftlen, 1)]).putFt [⟨0x61, 0⟩] ∨ s = (ready [(.ftlen, 2)]).putFt [⟨0x61, 65536⟩, ⟨0x62, 1⟩] →
      ¬ (FtOk (s.n .ftlen) s.ftAt ∧ countBelow s.ftAt (s.n .ftlen) ≤ s.cfg.base)) ∧
    ¬ FtOk ((ready [(.ftlen, 257)]).n .ftlen) (ready [(.ftlen, 257)]).ftAt := by
  refine ⟨?_, fun h => absurd h.1 (by decide)⟩
  rintro s (rfl | rfl) <;> unfold FtOk <;> decide

/-- EmptyBufferTouchesNoCodec: the reset state. -/
theorem witness_empty : State.reset.reg .slen = 0 ∧ State.reset.reg .nsym = 0 := by decide

/-- The entries, states and byte counts of the encoder's trace of V-R2. -/
def abEntry (i : Nat) : CdfEntry := if i = 0 then ⟨0x61, 0, 1⟩ else ⟨0x62, 1, 1⟩
def abStates (i : Nat) : Nat := if i = 1 then 0x010001 else 0x010000
def abBytes (_ : Nat) : Nat := 2

/-- RencWritesTheTracedPayload: V-R2. -/
theorem witness_renc : CdfInv abTable ∧ 1 ≤ abTable.n .slen ∧ abTable.n .slen ≤ abTable.cfg.symCap.val ∧
    abTable.n .total = abTable.n .slen ∧
    (∀ i < abTable.n .slen, ∃ j < abTable.n .clen, abEntry i = abTable.cdftAt j ∧ (abEntry i).sym = abTable.symAt i) ∧
    EncodeTrace abTable.cfg.base (abTable.n .slen) abEntry abStates abBytes ∧
    abTable.cfg.fb + bytesBefore abBytes (abTable.n .slen) ≤ abTable.cfg.payCap.val :=
  ⟨abTable_inv, by unfold EncodeTrace; decide⟩

/-- RencCompletesWithinItsBounds: V-R2, with room for the longest payload. -/
theorem witness_rencBounds : CdfInv abTable ∧ 1 ≤ abTable.n .slen ∧ abTable.n .slen ≤ abTable.cfg.symCap.val ∧
    abTable.n .total = abTable.n .slen ∧
    (∀ i < abTable.n .slen, ∃ j < abTable.n .clen, (abTable.cdftAt j).sym = abTable.symAt i) ∧
    abTable.cfg.fb + abTable.n .slen * (abTable.cfg.p / 8) ≤ abTable.cfg.payCap.val := ⟨abTable_inv, by decide⟩

/-- "ab" with the table of V-R2, in an instance whose payload memory is one byte too small. -/
def abTight : State :=
  ((tiny 2 6 9 [(.slen, 2), (.clen, 2), (.total, 2)]).putSym [0x61, 0x62]).putCdft [⟨0x61, 0, 1⟩, ⟨0x62, 1, 1⟩]

/-- RencErrorsInOrder: a buffer too long, a TOTAL that differs, a symbol without an entry, a payload too long. -/
theorem witness_rencErrors : CdfInv abTight ∧ 1 ≤ abTight.n .slen ∧
    (abTight.setNat .slen 3).cfg.symCap.val < (abTight.setNat .slen 3).n .slen ∧
    (abTight.setNat .slen 1).n .total ≠ (abTight.setNat .slen 1).n .slen ∧
    (∃ i < (abTight.putSym [0x61, 0x7A]).n .slen, ∀ j < (abTight.putSym [0x61, 0x7A]).n .clen,
      ((abTight.putSym [0x61, 0x7A]).cdftAt j).sym ≠ (abTight.putSym [0x61, 0x7A]).symAt i) ∧
    abTight.n .slen ≤ abTight.cfg.symCap.val ∧ abTight.n .total = abTight.n .slen ∧
    (∀ i < abTight.n .slen, ∃ j < abTight.n .clen, abEntry i = abTight.cdftAt j ∧ (abEntry i).sym = abTight.symAt i) ∧
    EncodeTrace abTight.cfg.base (abTight.n .slen) abEntry abStates abBytes ∧
    abTight.cfg.payCap.val < abTight.cfg.fb + bytesBefore abBytes (abTight.n .slen) := by
  unfold CdfInv CdfPartition EncodeTrace; decide

/-- The decoder's read positions of V-R2. -/
def abPositions (i : Nat) : Nat := 3 + 2 * i

theorem abPayload_inv : CdfInv abPayload := by unfold CdfInv CdfPartition; decide

/-- RdecFollowsTheTrace: V-R2. -/
theorem witness_rdec : CdfInv abPayload ∧ 1 ≤ abPayload.n .nsym ∧ abPayload.n .nsym ≤ abPayload.cfg.symCap.val ∧
    abPayload.n .plen ≤ abPayload.cfg.payCap.val ∧ abPayload.n .total = abPayload.n .nsym ∧
    abPayload.cfg.fb ≤ abPayload.n .plen ∧ (∀ i < abPayload.n .nsym, ∃ j < abPayload.n .clen, abEntry i = abPayload.cdftAt j) ∧
    DecodeTrace abPayload.cfg.base abPayload.cfg.fb (abPayload.n .nsym) (abPayload.n .plen) abPayload.payAt abEntry abStates
      abPositions (abPayload.n .nsym) := ⟨abPayload_inv, by unfold DecodeTrace; decide⟩

/-- The payload of V-R2 cut after its state word, and one whose first slot is TOTAL. -/
def abCut : State := abPayload.setNat .plen 3
def abBadSlot : State := abPayload.putPay [1, 0, 2, 0, 1, 0, 0]

/-- RdecErrorsInOrder: each clause. -/
theorem witness_rdecErrors : CdfInv abCut ∧ CdfInv abBadSlot ∧ 1 ≤ abCut.n .nsym ∧
    (abCut.setNat .plen 4194305).cfg.payCap.val < (abCut.setNat .plen 4194305).n .plen ∧
    (abCut.setNat .nsym 3).n .total ≠ (abCut.setNat .nsym 3).n .nsym ∧
    (abCut.setNat .plen 2).n .plen < (abCut.setNat .plen 2).cfg.fb ∧
    (abBadSlot.n .total = abBadSlot.n .nsym ∧ abBadSlot.cfg.fb ≤ abBadSlot.n .plen ∧ 0 < abBadSlot.n .nsym ∧
      DecodeTrace abBadSlot.cfg.base abBadSlot.cfg.fb (abBadSlot.n .nsym) (abBadSlot.n .plen) abBadSlot.payAt abEntry
        (fun _ => 0x010002) abPositions 0 ∧ abBadSlot.n .total ≤ 0x010002 % abBadSlot.cfg.base) ∧
    (abCut.n .total = abCut.n .nsym ∧ abCut.cfg.fb ≤ abCut.n .plen ∧
      (∃ j < abCut.n .clen, abEntry 0 = abCut.cdftAt j) ∧
      DecodeTrace abCut.cfg.base abCut.cfg.fb (abCut.n .nsym) (abCut.n .plen) abCut.payAt abEntry abStates abPositions 0 ∧
      (abEntry 0).low.toNat ≤ abStates 0 % abCut.cfg.base ∧
      abStates 0 % abCut.cfg.base < (abEntry 0).low.toNat + (abEntry 0).freq.toNat ∧ 0 + 1 < abCut.n .nsym ∧
      ∀ d ≤ abCut.n .plen - abPositions 0, refill abCut.payAt (abStates 0 / abCut.cfg.base * (abEntry 0).freq.toNat +
        abStates 0 % abCut.cfg.base - (abEntry 0).low.toNat) (abPositions 0) d < abCut.cfg.base) := by
  refine ⟨by unfold CdfInv CdfPartition; decide, by unfold CdfInv CdfPartition; decide, by decide, by decide, by decide,
    by decide, ⟨by decide, by decide, by decide, by unfold DecodeTrace; decide, by decide⟩,
    ⟨by decide, by decide, by decide, by unfold DecodeTrace; decide, by decide, by decide, by decide, by decide⟩⟩

/-- RansRoundTrip: RENC on V-R2, and its own end state as the state that holds the payload. -/
theorem witness_ransRoundTrip : ∃ s t u, CdfInv s ∧ 1 ≤ s.n .slen ∧ exec .renc s = .next t ∧ t.status.err = false ∧
    SamePayload t u ∧ SameCdf t u := by
  obtain ⟨t, h, he⟩ := after_true (p := fun t => !t.status.err) (o := exec .renc abTable) (by decide)
  exact ⟨abTable, t, t, abTable_inv, by decide, h, by simpa using he, ⟨rfl, rfl, rfl, fun _ _ => rfl⟩,
    ⟨rfl, rfl, fun _ _ => rfl⟩⟩

/-- RansCompressThenDecompress: one symbol, and as many as `base`. -/
theorem witness_ransCompress : ∀ s, s = ready [(.slen, 1)] ∨ s = ready [(.slen, 65536)] →
    1 ≤ s.n .slen ∧ s.n .slen ≤ s.cfg.symCap.val ∧ s.n .slen ≤ s.cfg.base ∧
      s.cfg.fb + s.n .slen * (s.cfg.p / 8) ≤ s.cfg.payCap.val := by
  rintro s (rfl | rfl) <;> decide

/-- HtreeBuildsTheGreedyTree: one entry, and two. -/
theorem witness_htree : ∀ s, s = (ready [(.ftlen, 1)]).putFt [⟨0x61, 1⟩] ∨ s = fullTable →
    1 ≤ s.n .ftlen ∧ FtOk (s.n .ftlen) s.ftAt ∧ countBelow s.ftAt (s.n .ftlen) < 2 ^ 32 := by
  rintro s (rfl | rfl) <;> unfold FtOk <;> decide

/-- HtreeEmptyAndRejected: an empty table, and counts that sum to `2^32`. -/
theorem witness_htreeRejects : State.reset.n .ftlen = 0 ∧
    ¬ countBelow ((ready [(.ftlen, 2)]).putFt [⟨0x61, 0xFFFFFFFF⟩, ⟨0x62, 1⟩]).ftAt
        (((ready [(.ftlen, 2)]).putFt [⟨0x61, 0xFFFFFFFF⟩, ⟨0x62, 1⟩]).n .ftlen) < 2 ^ 32 := by decide

/-- A single Leaf (V-H3). -/
def aLeaf : State := (ready [(.nnode, 1), (.root, 0)]).putHt [⟨.leaf, 1, 0x61, 0, 0⟩]

theorem aLeaf_tree : HuffmanTree 1 aLeaf.htAt := by
  unfold HuffmanTree ChildOf; exact ⟨by decide, by decide, by decide, by decide⟩

theorem abcTree_tree : HuffmanTree 3 abcTree.htAt := by
  unfold HuffmanTree ChildOf; exact ⟨by decide, by decide, by decide, by decide⟩

/-- HcodeAssignsThePaths: a single Leaf, the tree of V-H5 with a path to a Leaf, and no tree. -/
theorem witness_hcode :
    (aLeaf.n .nnode = 2 * 1 - 1 ∧ aLeaf.n .root = 2 * 1 - 2 ∧ HuffmanTree 1 aLeaf.htAt) ∧
    (abcTree.n .nnode = 2 * 3 - 1 ∧ abcTree.n .root = 2 * 3 - 2 ∧ HuffmanTree 3 abcTree.htAt ∧
      walk abcTree.htAt 4 [true, false] = some 0 ∧ (abcTree.htAt 0).tag = .leaf) ∧ State.reset.n .nnode = 0 :=
  ⟨⟨by decide, by decide, aLeaf_tree⟩, ⟨by decide, by decide, abcTree_tree, by decide, by decide⟩, by decide⟩

/-- HcodeCodeIsPrefixFreeAndComplete: the tree of V-H5, made by HTREE, and HCODE's answer on it. -/
theorem witness_hcodeCode : ∃ s0 s t, exec .htree s0 = .next s ∧ s.status.err = false ∧ s.n .nnode = 2 * 3 - 1 ∧
    s.n .root = 2 * 3 - 2 ∧ HuffmanTree 3 s.htAt ∧ exec .hcode s = .next t := by
  obtain ⟨s, h, hs⟩ := after_true (o := exec .htree ((ready [(.ftlen, 3)]).putFt [⟨0x61, 1⟩, ⟨0x62, 1⟩, ⟨0x63, 1⟩]))
    (p := fun s => !s.status.err && s.n .nnode == 5 && s.n .root == 4 &&
      ((List.range 5).all fun q => s.htAt q == abcTree.htAt q) && after (exec .hcode s) fun _ => true) (by decide)
  simp only [Bool.and_eq_true, beq_iff_eq, List.all_eq_true, List.mem_range, Bool.not_eq_true'] at hs
  obtain ⟨⟨⟨⟨h1, h2⟩, h3⟩, h4⟩, h5⟩ := hs
  obtain ⟨t, h6, -⟩ := after_true h5
  exact ⟨_, s, t, h, h1, h2, h3, abcTree_tree.congr h4 (by decide), h6⟩

/-- HencConcatenatesTheCodewords: "abc" with the code of V-H5. -/
def abcCode : State :=
  { (ready [(.slen, 3)]).putSym [0x61, 0x62, 0x63] with
    ct := ⟨[(0x61, ctOfPath [true, false]), (0x62, ctOfPath [true, true]), (0x63, ctOfPath [false])], 0⟩ }

theorem witness_henc : 1 ≤ abcCode.n .slen ∧ abcCode.n .slen ≤ abcCode.cfg.symCap.val ∧
    (∀ i < abcCode.n .slen, (abcCode.ctOf (abcCode.symAt i)).len ≠ 0) ∧
    [true, false, true, true, false] = (abcCode.symbols (abcCode.n .slen)).flatMap (fun b => codeword (abcCode.ctOf b)) ∧
    [true, false, true, true, false].length ≤ abcCode.cfg.bitsCap.val ∧
    1 + ([true, false, true, true, false].length + 7) / 8 ≤ abcCode.cfg.payCap.val := by decide

/-- The same in an instance with room for the given numbers of symbols, bytes and bits. -/
def abcIn (symCap payCap bitsCap : Capacity) : State := { abcCode with cfg := ⟨.p16, symCap, payCap, bitsCap⟩ }

/-- HencErrorsInOrder: a buffer too long; a second symbol without a codeword; a bit memory full after four of five bits; a
payload memory one byte too small. -/
theorem witness_hencErrors : 1 ≤ (abcIn 2 9 9).n .slen ∧ (abcIn 2 9 9).cfg.symCap.val < (abcIn 2 9 9).n .slen ∧
    (1 < ({ abcIn 3 9 9 with ct := ⟨[(0x61, ctOfPath [true]), (0x62, ctAbsent)], 0⟩ } : State).n .slen ∧
      (({ abcIn 3 9 9 with ct := ⟨[(0x61, ctOfPath [true]), (0x62, ctAbsent)], 0⟩ } : State).ctOf 0x61).len ≠ 0 ∧
      (({ abcIn 3 9 9 with ct := ⟨[(0x61, ctOfPath [true]), (0x62, ctAbsent)], 0⟩ } : State).ctOf 0x62).len = 0) ∧
    (((abcIn 3 9 4).symbols 2).map fun b => ((abcIn 3 9 4).ctOf b).len.toNat).sum ≤ (abcIn 3 9 4).cfg.bitsCap.val ∧
    (abcIn 3 9 4).cfg.bitsCap.val < (((abcIn 3 9 4).symbols (2 + 1)).map fun b => ((abcIn 3 9 4).ctOf b).len.toNat).sum ∧
    (((abcIn 3 1 5).symbols 3).map fun b => ((abcIn 3 1 5).ctOf b).len.toNat).sum ≤ (abcIn 3 1 5).cfg.bitsCap.val ∧
    (abcIn 3 1 5).cfg.payCap.val <
      1 + ((((abcIn 3 1 5).symbols 3).map fun b => ((abcIn 3 1 5).ctOf b).len.toNat).sum + 7) / 8 := by decide

theorem aCode_a (s : State) : (aCode s).ctOf 0x61 = ctOfPath [false] :=
  (State.putCt_ctAt s (codeTable [(0x61, [false])]) (i := 0x61) (by simp)).trans
    (codeTable_of_mem (cs := [(0x61, [false])]) (b := 0x61) (p := [false]) (by simp) (by simp))

theorem aCode_other (s : State) {b : Byte} (h : b ≠ 0x61) : (aCode s).ctOf b = ctAbsent :=
  (State.putCt_ctAt s (codeTable [(0x61, [false])]) (i := b.toNat) (by simpa using b.isLt)).trans
    (codeTable_of_not_mem (by simpa using h))

/-- The single-symbol code is prefix-free. -/
theorem aCode_prefixFree (s : State) : PrefixFree (aCode s).ctOf := by
  have key : ∀ b : Byte, ((aCode s).ctOf b).len ≠ 0 → b = 0x61 := by
    intro b h
    by_contra hb
    rw [aCode_other s hb] at h
    exact h rfl
  intro a b hab ha hb
  exact absurd ((key a ha).trans (key b hb).symm) hab

/-- A payload under the single-symbol code of V-H10. -/
def aPayload (nsym plen : Nat) (bytes : List Byte) : State := aCode ((ready [(.nsym, nsym), (.plen, plen)]).putPay bytes)

/-- HdecDecodesTheCodewords: `07 00` holds "a". -/
theorem witness_hdec : ∃ s, s = aPayload 1 2 [0x07, 0x00] ∧ 1 ≤ s.n .nsym ∧ s.n .nsym ≤ s.cfg.symCap.val ∧ 1 ≤ s.n .plen ∧
    s.n .plen ≤ s.cfg.payCap.val ∧ (s.payAt 0).toNat ≤ 7 ∧ 1 + (s.payAt 0).toNat = 8 * (s.n .plen - 1) ∧
    1 ≤ s.cfg.bitsCap.val ∧ PrefixFree s.ctOf ∧ [(0x61 : Byte)].length = s.n .nsym ∧
    (∀ c ∈ [(0x61 : Byte)], (s.ctOf c).len ≠ 0) ∧
    (List.range 1).map (streamBit s.payAt) = [(0x61 : Byte)].flatMap (fun c => codeword (s.ctOf c)) := by
  refine ⟨_, rfl, by decide, by decide, by decide, by decide, by decide, by decide, by decide, aCode_prefixFree _, by decide,
    ?_, ?_⟩
  · intro c hc
    rw [List.mem_singleton] at hc
    subst hc
    rw [aPayload, aCode_a]
    decide
  · rw [List.flatMap_cons, aPayload, aCode_a]
    decide

/-- HdecErrorsInOrder, the checks before the loop: NSYM, PLEN, no byte, a header above 7, more filler than bits, too many bits. -/
theorem witness_hdecChecks :
    (∀ s, s = aPayload 1048577 2 [7, 0] → 1 ≤ s.n .nsym ∧ s.cfg.symCap.val < s.n .nsym) ∧
    (∀ s, s = aPayload 1 4194305 [7, 0] → s.n .nsym ≤ s.cfg.symCap.val ∧ s.cfg.payCap.val < s.n .plen) ∧
    (∀ s, s = aPayload 1 0 [] → s.n .plen ≤ s.cfg.payCap.val ∧ s.n .plen = 0) ∧
    (∀ s, s = aPayload 1 2 [8, 0] → 1 ≤ s.n .plen ∧ 7 < (s.payAt 0).toNat) ∧
    (∀ s, s = aPayload 1 1 [1] → 1 ≤ s.n .plen ∧ 8 * (s.n .plen - 1) < (s.payAt 0).toNat) ∧
    (∀ s, s = { aPayload 1 2 [7, 0] with cfg := ⟨.p16, 9, 9, 0⟩ } → (s.payAt 0).toNat ≤ 7 ∧
      1 + (s.payAt 0).toNat = 8 * (s.n .plen - 1) ∧ s.cfg.bitsCap.val < 1) := by
  refine ⟨?_, ?_, ?_, ?_, ?_, ?_⟩ <;> rintro s rfl <;> decide

/-- HdecErrorsInOrder, the loop (V-H10): `06 00` has two codewords for NSYM = 1; `07 80` has a bit no codeword starts with; `07 00`
has one codeword for NSYM = 2. -/
theorem witness_hdecLoop :
    (∃ s, s = aPayload 1 2 [0x06, 0x00] ∧ 2 + (s.payAt 0).toNat = 8 * (s.n .plen - 1) ∧ PrefixFree s.ctOf ∧
      (List.range 2).map (streamBit s.payAt) = [(0x61 : Byte), 0x61].flatMap (fun c => codeword (s.ctOf c)) ++ [] ∧
      s.n .nsym < [(0x61 : Byte), 0x61].length) ∧
    (∃ s, s = aPayload 1 2 [0x07, 0x80] ∧ 1 + (s.payAt 0).toNat = 8 * (s.n .plen - 1) ∧ PrefixFree s.ctOf ∧
      (List.range 1).map (streamBit s.payAt) = ([] : List Byte).flatMap (fun c => codeword (s.ctOf c)) ++ [true] ∧
      ∀ c, (s.ctOf c).len ≠ 0 → ¬ codeword (s.ctOf c) <+: [true]) ∧
    (∃ s, s = aPayload 2 2 [0x07, 0x00] ∧ 1 + (s.payAt 0).toNat = 8 * (s.n .plen - 1) ∧ PrefixFree s.ctOf ∧
      (List.range 1).map (streamBit s.payAt) = [(0x61 : Byte)].flatMap (fun c => codeword (s.ctOf c)) ++ [] ∧
      [(0x61 : Byte)].length < s.n .nsym) := by
  refine ⟨⟨_, rfl, by decide, aCode_prefixFree _, ?_, by decide⟩, ⟨_, rfl, by decide, aCode_prefixFree _, by decide, ?_⟩,
    ⟨_, rfl, by decide, aCode_prefixFree _, ?_, by decide⟩⟩
  · rw [List.flatMap_cons, List.flatMap_cons, aPayload, aCode_a]
    decide
  · intro c hc
    by_cases h : c = 0x61
    · subst h
      rw [aPayload, aCode_a]
      decide
    · rw [aPayload, aCode_other _ h] at hc
      exact absurd rfl hc
  · rw [List.flatMap_cons, aPayload, aCode_a]
    decide

/-- A code table that is not prefix-free (U17): `a` and `b` share "0", which begins the codeword "00" of `c`; `d` is "10". -/
def clashCode (nsym : Nat) (bytes : List Byte) : State :=
  ((ready [(.nsym, nsym), (.plen, 2)]).putPay bytes).putCt
    (codeTable [(0x61, [false]), (0x62, [false]), (0x63, [false, false]), (0x64, [true, false])])

/-- A piece is checked over its finitely many beginnings. -/
theorem firstMatch_of_inits {ct : Byte → CtEntry} {p : List Bool} {b : Byte} (h0 : p ≠ []) (h1 : matchCode ct p = some b)
    (h2 : ∀ q ∈ p.inits, q ≠ [] → q ≠ p → matchCode ct q = none) : FirstMatch ct p b :=
  ⟨h0, h1, fun q hq hp hne => h2 q ((List.mem_inits _ _).2 hp) hq hne⟩

/-- On that table "0" is cut off at once, to the lower symbol, and "10" after its second bit; nothing matches "1". -/
theorem clashCode_pieces (nsym : Nat) (bytes : List Byte) :
    FirstMatch (clashCode nsym bytes).ctOf [false] 0x61 ∧ FirstMatch (clashCode nsym bytes).ctOf [true, false] 0x64 ∧
      NoMatch (clashCode nsym bytes).ctOf [true] := by
  have h : (clashCode nsym bytes).ctOf = (clashCode 0 []).ctOf := by
    funext b
    exact (State.putCt_ctAt _ _ (by simpa using b.isLt)).trans (State.putCt_ctAt _ _ (by simpa using b.isLt)).symm
  have hnone : matchCode (clashCode 0 []).ctOf [true] = none := by
    rw [matchCode_none_iff]
    intro b hb
    by_cases hm : b ∈ [(0x61 : Byte), 0x62, 0x63, 0x64]
    · have : ∀ b ∈ [(0x61 : Byte), 0x62, 0x63, 0x64], codeword ((clashCode 0 []).ctOf b) ≠ [true] := by decide
      exact this b hm hb
    · have habs : (clashCode 0 []).ctOf b = ctAbsent :=
        (State.putCt_ctAt _ _ (by simpa using b.isLt)).trans (codeTable_of_not_mem fun p hp => hm (by simpa using List.mem_map_of_mem (f := Prod.fst) hp))
      rw [habs] at hb
      exact absurd hb (by decide)
  rw [h]
  refine ⟨firstMatch_of_inits (by decide) (by decide) (by decide), firstMatch_of_inits (by decide) (by decide) ?_, ?_⟩
  · simp [hnone]
  · intro q hq hp
    rw [show q = [true] by simpa [List.prefix_cons_iff, hq] using hp]
    exact hnone

/-- HdecFollowsTheFirstMatches: bits `0 0 10` of `04 20` are "a", "a", "d", although "00" is the codeword of `c`. -/
theorem witness_hdecPieces : ∃ s ps, s = clashCode 3 [0x04, 0x20] ∧ ps = [([false], 0x61), ([false], 0x61), ([true, false], (0x64 : Byte))] ∧
    1 ≤ s.n .nsym ∧ s.n .nsym ≤ s.cfg.symCap.val ∧ 1 ≤ s.n .plen ∧ s.n .plen ≤ s.cfg.payCap.val ∧ (s.payAt 0).toNat ≤ 7 ∧
    4 + (s.payAt 0).toNat = 8 * (s.n .plen - 1) ∧ 4 ≤ s.cfg.bitsCap.val ∧ ps.length = s.n .nsym ∧
    (∀ p ∈ ps, FirstMatch s.ctOf p.1 p.2) ∧ (List.range 4).map (streamBit s.payAt) = ps.flatMap Prod.fst := by
  refine ⟨_, _, rfl, rfl, by decide, by decide, by decide, by decide, by decide, by decide, by decide, by decide, ?_, by decide⟩
  have h := clashCode_pieces 3 [0x04, 0x20]
  intro p hp
  simp only [List.mem_cons, List.not_mem_nil, or_false] at hp
  rcases hp with rfl | rfl | rfl
  · exact h.1
  · exact h.1
  · exact h.2.1

/-- HdecLoopErrorsOnAnyTable: `06 00` has two pieces for NSYM = 1; `06 40` ends in "1", which matches nothing; `07 00` has one piece
for NSYM = 2. -/
theorem witness_hdecPieceErrors :
    (∃ s, s = clashCode 1 [0x06, 0x00] ∧ 2 + (s.payAt 0).toNat = 8 * (s.n .plen - 1) ∧ FirstMatch s.ctOf [false] 0x61 ∧
      (List.range 2).map (streamBit s.payAt) = [([false], (0x61 : Byte)), ([false], 0x61)].flatMap Prod.fst ++ [] ∧
      s.n .nsym < [([false], (0x61 : Byte)), ([false], 0x61)].length) ∧
    (∃ s, s = clashCode 1 [0x06, 0x40] ∧ 2 + (s.payAt 0).toNat = 8 * (s.n .plen - 1) ∧ FirstMatch s.ctOf [false] 0x61 ∧
      (List.range 2).map (streamBit s.payAt) = [([false], (0x61 : Byte))].flatMap Prod.fst ++ [true] ∧
      [([false], (0x61 : Byte))].length ≤ s.n .nsym ∧ NoMatch s.ctOf [true]) ∧
    (∃ s, s = clashCode 2 [0x07, 0x00] ∧ 1 + (s.payAt 0).toNat = 8 * (s.n .plen - 1) ∧ FirstMatch s.ctOf [false] 0x61 ∧
      (List.range 1).map (streamBit s.payAt) = [([false], (0x61 : Byte))].flatMap Prod.fst ++ [] ∧
      [([false], (0x61 : Byte))].length < s.n .nsym) :=
  ⟨⟨_, rfl, by decide, (clashCode_pieces _ _).1, by decide, by decide⟩,
    ⟨_, rfl, by decide, (clashCode_pieces _ _).1, by decide, by decide, (clashCode_pieces _ _).2.2⟩,
    ⟨_, rfl, by decide, (clashCode_pieces _ _).1, by decide, by decide⟩⟩

/-- MatchCodeIsTheLowestSymbol: an accumulator, a symbol without codeword, an accumulator too long. -/
theorem witness_matchCode : [true] ≠ [] ∧ ((aCode State.reset).ctOf 0x62).len = 0 ∧
    255 < (List.replicate 256 true).length ∧ PrefixFree (aCode State.reset).ctOf :=
  ⟨by decide, by rw [aCode_other _ (by decide)]; rfl, by rw [List.length_replicate]; decide, aCode_prefixFree _⟩

/-- HuffmanRoundTrip: "a" through FREQ, HTREE, HCODE and HENC, and the end state as the state that holds the payload. -/
theorem witness_huffmanRoundTrip : ∃ s s1 s2 s3 s4 u, 1 ≤ s.n .slen ∧ exec .freq s = .next s1 ∧ s1.status.err = false ∧
    exec .htree s1 = .next s2 ∧ exec .hcode s2 = .next s3 ∧ exec .henc s3 = .next s4 ∧ s4.status.err = false ∧
    SamePayload s4 u ∧ ∀ b, u.ctOf b = s4.ctOf b := by
  obtain ⟨s1, h1, p1⟩ := after_true (o := exec .freq ((ready [(.slen, 1)]).putSym [0x61]))
    (p := fun s1 => !s1.status.err && after (exec .htree s1) fun s2 => after (exec .hcode s2) fun s3 =>
      after (exec .henc s3) fun s4 => !s4.status.err) (by decide)
  simp only [Bool.and_eq_true, Bool.not_eq_true'] at p1
  obtain ⟨s2, h2, p2⟩ := after_true p1.2
  obtain ⟨s3, h3, p3⟩ := after_true p2
  obtain ⟨s4, h4, p4⟩ := after_true p3
  exact ⟨_, s1, s2, s3, s4, s4, by decide, h1, p1.1, h2, h3, h4, by simpa using p4, ⟨rfl, rfl, rfl, fun _ _ => rfl⟩,
    fun _ => rfl⟩

/-- BpackPacksTheBits and BitUnitsInvertEachOther a: no bits, and the longest stream that fits both memories. -/
theorem witness_bpack : (State.reset.n .blen ≤ State.reset.cfg.bitsCap.val ∧
      1 + (State.reset.n .blen + 7) / 8 ≤ State.reset.cfg.payCap.val) ∧
    (tiny 9 3 16 [(.blen, 16)]).n .blen ≤ (tiny 9 3 16 [(.blen, 16)]).cfg.bitsCap.val ∧
    1 + ((tiny 9 3 16 [(.blen, 16)]).n .blen + 7) / 8 ≤ (tiny 9 3 16 [(.blen, 16)]).cfg.payCap.val := by decide

/-- BunpkUnpacksTheBits and BitUnitsInvertEachOther b: `00` (no bits) and `07 80` (one bit). -/
theorem witness_bunpk :
    (∀ s, s = (ready [(.plen, 1)]).putPay [0] → 1 ≤ s.n .plen ∧ s.n .plen ≤ s.cfg.payCap.val ∧ (s.payAt 0).toNat ≤ 7 ∧
      0 + (s.payAt 0).toNat = 8 * (s.n .plen - 1) ∧ 0 ≤ s.cfg.bitsCap.val) ∧
    (∀ s, s = (ready [(.plen, 2)]).putPay [0x07, 0x80] → 1 ≤ s.n .plen ∧ s.n .plen ≤ s.cfg.payCap.val ∧
      (s.payAt 0).toNat ≤ 7 ∧ 1 + (s.payAt 0).toNat = 8 * (s.n .plen - 1) ∧ 1 ≤ s.cfg.bitsCap.val) := by
  refine ⟨?_, ?_⟩ <;> rintro s rfl <;> decide

/-- BitUnitErrorsInOrder: each clause. -/
theorem witness_bitErrors :
    (tiny 9 9 8 [(.blen, 9)]).cfg.bitsCap.val < (tiny 9 9 8 [(.blen, 9)]).n .blen ∧
    (tiny 9 1 9 [(.blen, 1)]).cfg.payCap.val < 1 + ((tiny 9 1 9 [(.blen, 1)]).n .blen + 7) / 8 ∧
    (tiny 9 1 9 [(.plen, 2)]).cfg.payCap.val < (tiny 9 1 9 [(.plen, 2)]).n .plen ∧ State.reset.n .plen = 0 ∧
    (∀ s, s = (ready [(.plen, 1)]).putPay [8] → 1 ≤ s.n .plen ∧ 7 < (s.payAt 0).toNat) ∧
    (∀ s, s = (ready [(.plen, 1)]).putPay [1] → 8 * (s.n .plen - 1) < (s.payAt 0).toNat) ∧
    (∀ s, s = (tiny 9 9 8 [(.plen, 3)]).putPay [0, 0, 0] → (s.payAt 0).toNat ≤ 7 ∧
      16 + (s.payAt 0).toNat = 8 * (s.n .plen - 1) ∧ s.cfg.bitsCap.val < 16) := by
  refine ⟨by decide, by decide, by decide, by decide, ?_, ?_, ?_⟩ <;> rintro s rfl <;> decide

/-- ErrorEntryClearsTheLengths: commands that end with an error, and an illegal word on an idle core. -/
theorem witness_errorEntry : (∃ t, exec .bunpk State.reset = .next t ∧ t.status.err = true) ∧
    (∃ t, exec .freq (ready [(.slen, 1048577)]) = .next t ∧ t.status.err = true) ∧
    (∃ t, exec .renc (ready [(.slen, 1)]) = .next t ∧ t.status.err = true) ∧
    (∃ t, exec .rdec (ready [(.nsym, 1)]) = .next t ∧ t.status.err = true) ∧
    (∃ t, exec .cdf (ready [(.ftlen, 257)]) = .next t ∧ t.status.err = true) ∧
    (∃ t, exec .htree (ready [(.ftlen, 257)]) = .next t ∧ t.status.err = true) ∧
    State.reset.status.busy = false ∧ ∀ i, decode 0 ≠ .ok i := by
  refine ⟨after_true (p := (·.status.err)) (by decide), after_true (p := (·.status.err)) (by decide),
    after_true (p := (·.status.err)) (by decide), after_true (p := (·.status.err)) (by decide),
    after_true (p := (·.status.err)) (by decide), after_true (p := (·.status.err)) (by decide), by decide, ?_⟩
  intro i
  cases i <;> decide

/-- The reset state meets what CDF and HTREE leave. -/
theorem reset_tables : CdfInv State.reset ∧ TreeInv State.reset := by
  unfold CdfInv CdfPartition TreeInv
  exact ⟨by decide, .inl (by decide)⟩

/-- EveryStepKeepsTheInvariant: the reset state with a command pending, and its step. -/
theorem witness_step : ∃ s t, s.Inv ∧ step s = .next t := by
  obtain ⟨t, h, -⟩ := after_true (o := step (State.reset.withFetchWord 32 1)) (p := fun _ => true) (by decide)
  refine ⟨State.reset.withFetchWord 32 1, t, ⟨?_, ?_, ?_, ?_, ?_⟩, h⟩
  · refine ⟨?_, ?_, ?_, ?_, ?_, ?_, ?_⟩ <;> exact Memory.unknown_wf _ 0
  · unfold StatusInv; decide
  · unfold FreshInv; decide
  · exact reset_tables.1
  · exact reset_tables.2

/-- EveryCommandEnds: the reset state, and states with tables. -/
theorem witness_ends : (CdfInv State.reset ∧ TreeInv State.reset) ∧ CdfInv abTable ∧ TreeInv abcTree :=
  ⟨reset_tables, abTable_inv, .inr ⟨by decide, by decide, by decide, by decide, abcTree_tree⟩⟩

/-- The outcome is this stop. -/
def stops (o : Host.Outcome State Fault Refusal) (f : Fault) : Bool :=
  match o with
  | .fault g => decide (g = f)
  | _ => false

/-- A node that is its own child. -/
def loopNode : State := (ready [(.nnode, 1), (.root, 0)]).putHt [⟨.internal, 1, 0, 0, 0⟩]

theorem loopNode_visit : ∀ fuel path, visit loopNode.htAt fuel 0 path = none := by
  have h0 : loopNode.htAt 0 = ⟨.internal, 1, 0, 0, 0⟩ := by decide
  intro fuel
  induction fuel with
  | zero => intro path; rw [visit, h0]
  | succ fuel ih =>
    intro path
    rw [visit, h0]
    have e : (0 : BitVec 9).toNat = 0 := rfl
    simp only [e, ih]

/-- StopsOnlyOutsideTheInvariant: a frequency of 0, and a node that is its own child. -/
theorem witness_stops :
    stops (exec .renc (abTable.putCdft [⟨0x61, 0, 1⟩, ⟨0x62, 1, 0⟩])) .encoderLoopNeverEnds = true ∧
    exec .hcode loopNode = .fault .huffmanTreeTooDeep := by
  refine ⟨by decide, ?_⟩
  have hb : bodyOf .hcode (loopNode.begin Instr.hcode.opc) = .stuck .huffmanTreeTooDeep := by
    have h1 : loopNode.n .nnode ≠ 0 := by decide
    have h2 : loopNode.n .root = 0 := by decide
    have h3 : loopNode.htAt 0 = ⟨.internal, 1, 0, 0, 0⟩ := by decide
    simp only [bodyOf, hcodeBody, State.begin_n, State.begin_htAt, h1, h2, h3, loopNode_visit, if_false]
  rw [exec_eq, runCommand, hb]

/-- TablesChangeOnlyByTheirCommands: a step that is none of the excepted ones. -/
theorem witness_tables : ∃ s t : State, ∃ a : HostAction, s.inputs = a :: [] ∧ a ≠ .reset ∧ step s = .next t ∧
    a ≠ .writeCtl .cmd (encode .cdf) ∧ (∀ cs, a ≠ .issue (.cdf :: cs)) ∧ a ≠ .writeCtl .cmd (encode .htree) ∧
    (∀ cs, a ≠ .issue (.htree :: cs)) ∧ a ≠ .writeCtl .cmd (encode .hcode) ∧ (∀ cs, a ≠ .issue (.hcode :: cs)) ∧
    ∀ (i : Nat) (e : CtEntry), a ≠ .loadm i (.ct e) := by
  obtain ⟨t, h, -⟩ := after_true (o := step (State.reset.withFetchWord 32 1)) (p := fun _ => true) (by decide)
  exact ⟨_, t, .writeCtl .cmd 1, rfl, by decide, h, by decide, by simp, by decide, by simp, by decide, by simp, by simp⟩

/-- OutputsDependOnInputsAlone: "ab" with different symbols beyond the buffer, and a tree. -/
theorem witness_outputs : SameInputs .renc abTable (abTable.putSym [0x61, 0x62, 0x63]) ∧ TreeInv abcTree := by
  refine ⟨⟨rfl, ?_, ?_, ?_⟩, witness_ends.2.2⟩
  · unfold SameRegs; decide
  · unfold SameElems; decide
  · unfold SameElems; decide

end Sys2Proof.Tests
end

/-! # What a step can do

One inversion lemma per part of the host port (R5, R35, R69, R104): what holds when it answers a next state. -/

namespace Sys2Proof.Machine

/-- R65: whether it ends with or without error, a command changes nothing but its outputs and STATUS. -/
theorem exec_frame {i : Instr} {s t : State} (h : exec i s = .next t) : Frame (outRegs i) (outSpaces i) s t := by
  obtain ⟨u, hu, rfl⟩ | ⟨k, -, rfl⟩ := exec_cases h
  · exact (Frame.begin _ _ s _).trans ((bodyOf_frame hu).trans (Frame.finish _ _ u _))
  · exact (raiseError_spec s i k).2.2

theorem whenIdle_eq_next {s t : State} {o : Host.Outcome State Fault Refusal} :
    whenIdle s o = .next t ↔ s.status.busy = false ∧ o = .next t := by
  cases hb : s.status.busy <;> simp [whenIdle, hb]

/-- A word written to CMD runs the command it selects, or is none and ends with IllegalCommandError (R35, R106). -/
theorem writeCmd_cases {w : Word} {s t : State} (h : writeCmd w s = .next t) :
    s.status.busy = false ∧
      ((∃ i, decode w = .ok i ∧ exec i s = .next t) ∨
        (∃ e, decode w = .error e) ∧ t = s.illegalCommand (cmdFields w).opc) := by
  unfold writeCmd at h
  split at h
  · cases h
  · next hb =>
    refine ⟨by simpa using hb, ?_⟩
    split at h
    · next i hd => exact .inl ⟨i, hd, h⟩
    · next e hd => exact .inr ⟨⟨e, hd⟩, by cases h; rfl⟩

theorem hostStore_eq_next {i : Nat} {e : Elem} {s t : State} :
    hostStore i e s = .next t ↔
      i < spaceSize s.cfg e.space ∧ (if spaceHostWritable e.space then storeElem i e s else s) = t := by
  unfold hostStore
  split <;> simp [*]

theorem hostLoad_eq_next {sp : SpaceId} {i : Nat} {s t : State} :
    hostLoad sp i s = .next t ↔ i < spaceSize s.cfg sp ∧ s = t := by
  unfold hostLoad
  split <;> simp [*]

/-- An issue with commands left runs the first; the others stay pending only when it ended without error (R104). -/
theorem issueNext_cases {cs : List Instr} {s t : State} (h : issueNext cs s = .next t) :
    (cs = [] ∧ t = s) ∨
      ∃ c rest u, cs = c :: rest ∧ writeCmd (encode c) s = .next u ∧
        (((u.status.err = true ∨ rest = []) ∧ t = u) ∨
          (u.status.err = false ∧ rest ≠ [] ∧ t = { u with inputs := .issue rest :: u.inputs })) := by
  cases cs with
  | nil => exact .inl ⟨rfl, by cases h; rfl⟩
  | cons c rest =>
    simp only [issueNext] at h
    split at h
    · next u hu =>
      refine .inr ⟨c, rest, u, rfl, hu, ?_⟩
      split at h
      · next hs => exact .inl ⟨by simpa using hs, by cases h; rfl⟩
      · next hs =>
        simp only [Bool.or_eq_true, List.isEmpty_iff, not_or, Bool.not_eq_true] at hs
        exact .inr ⟨hs.1, hs.2, by cases h; rfl⟩
    · next hne => exact absurd h (hne t)

/-- A step does nothing, or it is the oldest pending host action (R5, R223). -/
theorem step_cases {s t : State} (h : step s = .next t) :
    (s.inputs = [] ∧ t = s) ∨
      ∃ a rest, s.inputs = a :: rest ∧ hostStep a { s with inputs := rest } = .next t := by
  unfold step at h
  split at h
  · next hi => exact .inl ⟨hi, by cases h; rfl⟩
  · next a rest hi => exact .inr ⟨a, rest, hi, h⟩

/-! ## The build-time constants -/

@[simp] theorem storeElem_cfg (i : Nat) (e : Elem) (s : State) : (storeElem i e s).cfg = s.cfg := by cases e <;> rfl

@[simp] theorem State.resetEvent_cfg (s : State) : s.resetEvent.cfg = s.cfg := rfl

@[simp] theorem State.illegalCommand_cfg (s : State) (op : BitVec 8) : (s.illegalCommand op).cfg = s.cfg := rfl

/-- CFG reads the constants and nothing else (R38). -/
@[simp] theorem State.readCtl_cfg (s : State) : s.readCtl .cfg = cfgWord s.cfg := rfl

theorem exec_cfg {i : Instr} {s t : State} (h : exec i s = .next t) : t.cfg = s.cfg := by
  obtain ⟨-, -, hcfg, -⟩ := exec_frame h
  exact hcfg

theorem writeCmd_cfg {w : Word} {s t : State} (h : writeCmd w s = .next t) : t.cfg = s.cfg := by
  obtain ⟨-, ⟨i, -, hi⟩ | ⟨-, rfl⟩⟩ := writeCmd_cases h
  · exact exec_cfg hi
  · simp

theorem issueNext_cfg {cs : List Instr} {s t : State} (h : issueNext cs s = .next t) : t.cfg = s.cfg := by
  obtain ⟨-, rfl⟩ | ⟨c, rest, u, -, hu, ⟨-, rfl⟩ | ⟨-, -, rfl⟩⟩ := issueNext_cases h
  · rfl
  · exact writeCmd_cfg hu
  · exact (writeCmd_cfg hu :)

theorem hostStore_cfg {i : Nat} {e : Elem} {s t : State} (h : hostStore i e s = .next t) : t.cfg = s.cfg := by
  obtain ⟨-, rfl⟩ := hostStore_eq_next.mp h
  split <;> simp

/-- An idle access that leaves the state alone keeps the constants. -/
theorem whenIdle_same_cfg {s t : State} (h : whenIdle s (.next s) = .next t) : t.cfg = s.cfg := by
  obtain ⟨-, hst⟩ := whenIdle_eq_next.mp h
  cases hst
  rfl

theorem hostStep_cfg {a : HostAction} {s t : State} (h : hostStep a s = .next t) : t.cfg = s.cfg := by
  cases a with
  | setr r v =>
    obtain ⟨-, hst⟩ := whenIdle_eq_next.mp h
    cases hst
    split <;> simp
  | writeCtl c v =>
    cases c with
    | cmd => exact writeCmd_cfg h
    | status => exact whenIdle_same_cfg h
    | cfg => exact whenIdle_same_cfg h
  | loadm i e => exact hostStore_cfg (whenIdle_eq_next.mp h).2
  | getr r => exact whenIdle_same_cfg h
  | readCtl c =>
    cases c with
    | cmd => exact whenIdle_same_cfg h
    | status => cases h; rfl
    | cfg => exact whenIdle_same_cfg h
  | readm sp i =>
    obtain ⟨-, hst⟩ := whenIdle_eq_next.mp h
    obtain ⟨-, rfl⟩ := hostLoad_eq_next.mp hst
    rfl
  | issue cs => exact issueNext_cfg h
  | reset => cases h; simp

theorem step_cfg {s t : State} (h : step s = .next t) : t.cfg = s.cfg := by
  obtain ⟨-, rfl⟩ | ⟨a, rest, -, ha⟩ := step_cases h
  · rfl
  · exact (hostStep_cfg ha :)

/-- Settles O55: every host action keeps the constants (a command by its frame, reset by R231), and CFG reads them
alone. -/
theorem configurationIsConstant : Obligations.ConfigurationIsConstant := by
  intro s t h
  have hcfg := step_cfg h
  exact ⟨hcfg, by simp [hcfg]⟩

end Sys2Proof.Machine

/-! # Host accesses on an idle core

What a step is when the oldest pending action is a host access, and what the host's writes do (R33, R35, R46, R106). -/

namespace Sys2Proof.Machine

/-- With an action pending, a step is that action (R5). -/
theorem step_cons (a : HostAction) (rest : List HostAction) (s : State) :
    step { s with inputs := a :: rest } = hostStep a { s with inputs := rest } := rfl

theorem whenIdle_of_idle {s : State} (h : s.status.busy = false) (o : Host.Outcome State Fault Refusal) :
    whenIdle s o = o := by simp [whenIdle, h]

theorem writeCmd_of_decode {w : Word} {i : Instr} {s : State} (hb : s.status.busy = false) (hd : decode w = .ok i) :
    writeCmd w s = exec i s := by simp [writeCmd, hb, hd]

/-- A table word is a number below `2^32` whose 32-bit word the decoder reads (R80, R82). -/
theorem decodeTableWord_eq_some {nbits w : Nat} {i : Instr} (h : decodeTableWord nbits w = some i) :
    decode (BitVec.ofNat 32 (w % 2 ^ nbits)) = .ok i := by
  simp only [decodeTableWord] at h
  split at h
  · split at h
    · next hd => cases h; exact hd
    · cases h
  · cases h

/-- Settles O5: a pending CMD write on an idle core is `writeCmd`, which runs the decoded command (R35, R106);
`withFetchWord` places such a write and clears BUSY. -/
theorem stepRunsTheDecodedCommand : Obligations.StepRunsTheDecodedCommand := by
  refine ⟨fun s w i rest hb hd => ?_, fun s nbits w i h => ?_⟩
  · exact (step_cons _ rest s).trans (writeCmd_of_decode (s := { s with inputs := rest }) hb hd)
  · exact writeCmd_of_decode (s := { s with status := { s.status with busy := false } }) rfl (decodeTableWord_eq_some h)

/-- Settles O57: on an idle core a write of STATUS or CFG leaves the state alone. -/
theorem hostWritesOfStatusAndCfgAreIgnored : Obligations.HostWritesOfStatusAndCfgAreIgnored :=
  fun s _ rest hb =>
    ⟨whenIdle_of_idle (s := { s with inputs := rest }) hb _, whenIdle_of_idle (s := { s with inputs := rest }) hb _⟩

/-! ## Writes of data registers -/

/-- A register write changes that register only. -/
theorem Frame.setReg {rs : List Reg} {r : Reg} (hr : r ∈ rs) (ms : List SpaceId) (s : State) (v : Word) :
    Frame rs ms s (s.setReg r v) := by
  refine ⟨fun q hq => ?_, fun sp _ i => by cases sp <;> rfl, rfl, rfl⟩
  have : q ≠ r := fun h => hq (h ▸ hr)
  simp [this]

/-- A register other than X holds every 32-bit value as written (R33). -/
theorem setReg_reg_self {r : Reg} (hr : r ≠ .x) (s : State) (v : Word) : (s.setReg r v).reg r = v := by
  simp [heldBy, hr]

/-! ## Writes of memory elements -/

/-- An element write is read back, and leaves the other elements of its memory alone (R46). -/
theorem storeElem_elemAt (i j : Nat) (e : Elem) (s : State) :
    (storeElem i e s).elemAt e.space j = if j = i then e else s.elemAt e.space j := by
  cases e <;>
    simp only [storeElem, Elem.space, State.elemAt, State.symAt, State.payAt, State.bitAt, State.ftAt, State.cdftAt,
      State.htAt, State.ctAt, Memory.read_write] <;>
    split <;> rfl

/-- An element write changes its memory only (R46). -/
theorem storeElem_frame (rs : List Reg) (i : Nat) (e : Elem) (s : State) :
    Frame rs [e.space] s (storeElem i e s) := by
  refine ⟨fun r _ => ?_, fun sp hsp j => ?_, storeElem_cfg i e s, ?_⟩
  · cases e <;> rfl
  · have hne : sp ≠ e.space := by simpa using hsp
    cases e <;> cases sp <;> first | rfl | exact absurd rfl hne
  · cases e <;> rfl

@[simp] theorem storeElem_status (i : Nat) (e : Elem) (s : State) : (storeElem i e s).status = s.status := by
  cases e <;> rfl

theorem hostStore_of_lt {i : Nat} {e : Elem} {s : State} (h : i < spaceSize s.cfg e.space) :
    hostStore i e s = .next (if spaceHostWritable e.space then storeElem i e s else s) := by simp [hostStore, h]

theorem hostStore_of_ge {i : Nat} {e : Elem} {s : State} (h : spaceSize s.cfg e.space ≤ i) :
    hostStore i e s = .fault .hostIndexOutsideSpace := by simp [hostStore, Nat.not_lt.2 h]

theorem spaceHostWritable_iff (sp : SpaceId) :
    spaceHostWritable sp = true ↔ sp ∈ [SpaceId.sym, .pay, .bits, .ft, .ct] := by cases sp <;> decide

/-- On an idle core a pending element write is `hostStore` (R46). -/
theorem step_loadm {s : State} (hb : s.status.busy = false) (i : Nat) (e : Elem) (rest : List HostAction) :
    step { s with inputs := .loadm i e :: rest } = hostStore i e { s with inputs := rest } :=
  (step_cons _ rest s).trans (whenIdle_of_idle (s := { s with inputs := rest }) hb _)

/-- On an idle core a pending register write happens when the host may write the register (R33). -/
theorem step_setr {s : State} (hb : s.status.busy = false) (r : Reg) (v : Word) (rest : List HostAction) :
    step { s with inputs := .setr r v :: rest } =
      .next (if regHostWritable r then { s with inputs := rest }.setReg r v else { s with inputs := rest }) :=
  (step_cons _ rest s).trans (whenIdle_of_idle (s := { s with inputs := rest }) hb _)

/-- Settles O7: a write the host has no right to leaves the state alone (R33); a RW register is not X, so it holds what
is written. -/
theorem hostWritesRespectReadOnly : Obligations.HostWritesRespectReadOnly := by
  intro s rest hb
  refine ⟨fun r v hr => ?_, fun i e hi => ?_, fun i e hi => ?_, fun r v hr => ?_⟩
  · have hro : regHostWritable r = false := by revert r; decide
    rw [step_setr hb, hro]; rfl
  · rw [step_loadm hb, hostStore_of_lt hi]; rfl
  · rw [step_loadm hb, hostStore_of_lt hi]; rfl
  · have hrw : regHostWritable r = true ∧ r ≠ .x := by revert r; decide
    rw [step_setr hb, if_pos hrw.1]
    exact ⟨_, rfl, setReg_reg_self hrw.2 _ v, rfl, Frame.setReg (by simp) _ _ _⟩

/-- Settles O8: a write within the memory is `storeElem` (read back, framed); beyond it the step is the fault (log 7). -/
theorem hostElementWritesReadBack : Obligations.HostElementWritesReadBack := by
  intro s i e rest hb hw
  refine ⟨fun hi => ?_, fun hi => ?_⟩
  · rw [step_loadm hb, hostStore_of_lt (s := { s with inputs := rest }) hi, if_pos ((spaceHostWritable_iff _).2 hw)]
    refine ⟨_, rfl, ?_, fun j hj => ?_, storeElem_status _ _ _, storeElem_frame _ _ _ _⟩
    · rw [storeElem_elemAt, if_pos rfl]
    · rw [storeElem_elemAt, if_neg hj]
      cases e <;> rfl
  · rw [step_loadm hb, hostStore_of_ge (s := { s with inputs := rest }) hi]

/-! ## The control registers and X as the host reads them -/

/-- The bits of STATUS (R36). -/
theorem Status.word_getLsbD (t : Status) (j : Nat) :
    t.word.getLsbD j =
      if j = 0 then t.busy else if j = 1 then t.done else if j = 2 then t.err else if j < 8 then false
      else if j < 16 then t.errcode.getLsbD (j - 8) else if j < 24 then t.lastop.getLsbD (j - 16) else false := by
  change BitVec.getLsbD (w := 8 + 8 + 8 + 5 + 1 + 1 + 1) _ j = _
  simp only [Status.word, BitVec.getLsbD_append, BitVec.getLsbD_ofBool, BitVec.getLsbD_zero]
  grind

/-- The fields of STATUS stand at their bits (R36). -/
theorem Status.word_fields (t : Status) :
    t.word.getLsbD 0 = t.busy ∧ t.word.getLsbD 1 = t.done ∧ t.word.getLsbD 2 = t.err ∧
      t.word.extractLsb' 3 5 = 0 ∧ t.word.extractLsb' 8 8 = t.errcode ∧ t.word.extractLsb' 16 8 = t.lastop ∧
      t.word.extractLsb' 24 8 = 0 := by
  refine ⟨t.word_getLsbD 0, t.word_getLsbD 1, t.word_getLsbD 2, ?_, ?_, ?_, ?_⟩
  all_goals
    refine BitVec.eq_of_getLsbD_eq fun j hj => ?_
    simp only [BitVec.getLsbD_extractLsb', Status.word_getLsbD]
    grind

/-- The fields of CFG stand at their bits, for each precision (R38). -/
theorem cfgWord_fields (c : Config) :
    ((cfgWord c).extractLsb' 0 8).toNat = c.p ∧ ((cfgWord c).extractLsb' 8 8).toNat = c.fb ∧
      (cfgWord c).extractLsb' 16 8 = 8 ∧ (cfgWord c).extractLsb' 24 8 = 1 := by
  simp only [cfgWord, Config.fb, Config.p]
  cases c.prec <;> decide

/-- Settles O15, by the bit fields of the two words. -/
theorem statusAndCfgFields : Obligations.StatusAndCfgFields :=
  fun s => ⟨s.status.word_fields, cfgWord_fields s.cfg⟩

/-- Settles O17: what X reads as is a remainder modulo `2^XW` (R27). -/
theorem xReadsWithinItsWidth : Obligations.XReadsWithinItsWidth := by
  intro s
  rw [State.reg_x, BitVec.toNat_ofNat]
  exact lt_of_le_of_lt (Nat.mod_le _ _) (Nat.mod_lt _ (Nat.two_pow_pos _))

end Sys2Proof.Machine

/-! # STATUS after a command, and where a command can stop

Every command ends with a STATUS of its own making (R37), and only two tables, which CDF and HTREE cannot leave, make the
model stop (log 10). -/

namespace Sys2Proof.Machine

/-- STATUS after a command: its body was done, or it raised a kind of error (R37, R106). -/
theorem exec_status {i : Instr} {s t : State} (h : exec i s = .next t) :
    t.status = okStatus i ∨ ∃ k, t.status = errStatus i k := by
  obtain ⟨u, hu, rfl⟩ | ⟨k, -, rfl⟩ := exec_cases h
  · exact .inl (status_of_done hu)
  · exact .inr ⟨k, (raiseError_spec s i k).1⟩

/-- A command overwrites STATUS before it reads anything, so it does not depend on it (R37). -/
theorem exec_setStatus (i : Instr) (s : State) (st : Status) : exec i { s with status := st } = exec i s := by
  cases i <;> rfl

/-- No error kind has code 0 (R200). -/
theorem ErrKind.code_ne_zero (k : ErrKind) : k.code ≠ 0#8 := by cases k <;> decide

/-- Settles O16: a command ends with one of two forms of STATUS, and answers the same whatever STATUS was before. -/
theorem everyCommandLeavesItsStatus : Obligations.EveryCommandLeavesItsStatus := by
  intro i s t h
  have hsticky : ∀ st : Status, ∃ v, exec i { s with status := st } = .next v ∧ v.status = t.status :=
    fun st => ⟨t, (exec_setStatus i s st).trans h, rfl⟩
  obtain hst | ⟨k, hst⟩ := exec_status h
  · refine ⟨?_, ?_, ?_, ?_, hsticky⟩ <;> simp [hst, okStatus]
  · refine ⟨?_, ?_, ?_, ?_, hsticky⟩ <;> simp [hst, errStatus, k.code_ne_zero]

/-! ## Parts of a body that never stop the model -/

theorem validateFt_ne_stuck (s : State) (f : Fault) : validateFt s ≠ .stuck f := by
  rcases validateFt_cases s with h | h <;> simp [h]

theorem accumulate_ne_stuck (base : Nat) (t : List FtEntry) (f : Fault) : accumulate base 0 t ≠ .stuck f := by
  rw [accumulate_eq base 0 t (Nat.zero_le _)]
  split <;> simp

theorem decodeSymbols_ne_stuck (base : Nat) (t : List CdfEntry) (f : Fault) (n : Nat) :
    ∀ (x : Nat) (bs : List Byte), decodeSymbols base t n x bs ≠ .stuck f := by
  induction n with
  | zero => simp [decodeSymbols]
  | succ n ih =>
    intro x bs
    simp only [decodeSymbols]
    split
    · simp
    · split
      · simp
      · simp [Result.andThen_eq_stuck, ih]

theorem concatCodes_ne_stuck (cap : Nat) (ct : Byte → CtEntry) (f : Fault) (bs : List Byte) :
    ∀ len, concatCodes cap ct len bs ≠ .stuck f := by
  induction bs with
  | nil => simp [concatCodes]
  | cons b bs ih =>
    intro len
    rw [concatCodes]
    split
    · simp
    · split
      · simp
      · simp [Result.andThen_eq_stuck, ih]

theorem decodeBits_ne_stuck (ct : Byte → CtEntry) (n : Nat) (f : Fault) (bs : List Bool) :
    ∀ (acc : List Bool) (out : List Byte), decodeBits ct n bs acc out ≠ .stuck f := by
  induction bs with
  | nil =>
    intro acc out
    rw [decodeBits]
    split
    · simp
    · split <;> simp
  | cons b bs ih =>
    intro acc out
    rw [decodeBits]
    split
    · exact ih _ _
    · split
      · simp
      · exact ih _ _

theorem packBits_ne_stuck (s : State) (f : Fault) : packBits s ≠ .stuck f := by
  rw [packBits_eq]; split <;> simp

theorem unpackBits_ne_stuck (s : State) (f : Fault) : unpackBits s ≠ .stuck f := by
  rw [unpackBits_eq]; repeat' split
  all_goals simp

/-! ## The two stops -/

/-- The encoder's loop stops the model only on an entry of frequency 0 (R131, R135). -/
theorem encodeSymbols_stuck {base : Nat} {t : List CdfEntry} {f : Fault} {bs : List Byte}
    (h : encodeSymbols base t bs = .stuck f) : f = .encoderLoopNeverEnds ∧ ∃ e ∈ t, e.freq = 0 := by
  induction bs with
  | nil => cases h
  | cons b bs ih =>
    obtain h | ⟨xe, -, h⟩ := Result.andThen_eq_stuck.1 h
    · exact ih h
    · unfold encodeSymbol at h
      split at h
      · cases h
      · next e he =>
        split at h
        · next hz => cases h; exact ⟨rfl, e, (mem_of_lookupSym he).1, hz⟩
        · cases h

/-- From the root of a Huffman tree HCODE's walk reaches every Leaf within 255 edges (R163 e, R164). -/
theorem visit_root_isSome {s : State} (h : TreeInv s) (h0 : s.n .nnode ≠ 0) (path : List Bool) :
    ∃ cs, visit s.htAt 255 (s.n .root) path = some cs := by
  obtain ⟨hz, -⟩ | ⟨hn, h1, h256, hroot, htree⟩ := h
  · exact absurd hz h0
  · obtain ⟨cs, hcs, -⟩ := htree.visit_spec 255 (s.n .root) path (by omega) (by omega)
    exact ⟨cs, hcs⟩

/-- HCODE stops the model only on nodes that are no Huffman tree (R163, R164). -/
theorem hcodeBody_stuck {s : State} {f : Fault} (h : hcodeBody s = .stuck f) :
    f = .huffmanTreeTooDeep ∧ ¬ TreeInv s := by
  unfold hcodeBody at h
  split at h
  · cases h
  · next h0 =>
    split at h
    · cases h
    · split at h
      · next hv =>
        cases h
        refine ⟨rfl, fun htree => ?_⟩
        obtain ⟨cs, hcs⟩ := visit_root_isSome htree h0 []
        rw [hcs] at hv
        cases hv
      · cases h

theorem rencBody_stuck {s : State} {f : Fault} (h : rencBody s = .stuck f) :
    f = .encoderLoopNeverEnds ∧ ∃ j < s.n .clen, (s.cdftAt j).freq = 0 := by
  unfold rencBody at h
  split at h
  · cases h
  · split at h
    · cases h
    · split at h
      · cases h
      · obtain h | ⟨xe, -, h⟩ := Result.andThen_eq_stuck.1 h
        · simpa [State.cdfTable] using encodeSymbols_stuck h
        · simp only at h
          split at h <;> cases h

/-- Every body that stops the model is that of RENC or HCODE, on a table CDF or HTREE cannot leave (log 10). -/
theorem bodyOf_stuck {i : Instr} {s : State} {f : Fault} (h : bodyOf i s = .stuck f) :
    (i = .renc ∧ f = .encoderLoopNeverEnds ∧ ∃ j < s.n .clen, (s.cdftAt j).freq = 0) ∨
      (i = .hcode ∧ f = .huffmanTreeTooDeep ∧ ¬ TreeInv s) := by
  cases i with
  | freq => simp only [bodyOf, freqBody] at h; split at h <;> cases h
  | cdf =>
    simp [bodyOf, cdfBody, Result.andThen_eq_stuck, validateFt_ne_stuck, accumulate_ne_stuck] at h
  | renc => exact .inl ⟨rfl, rencBody_stuck h⟩
  | rdec =>
    simp only [bodyOf, rdecBody] at h
    repeat' split at h
    all_goals simp [Result.andThen_eq_stuck, decodeSymbols_ne_stuck] at h
  | htree =>
    simp only [bodyOf, htreeBody, Result.andThen_eq_stuck, validateFt_ne_stuck, false_or] at h
    obtain ⟨t, -, h⟩ := h
    split at h <;> cases h
  | hcode => exact .inr ⟨rfl, hcodeBody_stuck h⟩
  | henc =>
    simp only [bodyOf, hencBody] at h
    repeat' split at h
    all_goals simp [Result.andThen_eq_stuck, concatCodes_ne_stuck, packBits_ne_stuck] at h
  | hdec =>
    simp only [bodyOf, hdecBody] at h
    repeat' split at h
    all_goals simp [Result.andThen_eq_stuck, unpackBits_ne_stuck, decodeBits_ne_stuck] at h
  | bpack => exact absurd h (packBits_ne_stuck s f)
  | bunpk => exact absurd h (unpackBits_ne_stuck s f)

/-- A command answers a fault only where its body stops. -/
theorem exec_eq_fault {i : Instr} {s : State} {f : Fault} (h : exec i s = .fault f) :
    bodyOf i (s.begin i.opc) = .stuck f := by
  rw [exec_eq, runCommand] at h
  split at h <;> cases h
  assumption

theorem exec_ne_refused (i : Instr) (s : State) (r : Refusal) : exec i s ≠ .refused r := by
  rw [exec_eq, runCommand]
  split <;> simp

/-- Settles O53: a fault is a stop of the body, and the frame refuses nothing. -/
theorem stopsOnlyOutsideTheInvariant : Obligations.StopsOnlyOutsideTheInvariant :=
  fun i s => ⟨fun _ h => (bodyOf_stuck (exec_eq_fault h) :), exec_ne_refused i s⟩

end Sys2Proof.Machine

/-! # A command's result depends on its inputs alone

Two runs of a body on states that agree on its inputs (R65) go the same way: both are done with the same outputs, or both
raise the same error (R48, R49, R213). -/

namespace Sys2Proof.Machine

/-! ## Results that go the same way -/

/-- Both results are done, with values that `R` relates, or both raise the same error, or both stop alike. -/
inductive Result.Agree {α β : Type} (R : α → β → Prop) : Result α → Result β → Prop
  | done {a : α} {b : β} (h : R a b) : Result.Agree R (.done a) (.done b)
  | raise (k : ErrKind) : Result.Agree R (.raise k) (.raise k)
  | stuck (f : Fault) : Result.Agree R (.stuck f) (.stuck f)

namespace Result.Agree

variable {α β γ δ : Type} {R : α → β → Prop}

theorem of_done {a : α} {r : Result β} (h : Agree R (.done a) r) : ∃ b, r = .done b ∧ R a b := by
  cases h with
  | done h => exact ⟨_, rfl, h⟩

theorem of_raise {k : ErrKind} {r : Result β} (h : Agree R (.raise k) r) : r = .raise k := by
  cases h; rfl

/-- Branches taken on the same condition. -/
theorem ite {c : Prop} [Decidable c] {a a' : Result α} {b b' : Result β} (h : c → Agree R a b)
    (h' : ¬ c → Agree R a' b') : Agree R (if c then a else a') (if c then b else b') := by
  split
  · next hc => exact h hc
  · next hc => exact h' hc

/-- Two bodies that begin with parts that go the same way. -/
theorem andThen {Q : γ → δ → Prop} {r : Result γ} {r' : Result δ} {f : γ → Result α} {g : δ → Result β}
    (hr : Agree Q r r') (h : ∀ c d, r = .done c → r' = .done d → Q c d → Agree R (f c) (g d)) :
    Agree R (r.andThen f) (r'.andThen g) := by
  cases hr with
  | done hq => exact h _ _ rfl rfl hq
  | raise k => exact .raise k
  | stuck e => exact .stuck e

/-- Two bodies that begin with the same part. -/
theorem andThen_same {r : Result γ} {f : γ → Result α} {g : γ → Result β}
    (h : ∀ c, r = .done c → Agree R (f c) (g c)) : Agree R (r.andThen f) (r.andThen g) := by
  cases r with
  | done c => exact h c rfl
  | raise k => exact .raise k
  | stuck e => exact .stuck e

end Result.Agree

/-! ## States that agree on registers and elements -/

section Same

variable {s u t v : State} {n i : Nat}

theorem SameRegs.n_eq {rs : List Reg} (h : SameRegs rs s u) {r : Reg} (hr : r ∈ rs) : u.n r = s.n r :=
  congrArg BitVec.toNat (h r hr)

theorem SameElems.symbols (h : SameElems .sym n s u) : u.symbols n = s.symbols n :=
  List.map_congr_left fun i hi => Elem.sym.inj (h i (List.mem_range.1 hi))

theorem SameElems.payload (h : SameElems .pay n s u) : u.payload n = s.payload n :=
  List.map_congr_left fun i hi => Elem.pay.inj (h i (List.mem_range.1 hi))

theorem SameElems.payAt (h : SameElems .pay n s u) (hi : i < n) : u.payAt i = s.payAt i := Elem.pay.inj (h i hi)

theorem SameElems.bitString (h : SameElems .bits n s u) : u.bitString n = s.bitString n :=
  List.map_congr_left fun i hi => Elem.bits.inj (h i (List.mem_range.1 hi))

theorem SameElems.ftTable (h : SameElems .ft n s u) : u.ftTable n = s.ftTable n :=
  List.map_congr_left fun i hi => Elem.ft.inj (h i (List.mem_range.1 hi))

theorem SameElems.cdfTable (h : SameElems .cdft n s u) : u.cdfTable n = s.cdfTable n :=
  List.map_congr_left fun i hi => Elem.cdft.inj (h i (List.mem_range.1 hi))

theorem SameElems.htAt (h : SameElems .ht n s u) (hi : i < n) : u.htAt i = s.htAt i := Elem.ht.inj (h i hi)

theorem SameElems.ctOf (h : SameElems .ct 256 s u) : u.ctOf = s.ctOf :=
  funext fun b => Elem.ct.inj (h b.toNat b.isLt)

/-- What two framed updates leave alone stays the same in both. -/
theorem SameRegs.of_frame {rs qs : List Reg} {ms : List SpaceId} (h : SameRegs rs s u) (hs : Frame qs ms s t)
    (hu : Frame qs ms u v) (hd : ∀ r ∈ rs, r ∉ qs) : SameRegs rs t v :=
  fun r hr => ((hu.1 r (hd r hr)).trans (h r hr)).trans (hs.1 r (hd r hr)).symm

theorem SameElems.of_frame {sp : SpaceId} {qs : List Reg} {ms : List SpaceId} (h : SameElems sp n s u)
    (hs : Frame qs ms s t) (hu : Frame qs ms u v) (hd : sp ∉ ms) : SameElems sp n t v :=
  fun i hi => ((hu.2.1 sp hd i).trans (h i hi)).trans (hs.2.1 sp hd i).symm

theorem SameElems.mono {sp : SpaceId} {m : Nat} (h : SameElems sp n s u) (hm : m ≤ n) : SameElems sp m s u :=
  fun i hi => h i (lt_of_lt_of_le hi hm)

end Same

/-! Two states in which a command wrote the same list read the same there. -/

section Put

variable (s u : State)

theorem sameElems_putSym (vs : List Byte) : SameElems .sym vs.length (s.putSym vs) (u.putSym vs) :=
  fun _ h => congrArg Elem.sym ((u.putSym_symAt vs h).trans (s.putSym_symAt vs h).symm)

theorem sameElems_putPay (vs : List Byte) : SameElems .pay vs.length (s.putPay vs) (u.putPay vs) :=
  fun _ h => congrArg Elem.pay ((u.putPay_payAt vs h).trans (s.putPay_payAt vs h).symm)

theorem sameElems_putBits (vs : List Bool) : SameElems .bits vs.length (s.putBits vs) (u.putBits vs) :=
  fun _ h => congrArg Elem.bits ((u.putBits_bitAt vs h).trans (s.putBits_bitAt vs h).symm)

theorem sameElems_putFt (vs : List FtEntry) : SameElems .ft vs.length (s.putFt vs) (u.putFt vs) :=
  fun _ h => congrArg Elem.ft ((u.putFt_ftAt vs h).trans (s.putFt_ftAt vs h).symm)

theorem sameElems_putCdft (vs : List CdfEntry) : SameElems .cdft vs.length (s.putCdft vs) (u.putCdft vs) :=
  fun _ h => congrArg Elem.cdft ((u.putCdft_cdftAt vs h).trans (s.putCdft_cdftAt vs h).symm)

theorem sameElems_putHt (vs : List HtNode) : SameElems .ht vs.length (s.putHt vs) (u.putHt vs) :=
  fun _ h => congrArg Elem.ht ((u.putHt_htAt vs h).trans (s.putHt_htAt vs h).symm)

theorem sameElems_putCt (vs : List CtEntry) : SameElems .ct vs.length (s.putCt vs) (u.putCt vs) :=
  fun _ h => congrArg Elem.ct ((u.putCt_ctAt vs h).trans (s.putCt_ctAt vs h).symm)

end Put

/-- A register holds no more than what was written to it. -/
theorem heldBy_toNat_le (c : Config) (r : Reg) (v : Nat) : (heldBy c r (BitVec.ofNat 32 v)).toNat ≤ v := by
  unfold heldBy
  split
  · simp only [BitVec.toNat_ofNat]
    exact (Nat.mod_le _ _).trans ((Nat.mod_le _ _).trans (Nat.mod_le _ _))
  · simp only [BitVec.toNat_ofNat]
    exact Nat.mod_le _ _

/-! ## What the loops produce -/

/-- The walk of CDF, when it is done, made one entry for each entry of the table and their sum (R114). -/
theorem accumulate_done {base : Nat} {t : List FtEntry} {r : List CdfEntry × Nat}
    (h : accumulate base 0 t = .done r) : r = (cdfEntries 0 t, countSum t) ∧ countSum t ≤ base := by
  rw [accumulate_eq base 0 t (Nat.zero_le _)] at h
  simp only [Nat.zero_add] at h
  split at h
  · next hc => cases h; exact ⟨rfl, hc⟩
  · cases h

/-- RDEC's loop, when it is done, made the symbols it was asked for (R141). -/
theorem decodeSymbols_length {base : Nat} {t : List CdfEntry} {n : Nat} :
    ∀ {x : Nat} {bs : List Byte} {d : List Byte × Nat × List Byte},
      decodeSymbols base t n x bs = .done d → d.1.length = n := by
  induction n with
  | zero => intro x bs d h; cases h; rfl
  | succ n ih =>
    intro x bs d h
    simp only [decodeSymbols] at h
    split at h
    · cases h
    · split at h
      · cases h
      · obtain ⟨d', hd', h⟩ := Result.andThen_eq_done.1 h
        cases h
        simp [ih hd']

/-- HDEC's loop, when it is done, made the symbols it was asked for (R170, R171). -/
theorem decodeBits_length {ct : Byte → CtEntry} {n : Nat} {bs : List Bool} :
    ∀ {acc : List Bool} {out o : List Byte},
      decodeBits ct n bs acc out = .done o → out.length ≤ n → o.length = n := by
  induction bs with
  | nil =>
    intro acc out o h hn
    rw [decodeBits] at h
    split at h
    · cases h
    · split at h
      · cases h
      · cases h; omega
  | cons b bs ih =>
    intro acc out o h hn
    rw [decodeBits] at h
    split at h
    · exact ih h hn
    · split at h
      · cases h
      · next c _ hne => exact ih h (by rw [List.length_append, List.length_singleton]; omega)

/-- HCODE's walk reads only the nodes of the tree (R163, R164). -/
theorem HuffmanTree.visit_congr {n : Nat} {ht ht' : Nat → HtNode} (h : HuffmanTree n ht)
    (hc : ∀ q < 2 * n - 1, ht' q = ht q) (fuel : Nat) :
    ∀ (q : Nat) (path : List Bool), q < 2 * n - 1 → visit ht' fuel q path = visit ht fuel q path := by
  induction fuel with
  | zero => intro q path hq; rw [visit, visit, hc q hq]
  | succ fuel ih =>
    intro q path hq
    rw [visit, visit, hc q hq]
    cases hi : (ht q).tag with
    | leaf => rfl
    | internal =>
      obtain ⟨-, hl, hr, -, -⟩ := h.2.1 q hq (h.internal_ge hi)
      rw [ih _ _ (hl.trans hq), ih _ _ (hr.trans hq)]

/-! ## The bodies -/

section Bodies

variable {s u : State}

theorem freqBody_agree (h : SameInputs .freq s u) : (freqBody s).Agree (SameOutputs .freq s) (freqBody u) := by
  obtain ⟨hcfg, hregs, hsym⟩ := h
  have hlen : u.n .slen = s.n .slen := hregs.n_eq (by simp)
  simp only [freqBody, hcfg, hlen, hsym.symbols]
  refine .ite (fun _ => .raise _) fun _ => .done ⟨?_, (sameElems_putFt s u _).mono ?_⟩
  · simp [SameRegs, hcfg]
  · simp [State.setNat_n, heldBy_toNat_le]

/-- `ValidateFT` reads FTLEN and the entries below it (R111). -/
theorem validateFt_congr (hlen : u.n .ftlen = s.n .ftlen) (hft : u.ftTable (s.n .ftlen) = s.ftTable (s.n .ftlen)) :
    validateFt u = validateFt s := by
  simp only [validateFt, hlen, hft]

theorem cdfBody_agree (h : SameInputs .cdf s u) : (cdfBody s).Agree (SameOutputs .cdf s) (cdfBody u) := by
  obtain ⟨hcfg, hregs, hft⟩ := h
  simp only [cdfBody, hcfg, validateFt_congr (hregs.n_eq (by simp)) hft.ftTable]
  refine .andThen_same fun t _ => .andThen_same fun r hr => ?_
  obtain ⟨rfl, -⟩ := accumulate_done hr
  refine .done ⟨?_, (sameElems_putCdft s u _).mono ?_⟩
  · simp [SameRegs, hcfg]
  · simp [State.setNat_n, heldBy_toNat_le]

theorem rencBody_agree (h : SameInputs .renc s u) : (rencBody s).Agree (SameOutputs .renc s) (rencBody u) := by
  obtain ⟨hcfg, hregs, hsym, hcdft⟩ := h
  have hslen : u.n .slen = s.n .slen := hregs.n_eq (by simp)
  have hclen : u.n .clen = s.n .clen := hregs.n_eq (by simp)
  have htotal : u.n .total = s.n .total := hregs.n_eq (by simp)
  simp only [rencBody, hcfg, hslen, hclen, htotal, hsym.symbols, hcdft.cdfTable]
  refine .ite (fun h0 => .done ?_) fun _ => .ite (fun _ => .raise _) fun _ => .ite (fun _ => .raise _) fun _ =>
    .andThen_same fun xe _ => .ite (fun _ => .raise _) fun _ => .done ?_
  · refine ⟨?_, ?_, fun hne => absurd h0 hne⟩
    · simp [SameRegs, hcfg]
    · simp [SameElems, State.setNat_n, heldBy]
  · refine ⟨?_, (sameElems_putPay s u _).mono ?_, fun _ => ?_⟩
    · simp [SameRegs, hcfg]
    · rw [List.length_reverse]
      simp [State.setNat_n, heldBy_toNat_le]
    · simp [SameRegs, hcfg]

theorem rdecBody_agree (h : SameInputs .rdec s u) : (rdecBody s).Agree (SameOutputs .rdec s) (rdecBody u) := by
  obtain ⟨hcfg, hregs, hpay, hcdft⟩ := h
  have hnsym : u.n .nsym = s.n .nsym := hregs.n_eq (by simp)
  have hplen : u.n .plen = s.n .plen := hregs.n_eq (by simp)
  have hclen : u.n .clen = s.n .clen := hregs.n_eq (by simp)
  have htotal : u.n .total = s.n .total := hregs.n_eq (by simp)
  simp only [rdecBody, hcfg, hnsym, hplen, hclen, htotal, hpay.payload, hcdft.cdfTable]
  refine .ite (fun h0 => .done ?_) fun _ => .ite (fun _ => .raise _) fun _ => .ite (fun _ => .raise _) fun _ =>
    .ite (fun _ => .raise _) fun _ => .andThen_same fun d hd => .done ?_
  · refine ⟨?_, ?_, fun hne => absurd h0 hne⟩
    · simp [SameRegs, hcfg]
    · simp [SameElems, State.setNat_n, heldBy]
  · refine ⟨?_, (sameElems_putSym s u _).mono ?_, fun _ => ?_⟩
    · simp [SameRegs, hcfg]
    · simpa [State.setNat_n, decodeSymbols_length hd] using heldBy_toNat_le s.cfg .slen _
    · simp [SameRegs, hcfg]

theorem htreeBody_agree (h : SameInputs .htree s u) : (htreeBody s).Agree (SameOutputs .htree s) (htreeBody u) := by
  obtain ⟨hcfg, hregs, hft⟩ := h
  simp only [htreeBody, validateFt_congr (hregs.n_eq (by simp)) hft.ftTable]
  refine .andThen_same fun t _ => .ite (fun _ => .raise _) fun _ => .done ⟨?_, (sameElems_putHt s u _).mono ?_⟩
  · simp [SameRegs, hcfg]
  · simp [State.setNat_n, heldBy_toNat_le]

theorem sameElems_putCodeTable (s u : State) (cs : List (Byte × List Bool)) :
    SameElems .ct 256 (s.putCt (codeTable cs)) (u.putCt (codeTable cs)) :=
  (sameElems_putCt s u (codeTable cs)).mono (codeTable_length cs).ge

theorem hcodeBody_agree (h : SameInputs .hcode s u) (htree : TreeInv s) :
    (hcodeBody s).Agree (SameOutputs .hcode s) (hcodeBody u) := by
  obtain ⟨hcfg, hregs, hht⟩ := h
  have hnnode : u.n .nnode = s.n .nnode := hregs.n_eq (by simp)
  have hroot : u.n .root = s.n .root := hregs.n_eq (by simp)
  simp only [hcodeBody, hnnode, hroot]
  refine .ite (fun _ => .done (sameElems_putCodeTable s u _)) fun h0 => ?_
  obtain ⟨hz, -⟩ | ⟨hn, h1, -, hr, htree⟩ := htree
  · exact absurd hz h0
  · have hvisit := htree.visit_congr (fun q hq => hht.htAt (by omega)) 255 (s.n .root) [] (by omega)
    rw [hht.htAt (show s.n .root < s.n .nnode by omega), hvisit]
    cases (s.htAt (s.n .root)).tag with
    | leaf => exact .done (sameElems_putCodeTable s u _)
    | internal =>
      cases visit s.htAt 255 (s.n .root) [] with
      | none => exact .stuck _
      | some cs => exact .done (sameElems_putCodeTable s u _)

theorem packBits_agree (h : SameInputs .bpack s u) : (packBits s).Agree (SameOutputs .bpack s) (packBits u) := by
  obtain ⟨hcfg, hregs, hbits⟩ := h
  have hblen : u.n .blen = s.n .blen := hregs.n_eq (by simp)
  simp only [packBits_eq, packedState, hcfg, hblen, hbits.bitString]
  refine .ite (fun _ => .done ⟨?_, (sameElems_putPay s u _).mono ?_⟩) fun _ => .raise _
  · simp [SameRegs, hcfg]
  · rw [List.length_cons, List.length_map, List.length_range, Nat.add_comm _ 1]
    simp [State.setNat_n, heldBy_toNat_le]

theorem unpackBits_agree (h : SameInputs .bunpk s u) :
    (unpackBits s).Agree (SameOutputs .bunpk s) (unpackBits u) := by
  obtain ⟨hcfg, hregs, hpay⟩ := h
  have hplen : u.n .plen = s.n .plen := hregs.n_eq (by simp)
  simp only [unpackBits_eq, hcfg, hplen]
  refine .ite (fun _ => .raise _) fun _ => .ite (fun _ => .raise _) fun h0 => ?_
  simp only [hpay.payAt (Nat.pos_of_ne_zero h0), unpackedState, hplen, hpay.payload]
  refine .ite (fun _ => .raise _) fun _ => .ite (fun _ => .raise _) fun _ =>
    .done ⟨?_, (sameElems_putBits s u _).mono ?_⟩
  · simp [SameRegs, hcfg]
  · rw [List.length_map, List.length_range]
    simp [State.setNat_n, heldBy_toNat_le]

/-- HENC's bit stream is an input of its packing (R167). -/
theorem sameInputs_bpack_putBits (hcfg : u.cfg = s.cfg) (bs : List Bool) :
    SameInputs .bpack ((s.putBits bs).setNat .blen bs.length) ((u.putBits bs).setNat .blen bs.length) := by
  refine ⟨hcfg, ?_, (sameElems_putBits s u bs).mono ?_⟩
  · simp [SameRegs, hcfg]
  · simp [State.setNat_n, heldBy_toNat_le]

theorem hencBody_agree (h : SameInputs .henc s u) : (hencBody s).Agree (SameOutputs .henc s) (hencBody u) := by
  obtain ⟨hcfg, hregs, hsym, hct⟩ := h
  have hslen : u.n .slen = s.n .slen := hregs.n_eq (by simp)
  simp only [hencBody, hcfg, hslen, hsym.symbols, hct.ctOf]
  refine .ite (fun h0 => .done ?_) fun _ => .ite (fun _ => .raise _) fun _ => .andThen_same fun bs _ =>
    .andThen (packBits_agree (sameInputs_bpack_putBits hcfg bs)) fun a b ha hb hab => .done ?_
  · refine ⟨?_, ?_, fun hne => absurd h0 hne⟩
    · simp [SameRegs, hcfg]
    · simp [SameElems, State.setNat_n, heldBy]
  · obtain ⟨-, hblen, hbits⟩ := sameInputs_bpack_putBits hcfg bs
    obtain ⟨hout, hpay⟩ := hab
    have fa : Frame [.plen, .pad] [.pay] _ a := packBits_frame ha (by simp) (by simp) (by simp)
    have fb : Frame [.plen, .pad] [.pay] _ b := packBits_frame hb (by simp) (by simp) (by simp)
    have hab : b.cfg = a.cfg := (fb.2.2.1.trans hcfg).trans fa.2.2.1.symm
    have hblen' : SameRegs [.blen] a b := hblen.of_frame fa fb (by simp)
    have hbits' : SameElems .bits (a.n .blen) a b := by
      rw [State.n, fa.1 .blen (by simp)]
      exact hbits.of_frame fa fb (by simp)
    simp only [SameRegs, List.forall_mem_cons] at hout hblen'
    refine ⟨?_, hpay, fun _ => ⟨?_, hbits'⟩⟩
    · simp [SameRegs, hab, hout]
    · simp [SameRegs, hblen', hout]

theorem hdecBody_agree (h : SameInputs .hdec s u) : (hdecBody s).Agree (SameOutputs .hdec s) (hdecBody u) := by
  obtain ⟨hcfg, hregs, hpay, hct⟩ := h
  have hnsym : u.n .nsym = s.n .nsym := hregs.n_eq (by simp)
  have hplen : SameRegs [.plen] s u := fun r hr => hregs r (List.mem_cons_of_mem _ hr)
  simp only [hdecBody, hcfg, hnsym]
  refine .ite (fun h0 => .done ?_) fun _ => .ite (fun _ => .raise _) fun _ =>
    .andThen (unpackBits_agree ⟨hcfg, hplen, hpay⟩) fun a b ha hb hab => ?_
  · refine ⟨?_, ?_, fun hne => absurd h0 hne⟩
    · simp [SameRegs, hcfg]
    · simp [SameElems, State.setNat_n, heldBy]
  · obtain ⟨hout, hbits⟩ := hab
    have fa : Frame [.blen, .pad] [.bits] s a := unpackBits_frame ha (by simp) (by simp) (by simp)
    have fb : Frame [.blen, .pad] [.bits] u b := unpackBits_frame hb (by simp) (by simp) (by simp)
    have hab : b.cfg = a.cfg := (fb.2.2.1.trans hcfg).trans fa.2.2.1.symm
    rw [(hct.of_frame fa fb (by simp)).ctOf, hout.n_eq (by simp), hbits.bitString]
    refine .andThen_same fun out ho => .done ⟨?_, (sameElems_putSym a b out).mono ?_, fun _ => ⟨?_, hbits⟩⟩
    · simp [SameRegs, hab]
    · rw [decodeBits_length ho (Nat.zero_le _)]
      simp [State.setNat_n, heldBy_toNat_le]
    · simpa [SameRegs] using hout

/-- A body goes the same way on two states that agree on its inputs; for HCODE, with HT as HTREE left it (R65, R213). -/
theorem bodyOf_agree {i : Instr} (h : SameInputs i s u) (htree : i = .hcode → TreeInv s) :
    (bodyOf i s).Agree (SameOutputs i s) (bodyOf i u) := by
  cases i with
  | freq => exact freqBody_agree h
  | cdf => exact cdfBody_agree h
  | renc => exact rencBody_agree h
  | rdec => exact rdecBody_agree h
  | htree => exact htreeBody_agree h
  | hcode => exact hcodeBody_agree h (htree rfl)
  | henc => exact hencBody_agree h
  | hdec => exact hdecBody_agree h
  | bpack => exact packBits_agree h
  | bunpk => exact unpackBits_agree h

end Bodies

/-! ## The commands -/

/-- The command frame writes STATUS only, which is no input (R65). -/
theorem SameInputs.begin {i : Instr} {s u : State} (h : SameInputs i s u) (op : BitVec 8) :
    SameInputs i (s.begin op) (u.begin op) := by cases i <;> exact h

/-- The command frame writes STATUS only, which is no output of R65. -/
theorem SameOutputs.finish {i : Instr} {s a b : State} {op : BitVec 8} (h : SameOutputs i (s.begin op) a b)
    (code : BitVec 8) : SameOutputs i s (a.finish code) (b.finish code) := by cases i <;> exact h

/-- Settles O56: the bodies go the same way, and the frame around them makes the same STATUS. -/
theorem outputsDependOnInputsAlone : Obligations.OutputsDependOnInputsAlone := by
  intro i s u t hin hs htree
  have hagree := bodyOf_agree (hin.begin i.opc) htree
  obtain ⟨a, ha, rfl⟩ | ⟨k, hk, rfl⟩ := exec_cases hs
  · rw [ha] at hagree
    obtain ⟨b, hb, hab⟩ := hagree.of_done
    exact ⟨b.finish 0, exec_of_done hb, (status_of_done hb).trans (status_of_done ha).symm, fun _ => hab.finish 0⟩
  · rw [hk] at hagree
    obtain ⟨v, hv, hst, -⟩ := endsWith_of_raise hagree.of_raise
    have hst' := (raiseError_spec s i k).1
    refine ⟨v, hv, hst.trans hst'.symm, fun he => ?_⟩
    rw [hst'] at he
    cases he

end Sys2Proof.Machine

/-! # The invariant of the machine

Its parts one after another: the memories and their free-value keys, the CDF table, the Huffman tree, STATUS; for each what
a command and what a host action does to it. -/

namespace Sys2Proof.Machine

/-! ## Memories in canonical form, under keys already used -/

section MemoryOk

variable {α : Type} {m : Memory α} {size g : Nat}

/-- A memory in canonical form, within its size, whose key is below the next unused one (R60; log 4). -/
def Memory.Ok (size fresh : Nat) (m : Memory α) : Prop := m.wf size ∧ m.gen < fresh

theorem Memory.Ok.succ (h : m.Ok size g) : m.Ok size (g + 1) := ⟨h.1, Nat.lt_succ_of_lt h.2⟩

theorem Memory.Ok.write (h : m.Ok size g) {i : Nat} (hi : i < size) (v : α) : (m.write i v).Ok size g :=
  ⟨Memory.write_wf h.1 hi v, h.2⟩

theorem Memory.ok_ofList {vs : List α} (h : vs.length ≤ size) : (Memory.ofList g vs).Ok size (g + 1) :=
  ⟨Memory.ofList_wf h, Nat.lt_succ_self g⟩

theorem Memory.ok_unknown : (Memory.unknown g : Memory α).Ok size (g + 1) :=
  ⟨Memory.unknown_wf size g, Nat.lt_succ_self g⟩

theorem Memory.Ok.forgetIf (h : m.Ok size g) (b : Bool) : (m.forgetIf b g).Ok size (g + 1) := by
  cases b
  · exact h.succ
  · exact Memory.ok_unknown

end MemoryOk

/-- One memory of a state is so. -/
def State.SpaceOk (s : State) : SpaceId → Prop
  | .sym => s.sym.Ok (spaceSize s.cfg .sym) s.fresh
  | .pay => s.pay.Ok (spaceSize s.cfg .pay) s.fresh
  | .bits => s.bits.Ok (spaceSize s.cfg .bits) s.fresh
  | .ft => s.ft.Ok (spaceSize s.cfg .ft) s.fresh
  | .cdft => s.cdft.Ok (spaceSize s.cfg .cdft) s.fresh
  | .ht => s.ht.Ok (spaceSize s.cfg .ht) s.fresh
  | .ct => s.ct.Ok (spaceSize s.cfg .ct) s.fresh

/-- Every memory of a state is so. -/
def MemoriesOk (s : State) : Prop := ∀ sp, s.SpaceOk sp

theorem memoriesOk_iff (s : State) : MemoriesOk s ↔ MemInv s ∧ FreshInv s := by
  constructor
  · intro h
    exact ⟨⟨(h .sym).1, (h .pay).1, (h .bits).1, (h .ft).1, (h .cdft).1, (h .ht).1, (h .ct).1⟩,
      (h .sym).2, (h .pay).2, (h .bits).2, (h .ft).2, (h .cdft).2, (h .ht).2, (h .ct).2⟩
  · rintro ⟨⟨m1, m2, m3, m4, m5, m6, m7⟩, f1, f2, f3, f4, f5, f6, f7⟩ sp
    cases sp
    · exact ⟨m1, f1⟩
    · exact ⟨m2, f2⟩
    · exact ⟨m3, f3⟩
    · exact ⟨m4, f4⟩
    · exact ⟨m5, f5⟩
    · exact ⟨m6, f6⟩
    · exact ⟨m7, f7⟩

section Memories

variable {s u : State}

/-! Registers and STATUS are no part of it. -/

theorem MemoriesOk.setNat (h : MemoriesOk s) (r : Reg) (v : Nat) : MemoriesOk (s.setNat r v) := h
theorem MemoriesOk.setReg (h : MemoriesOk s) (r : Reg) (v : Word) : MemoriesOk (s.setReg r v) := h
theorem MemoriesOk.zeroRegs (h : MemoriesOk s) (rs : List Reg) : MemoriesOk (s.zeroRegs rs) := h
theorem MemoriesOk.begin (h : MemoriesOk s) (op : BitVec 8) : MemoriesOk (s.begin op) := h
theorem MemoriesOk.finish (h : MemoriesOk s) (code : BitVec 8) : MemoriesOk (s.finish code) := h

/-- A key can be skipped. -/
theorem MemoriesOk.succ (h : MemoriesOk s) : MemoriesOk { s with fresh := s.fresh + 1 } := by
  intro sp
  have hsp := h sp
  cases sp <;> exact Memory.Ok.succ hsp

/-! A memory is written whole under the next key, the others stay as they were. -/

theorem MemoriesOk.putSym (h : MemoriesOk s) {vs : List Byte} (hl : vs.length ≤ s.cfg.symCap.val) :
    MemoriesOk (s.putSym vs) := by
  intro sp
  have hsp := h.succ sp
  cases sp
  case sym => exact Memory.ok_ofList hl
  all_goals exact hsp

theorem MemoriesOk.putPay (h : MemoriesOk s) {vs : List Byte} (hl : vs.length ≤ s.cfg.payCap.val) :
    MemoriesOk (s.putPay vs) := by
  intro sp
  have hsp := h.succ sp
  cases sp
  case pay => exact Memory.ok_ofList hl
  all_goals exact hsp

theorem MemoriesOk.putBits (h : MemoriesOk s) {vs : List Bool} (hl : vs.length ≤ s.cfg.bitsCap.val) :
    MemoriesOk (s.putBits vs) := by
  intro sp
  have hsp := h.succ sp
  cases sp
  case bits => exact Memory.ok_ofList hl
  all_goals exact hsp

theorem MemoriesOk.putFt (h : MemoriesOk s) {vs : List FtEntry} (hl : vs.length ≤ 256) :
    MemoriesOk (s.putFt vs) := by
  intro sp
  have hsp := h.succ sp
  cases sp
  case ft => exact Memory.ok_ofList hl
  all_goals exact hsp

theorem MemoriesOk.putCdft (h : MemoriesOk s) {vs : List CdfEntry} (hl : vs.length ≤ 256) :
    MemoriesOk (s.putCdft vs) := by
  intro sp
  have hsp := h.succ sp
  cases sp
  case cdft => exact Memory.ok_ofList hl
  all_goals exact hsp

theorem MemoriesOk.putHt (h : MemoriesOk s) {vs : List HtNode} (hl : vs.length ≤ 511) :
    MemoriesOk (s.putHt vs) := by
  intro sp
  have hsp := h.succ sp
  cases sp
  case ht => exact Memory.ok_ofList hl
  all_goals exact hsp

theorem MemoriesOk.putCt (h : MemoriesOk s) {vs : List CtEntry} (hl : vs.length ≤ 256) :
    MemoriesOk (s.putCt vs) := by
  intro sp
  have hsp := h.succ sp
  cases sp
  case ct => exact Memory.ok_ofList hl
  all_goals exact hsp

/-- Error entry makes whole memories unknown under the next key (R212). -/
theorem MemoriesOk.forget (h : MemoriesOk s) (rs : List Reg) (ms : List SpaceId) : MemoriesOk (s.forget rs ms) := by
  intro sp
  have hsp := h sp
  cases sp <;> exact Memory.Ok.forgetIf hsp _

theorem MemoriesOk.raiseError (h : MemoriesOk s) (i : Instr) (k : ErrKind) : MemoriesOk (s.raiseError i k) :=
  ((h.forget _ _).zeroRegs _).finish _

/-- Reset makes every memory unknown under the next key (R232; log 15). -/
theorem memoriesOk_resetEvent (s : State) : MemoriesOk s.resetEvent := by
  intro sp
  cases sp <;> exact Memory.ok_unknown

/-- A host write within its memory keeps the canonical form (R46). -/
theorem MemoriesOk.storeElem (h : MemoriesOk s) {i : Nat} {e : Elem} (hi : i < spaceSize s.cfg e.space) :
    MemoriesOk (storeElem i e s) := by
  intro sp
  have hsp := h sp
  cases e <;> cases sp <;> first | exact hsp | exact Memory.Ok.write hsp hi _

/-! A command writes no more elements than its output memory has (R60, R73). -/

theorem memoriesOk_freqBody (h : MemoriesOk s) (hu : freqBody s = .done u) : MemoriesOk u := by
  unfold freqBody at hu
  split at hu
  · cases hu
  · cases hu
    have hlen := histogram_length_le (s.symbols (s.n .slen)) (by simpa using s.n_lt .slen)
    exact (h.putFt hlen).setNat _ _

theorem memoriesOk_cdfBody (h : MemoriesOk s) (hu : cdfBody s = .done u) : MemoriesOk u := by
  obtain ⟨t, ht, hu⟩ := Result.andThen_eq_done.1 hu
  obtain ⟨r, hr, hu⟩ := Result.andThen_eq_done.1 hu
  obtain ⟨hlen, rfl, -⟩ := validateFt_eq_done.1 ht
  obtain ⟨rfl, -⟩ := accumulate_done hr
  cases hu
  exact ((h.putCdft (by simpa using hlen)).setNat _ _).setNat _ _

theorem memoriesOk_rencBody (h : MemoriesOk s) (hu : rencBody s = .done u) : MemoriesOk u := by
  unfold rencBody at hu
  split at hu
  · cases hu; exact (h.setNat _ _).setNat _ _
  · split at hu
    · cases hu
    · split at hu
      · cases hu
      · obtain ⟨xe, -, hu⟩ := Result.andThen_eq_done.1 hu
        simp only at hu
        split at hu
        · cases hu
        · next hfit =>
          cases hu
          exact (((h.putPay (by rw [List.length_reverse]; omega)).setNat _ _).setNat _ _).setNat _ _

theorem memoriesOk_rdecBody (h : MemoriesOk s) (hu : rdecBody s = .done u) : MemoriesOk u := by
  unfold rdecBody at hu
  split at hu
  · cases hu; exact h.setNat _ _
  · split at hu
    · cases hu
    · next hcap =>
      split at hu
      · cases hu
      · split at hu
        · cases hu
        · obtain ⟨d, hd, hu⟩ := Result.andThen_eq_done.1 hu
          cases hu
          exact (((h.putSym (by rw [decodeSymbols_length hd]; omega)).setNat _ _).setNat _ _).setNat _ _

/-- HTREE makes at most `2 · 256 - 1` nodes (R163). -/
theorem buildTree_length_le {t : List FtEntry} (hn : t.length ≤ 256) (hs : countSum t < 2 ^ 32) :
    (buildTree t).1.length ≤ 511 := by
  obtain rfl | hne := eq_or_ne t []
  · simp [buildTree_nil]
  · obtain ⟨-, hlen, -⟩ := buildTree_spec (List.length_pos_iff.2 hne) hn hs
    omega

/-- HTREE, when it is done, had a valid table with a sum of counts below `2^32`, and wrote the tree of it (R161). -/
theorem htreeBody_done (hu : htreeBody s = .done u) :
    ∃ t, t.length ≤ 256 ∧ (t.map (·.sym)).Nodup ∧ countSum t < 2 ^ 32 ∧
      u = ((s.putHt (buildTree t).1).setNat .nnode (buildTree t).1.length).setNat .root (rootOf (buildTree t).2) := by
  obtain ⟨t, ht, hu⟩ := Result.andThen_eq_done.1 hu
  split at hu
  · cases hu
  · next hsum =>
    cases hu
    obtain ⟨hlen, rfl, hvalid⟩ := validateFt_eq_done.1 ht
    exact ⟨_, by simpa using hlen, ((ftValid_iff _).1 hvalid).2, Nat.lt_of_not_le hsum, rfl⟩

theorem memoriesOk_htreeBody (h : MemoriesOk s) (hu : htreeBody s = .done u) : MemoriesOk u := by
  obtain ⟨t, hlen, -, hsum, rfl⟩ := htreeBody_done hu
  exact ((h.putHt (buildTree_length_le hlen hsum)).setNat _ _).setNat _ _

theorem memoriesOk_hcodeBody (h : MemoriesOk s) (hu : hcodeBody s = .done u) : MemoriesOk u := by
  have hput : ∀ cs, MemoriesOk (s.putCt (codeTable cs)) := fun cs => h.putCt (codeTable_length cs).le
  unfold hcodeBody at hu
  repeat' split at hu
  all_goals cases hu
  all_goals exact hput _

theorem memoriesOk_packBits (h : MemoriesOk s) (hu : packBits s = .done u) : MemoriesOk u := by
  rw [packBits_eq] at hu
  split at hu
  · next hfit =>
    cases hu
    rw [← packed_bytes] at hfit
    exact ((h.putPay (by simp; omega)).setNat _ _).setNat _ _
  · cases hu

theorem memoriesOk_unpackBits (h : MemoriesOk s) (hu : unpackBits s = .done u) : MemoriesOk u := by
  rw [unpackBits_eq] at hu
  split at hu
  · cases hu
  · split at hu
    · cases hu
    · split at hu
      · cases hu
      · split at hu
        · cases hu
        · next hfit =>
          cases hu
          exact ((h.putBits (by rw [List.length_map, List.length_range]; omega)).setNat _ _).setNat _ _

theorem memoriesOk_hencBody (h : MemoriesOk s) (hu : hencBody s = .done u) : MemoriesOk u := by
  unfold hencBody at hu
  split at hu
  · cases hu; exact (h.setNat _ _).setNat _ _
  · split at hu
    · cases hu
    · simp only [Result.andThen_eq_done] at hu
      obtain ⟨bs, hbs, p, hp, hu⟩ := hu
      obtain ⟨-, hfit, rfl⟩ := concatCodes_done hbs
      rw [← concat_length] at hfit
      cases hu
      exact (memoriesOk_packBits ((h.putBits (by omega)).setNat _ _) hp).setNat _ _

theorem memoriesOk_hdecBody (h : MemoriesOk s) (hu : hdecBody s = .done u) : MemoriesOk u := by
  unfold hdecBody at hu
  split at hu
  · cases hu; exact h.setNat _ _
  · split at hu
    · cases hu
    · obtain ⟨b, hb, hu⟩ := Result.andThen_eq_done.1 hu
      obtain ⟨out, hout, hu⟩ := Result.andThen_eq_done.1 hu
      obtain ⟨-, -, hcfg, -⟩ : Frame [.blen, .pad] [.bits] s b := unpackBits_frame hb (by simp) (by simp) (by simp)
      have hlen := decodeBits_length hout (Nat.zero_le _)
      cases hu
      exact ((memoriesOk_unpackBits h hb).putSym (by rw [hcfg]; omega)).setNat _ _

theorem memoriesOk_bodyOf {i : Instr} (h : MemoriesOk s) (hu : bodyOf i s = .done u) : MemoriesOk u := by
  cases i with
  | freq => exact memoriesOk_freqBody h hu
  | cdf => exact memoriesOk_cdfBody h hu
  | renc => exact memoriesOk_rencBody h hu
  | rdec => exact memoriesOk_rdecBody h hu
  | htree => exact memoriesOk_htreeBody h hu
  | hcode => exact memoriesOk_hcodeBody h hu
  | henc => exact memoriesOk_hencBody h hu
  | hdec => exact memoriesOk_hdecBody h hu
  | bpack => exact memoriesOk_packBits h hu
  | bunpk => exact memoriesOk_unpackBits h hu

theorem memoriesOk_exec {i : Instr} (h : MemoriesOk s) (ht : exec i s = .next u) : MemoriesOk u := by
  obtain ⟨a, ha, rfl⟩ | ⟨k, -, rfl⟩ := exec_cases ht
  · exact (memoriesOk_bodyOf (h.begin _) ha).finish _
  · exact (h.begin _).raiseError _ _

end Memories

/-- Two registers other than X, written one after the other with numbers of 32 bits, hold them. -/
theorem State.setNat_setNat_n (s : State) {r q : Reg} (hrq : r ≠ q) (hr : r ≠ .x) (hq : q ≠ .x) {v w : Nat}
    (hv : v < 2 ^ 32) (hw : w < 2 ^ 32) :
    ((s.setNat r v).setNat q w).n r = v ∧ ((s.setNat r v).setNat q w).n q = w := by
  rw [State.setNat_n, if_neg hrq, State.setNat_n, if_pos rfl, State.setNat_n, if_pos rfl]
  exact ⟨heldBy_toNat hr hv, heldBy_toNat hq hw⟩

/-! ## The CDF table -/

theorem countSum_append (t t' : List FtEntry) : countSum (t ++ t') = countSum t + countSum t' := by
  simp [countSum]

/-- The sum of the counts up to an entry, with it (R114). -/
theorem countSum_take_succ (t : List FtEntry) {j : Nat} (h : j < t.length) :
    countSum (t.take (j + 1)) = countSum (t.take j) + t[j].count.toNat := by
  rw [← List.take_append_getElem h, countSum_append]
  simp [countSum]

theorem countSum_take_le (t : List FtEntry) (j : Nat) : countSum (t.take j) ≤ countSum t := by
  conv_rhs => rw [← List.take_append_drop j t, countSum_append]
  exact Nat.le_add_right _ _

/-- What CDF writes for a valid table whose sum is at most `base` is a partition of `[0, sum)` (R115). -/
theorem cdfPartition_cdfEntries {base : Nat} {t : List FtEntry} {e : Nat → CdfEntry} (hbase : base < 2 ^ 32)
    (hlen : t.length ≤ 256) (hvalid : ftValid t = true) (hsum : countSum t ≤ base)
    (he : ∀ j (h : j < t.length), e j = (cdfEntries 0 t)[j]'(by simpa using h)) :
    CdfPartition base t.length (countSum t) e := by
  obtain ⟨hpos, hnodup⟩ := (ftValid_iff t).1 hvalid
  have hentry : ∀ j (h : j < t.length), (e j).sym = t[j].sym ∧ (e j).low.toNat = countSum (t.take j) ∧
      (e j).freq = t[j].count := by
    intro j h
    have hle := countSum_take_le t j
    rw [he j h, cdfEntries_getElem 0 t j h]
    refine ⟨rfl, ?_, rfl⟩
    rw [BitVec.toNat_ofNat, Nat.zero_add, Nat.mod_eq_of_lt (by omega)]
  refine ⟨hlen, fun j hj => ?_, fun k hk j hj => ?_, fun h0 => ?_, fun j hj hj' => ?_, fun h0 => ?_, fun h0 => ?_, hsum⟩
  · obtain ⟨-, -, hfreq⟩ := hentry j hj
    rw [hfreq, Nat.one_le_iff_ne_zero]
    exact fun hz => hpos _ (List.getElem_mem hj) (BitVec.eq_of_toNat_eq hz)
  · rw [(hentry j (by omega)).1, (hentry k hk).1]
    rw [List.Nodup, List.pairwise_map, List.pairwise_iff_getElem] at hnodup
    exact hnodup j k (by omega) hk hj
  · obtain ⟨-, hlow, -⟩ := hentry 0 h0
    exact BitVec.eq_of_toNat_eq hlow
  · obtain ⟨-, hlow, hfreq⟩ := hentry j hj
    obtain ⟨-, hlow', -⟩ := hentry (j + 1) hj'
    rw [hlow', hlow, hfreq, countSum_take_succ t hj]
  · obtain ⟨-, hlow, hfreq⟩ := hentry (t.length - 1) (by omega)
    rw [hlow, hfreq, ← countSum_take_succ t (by omega), List.take_of_length_le (by omega)]
  · rw [List.length_eq_zero_iff.1 h0]
    rfl

section Cdf

variable {s u : State}

/-- CDF, when it is done, leaves such a table (R115). -/
theorem cdfInv_cdfBody (hu : cdfBody s = .done u) : CdfInv u := by
  obtain ⟨t, ht, hu⟩ := Result.andThen_eq_done.1 hu
  obtain ⟨r, hr, hu⟩ := Result.andThen_eq_done.1 hu
  obtain ⟨hlen, htab, hvalid⟩ := validateFt_eq_done.1 ht
  obtain ⟨rfl, hsum⟩ := accumulate_done hr
  have hlen : t.length ≤ 256 := by simpa [htab] using hlen
  have hbase := s.cfg.base_le
  cases hu
  obtain ⟨hclen, htotal⟩ := State.setNat_setNat_n (s.putCdft (cdfEntries 0 t)) (r := .clen) (q := .total)
    (by decide) (by decide) (by decide) (show t.length < 2 ^ 32 by omega) (show countSum t < 2 ^ 32 by omega)
  rw [CdfInv, hclen, htotal]
  exact cdfPartition_cdfEntries (by simp; omega) hlen hvalid hsum fun j hj => s.putCdft_cdftAt _ _

/-- No entry and no total (R114, R212). -/
theorem cdfInv_empty (hclen : s.reg .clen = 0) (htotal : s.reg .total = 0) : CdfInv s := by
  simp [CdfInv, CdfPartition, State.n, hclen, htotal]

/-- What leaves CLEN, TOTAL and CDFT alone keeps the table's laws (R115: "whatever the host did since"). -/
theorem CdfInv.of_frame {rs : List Reg} {ms : List SpaceId} (h : CdfInv s) (hf : Frame rs ms s u)
    (hclen : Reg.clen ∉ rs) (htotal : Reg.total ∉ rs) (hcdft : SpaceId.cdft ∉ ms) : CdfInv u := by
  obtain ⟨hreg, helem, hcfg, -⟩ := hf
  have hat : u.cdftAt = s.cdftAt := funext fun i => Elem.cdft.inj (helem .cdft hcdft i)
  rw [CdfInv, hat, hcfg, State.n, State.n, hreg _ hclen, hreg _ htotal]
  exact h

theorem cdfInv_exec {i : Instr} (h : CdfInv s) (ht : exec i s = .next u) : CdfInv u := by
  by_cases hi : i = .cdf
  · subst hi
    obtain ⟨a, ha, rfl⟩ | ⟨k, -, rfl⟩ := exec_cases ht
    · exact (cdfInv_cdfBody ha :)
    · obtain ⟨-, hzero, -⟩ := raiseError_spec s .cdf k
      exact cdfInv_empty (hzero _ (by simp [lengthRegs])) (hzero _ (by simp [lengthRegs]))
  · have hout : Reg.clen ∉ outRegs i ∧ Reg.total ∉ outRegs i ∧ SpaceId.cdft ∉ outSpaces i := by
      revert hi; cases i <;> decide
    exact h.of_frame (exec_frame ht) hout.1 hout.2.1 hout.2.2

end Cdf

/-! ## The Huffman tree -/

section Tree

variable {s u : State}

/-- HTREE, when it is done, leaves a tree or none (R163). -/
theorem treeInv_htreeBody (hu : htreeBody s = .done u) : TreeInv u := by
  obtain ⟨t, hlen, hnodup, hsum, rfl⟩ := htreeBody_done hu
  obtain rfl | hne := eq_or_ne t []
  · exact .inl ⟨by simp [State.setNat_n, buildTree_nil, heldBy], by simp [State.setNat_n, buildTree_nil, rootOf, heldBy]⟩
  · have hpos := List.length_pos_iff.2 hne
    obtain ⟨-, hnodes, hroot⟩ := buildTree_spec hpos hlen hsum
    rw [hnodes, hroot]
    obtain ⟨hn, hr⟩ := State.setNat_setNat_n (s.putHt (buildTree t).1) (r := .nnode) (q := .root)
      (by decide) (by decide) (by decide) (show 2 * t.length - 1 < 2 ^ 32 by omega) (show 2 * t.length - 2 < 2 ^ 32 by omega)
    have hhalf : (2 * t.length - 1 + 1) / 2 = t.length := by omega
    rw [TreeInv, hn, hr, hhalf]
    refine .inr ⟨rfl, hpos, hlen, by omega, (huffmanTree_of_build hpos hlen hsum hnodup).congr (fun p hp => ?_) hpos⟩
    have hp' : p < (buildTree t).1.length := by omega
    rw [State.setNat_htAt, State.setNat_htAt, s.putHt_htAt _ hp']
    simp [nodeAt, List.getD_eq_getElem?_getD, hp']

/-- What leaves NNODE, ROOT and HT alone keeps the tree's laws (R163). -/
theorem TreeInv.of_frame {rs : List Reg} {ms : List SpaceId} (h : TreeInv s) (hf : Frame rs ms s u)
    (hnnode : Reg.nnode ∉ rs) (hroot : Reg.root ∉ rs) (hht : SpaceId.ht ∉ ms) : TreeInv u := by
  obtain ⟨hreg, helem, -, -⟩ := hf
  have hat : u.htAt = s.htAt := funext fun i => Elem.ht.inj (helem .ht hht i)
  rw [TreeInv, hat, State.n, State.n, hreg _ hnnode, hreg _ hroot]
  exact h

theorem treeInv_exec {i : Instr} (h : TreeInv s) (ht : exec i s = .next u) : TreeInv u := by
  by_cases hi : i = .htree
  · subst hi
    obtain ⟨a, ha, rfl⟩ | ⟨k, -, rfl⟩ := exec_cases ht
    · exact (treeInv_htreeBody ha :)
    · obtain ⟨-, hzero, -⟩ := raiseError_spec s .htree k
      exact .inl ⟨congrArg BitVec.toNat (hzero .nnode (by simp [lengthRegs])),
        congrArg BitVec.toNat (hzero .root (by simp [lengthRegs]))⟩
  · have hout : Reg.nnode ∉ outRegs i ∧ Reg.root ∉ outRegs i ∧ SpaceId.ht ∉ outSpaces i := by
      revert hi; cases i <;> decide
    exact h.of_frame (exec_frame ht) hout.1 hout.2.1 hout.2.2

end Tree

/-! ## The whole invariant -/

section Invariant

variable {s t : State}

theorem inv_iff (s : State) : s.Inv ↔ MemoriesOk s ∧ StatusInv s ∧ CdfInv s ∧ TreeInv s := by
  rw [memoriesOk_iff, State.Inv]
  tauto

/-- STATUS after a command is consistent, whatever it was before (R36, R37, R200). -/
theorem statusInv_exec {i : Instr} (h : exec i s = .next t) : StatusInv t := by
  obtain hst | ⟨k, hst⟩ := exec_status h
  · simp [StatusInv, hst, okStatus]
  · rw [StatusInv, hst]
    change false = false ∧ (true = true ↔ k.code ≠ 0) ∧ k.code.toNat ≤ 8
    cases k <;> decide

theorem inv_exec {i : Instr} (h : s.Inv) (ht : exec i s = .next t) : t.Inv := by
  obtain ⟨hmem, -, hcdf, htree⟩ := (inv_iff s).1 h
  exact (inv_iff t).2 ⟨memoriesOk_exec hmem ht, statusInv_exec ht, cdfInv_exec hcdf ht, treeInv_exec htree ht⟩

/-- An illegal word changes STATUS only (R212). -/
theorem State.Inv.illegalCommand (h : s.Inv) (op : BitVec 8) : (s.illegalCommand op).Inv := by
  obtain ⟨hmem, -, hcdf, htree⟩ := (inv_iff s).1 h
  refine (inv_iff _).2 ⟨hmem, ?_, hcdf, htree⟩
  exact ⟨rfl, by simp [State.illegalCommand, Status.finished, ErrKind.code], le_refl 8⟩

/-- A host write that leaves the tables and STATUS alone keeps the invariant. -/
theorem State.Inv.of_hostWrite {rs : List Reg} {ms : List SpaceId} (h : s.Inv) (hmem : MemoriesOk t)
    (hst : t.status = s.status) (hf : Frame rs ms s t) (hregs : ∀ r ∈ rs, regHostWritable r = true)
    (hspaces : ∀ sp ∈ ms, spaceHostWritable sp = true) : t.Inv := by
  obtain ⟨-, hstatus, hcdf, htree⟩ := (inv_iff s).1 h
  have hr : ∀ r, regHostWritable r = false → r ∉ rs := fun r hro hmem => by simp [hregs r hmem] at hro
  have hm : ∀ sp, spaceHostWritable sp = false → sp ∉ ms := fun sp hro hmem => by simp [hspaces sp hmem] at hro
  refine (inv_iff t).2 ⟨hmem, ?_, hcdf.of_frame hf (hr _ rfl) (hr _ rfl) (hm _ rfl),
    htree.of_frame hf (hr _ rfl) (hr _ rfl) (hm _ rfl)⟩
  rw [StatusInv, hst]
  exact hstatus

theorem State.Inv.setReg (h : s.Inv) {r : Reg} (hr : regHostWritable r = true) (v : Word) : (s.setReg r v).Inv :=
  h.of_hostWrite (rs := [r]) (ms := []) (((inv_iff s).1 h).1.setReg r v) rfl (Frame.setReg (by simp) _ s v)
    (by simpa using hr) (by simp)

theorem State.Inv.storeElem (h : s.Inv) {i : Nat} {e : Elem} (hi : i < spaceSize s.cfg e.space)
    (he : spaceHostWritable e.space = true) : (storeElem i e s).Inv :=
  h.of_hostWrite (((inv_iff s).1 h).1.storeElem hi) (storeElem_status i e s) (storeElem_frame [] i e s)
    (by simp) (by simpa using he)

/-- Reset leaves no table and no known element (R231, R232). -/
theorem inv_resetEvent (s : State) : s.resetEvent.Inv :=
  (inv_iff _).2 ⟨memoriesOk_resetEvent s, by simp [StatusInv, State.resetEvent, State.resetWith, Status.zero],
    cdfInv_empty rfl rfl, .inl ⟨rfl, rfl⟩⟩

theorem inv_writeCmd {w : Word} (h : s.Inv) (ht : writeCmd w s = .next t) : t.Inv := by
  obtain ⟨-, ⟨i, -, hi⟩ | ⟨-, rfl⟩⟩ := writeCmd_cases ht
  · exact inv_exec h hi
  · exact h.illegalCommand _

theorem inv_issueNext {cs : List Instr} (h : s.Inv) (ht : issueNext cs s = .next t) : t.Inv := by
  obtain ⟨-, rfl⟩ | ⟨c, rest, u, -, hu, ⟨-, rfl⟩ | ⟨-, -, rfl⟩⟩ := issueNext_cases ht
  · exact h
  · exact inv_writeCmd h hu
  · exact (inv_writeCmd h hu :)

theorem inv_hostStore {i : Nat} {e : Elem} (h : s.Inv) (ht : hostStore i e s = .next t) : t.Inv := by
  obtain ⟨hi, rfl⟩ := hostStore_eq_next.1 ht
  split
  · next he => exact h.storeElem hi he
  · exact h

/-- An idle access that leaves the state alone keeps the invariant. -/
theorem inv_whenIdle_same (h : s.Inv) (ht : whenIdle s (.next s) = .next t) : t.Inv := by
  obtain ⟨-, hst⟩ := whenIdle_eq_next.1 ht
  cases hst
  exact h

theorem inv_hostStep {a : HostAction} (h : s.Inv) (ht : hostStep a s = .next t) : t.Inv := by
  cases a with
  | setr r v =>
    obtain ⟨-, hst⟩ := whenIdle_eq_next.1 ht
    cases hst
    split
    · next hr => exact h.setReg hr v
    · exact h
  | writeCtl c v =>
    cases c with
    | cmd => exact inv_writeCmd h ht
    | status => exact inv_whenIdle_same h ht
    | cfg => exact inv_whenIdle_same h ht
  | loadm i e => exact inv_hostStore h (whenIdle_eq_next.1 ht).2
  | getr r => exact inv_whenIdle_same h ht
  | readCtl c =>
    cases c with
    | cmd => exact inv_whenIdle_same h ht
    | status => cases ht; exact h
    | cfg => exact inv_whenIdle_same h ht
  | readm sp i =>
    obtain ⟨-, hst⟩ := whenIdle_eq_next.1 ht
    obtain ⟨-, rfl⟩ := hostLoad_eq_next.1 hst
    exact h
  | issue cs => exact inv_issueNext h ht
  | reset => cases ht; exact inv_resetEvent s

/-- Settles O50: the oldest pending host action keeps the invariant, which does not speak of the queue; with none pending
nothing changes. -/
theorem everyStepKeepsTheInvariant : Obligations.EveryStepKeepsTheInvariant := by
  intro s t h ht
  obtain ⟨-, rfl⟩ | ⟨a, rest, -, ha⟩ := step_cases ht
  · exact h
  · exact inv_hostStep (s := { s with inputs := rest }) h ha

end Invariant

end Sys2Proof.Machine

namespace Sys2Proof.Machine

/-! # Host accesses without effect or without meaning (R67, R69, R242) -/

theorem whenIdle_of_busy {s : State} (h : s.status.busy = true) (o : Host.Outcome State Fault Refusal) :
    whenIdle s o = .refused .hostAccessWhileBusy := by simp [whenIdle, h]

theorem writeCmd_of_busy {s : State} (h : s.status.busy = true) (w : Word) :
    writeCmd w s = .refused .hostAccessWhileBusy := by simp [writeCmd, h]

/-- The first command of a pseudo-instruction is a write of CMD, refused like any other (R69, R104). -/
theorem issueNext_of_busy {s : State} (h : s.status.busy = true) {cs : List Instr} (hcs : cs ≠ []) :
    issueNext cs s = .refused .hostAccessWhileBusy := by
  obtain ⟨c, rest, rfl⟩ := List.exists_cons_of_ne_nil hcs
  simp [issueNext, writeCmd_of_busy h]

theorem hostStep_of_busy {s : State} (h : s.status.busy = true) {a : HostAction} (hread : a ≠ .readCtl .status)
    (hreset : a ≠ .reset) (hissue : a ≠ .issue []) : hostStep a s = .refused .hostAccessWhileBusy := by
  cases a with
  | setr r v => exact whenIdle_of_busy h _
  | writeCtl c v =>
    cases c with
    | cmd => exact writeCmd_of_busy h v
    | status => exact whenIdle_of_busy h _
    | cfg => exact whenIdle_of_busy h _
  | loadm i e => exact whenIdle_of_busy h _
  | getr r => exact whenIdle_of_busy h _
  | readCtl c =>
    cases c with
    | cmd => exact whenIdle_of_busy h _
    | status => exact absurd rfl hread
    | cfg => exact whenIdle_of_busy h _
  | readm sp i => exact whenIdle_of_busy h _
  | issue cs => exact issueNext_of_busy h fun hcs => hissue (congrArg HostAction.issue hcs)
  | reset => exact absurd rfl hreset

/-- Settles O9: on a busy core every host action but the excepted ones is refused; the read of STATUS asks nothing of the
core. -/
theorem hostAccessWhileBusyIsRefused : Obligations.HostAccessWhileBusyIsRefused :=
  fun s rest hb =>
    ⟨fun _ hread hreset hissue => hostStep_of_busy (s := { s with inputs := rest }) hb hread hreset hissue, rfl⟩

theorem hostLoad_of_lt {sp : SpaceId} {i : Nat} {s : State} (h : i < spaceSize s.cfg sp) : hostLoad sp i s = .next s :=
  hostLoad_eq_next.mpr ⟨h, rfl⟩

/-- Settles O10: on an idle core each read answers the state it reads in. -/
theorem hostReadsChangeNothing : Obligations.HostReadsChangeNothing := by
  intro s rest hb
  have hidle := whenIdle_of_idle (s := { s with inputs := rest }) hb
  refine ⟨fun _ => hidle _, fun c => ?_, fun sp i hi => ?_⟩
  · cases c with
    | cmd => exact hidle _
    | status => rfl
    | cfg => exact hidle _
  · exact (hidle _).trans (hostLoad_of_lt (s := { s with inputs := rest }) hi)

/-! # What each command leaves unchanged (R65, R212)

The frame of every command, `exec_frame`, at each command's own lists of outputs. -/

/-- Settles O45: the frames of FREQ, CDF, HTREE and HCODE. -/
theorem frameOfTheTableCommands : Obligations.FrameOfTheTableCommands :=
  fun _ _ => ⟨exec_frame, exec_frame, exec_frame, exec_frame⟩

/-- Settles O46: the frames of RENC and RDEC. -/
theorem frameOfTheRansCommands : Obligations.FrameOfTheRansCommands := fun _ _ => ⟨exec_frame, exec_frame⟩

/-- Settles O47: the frames of HENC, HDEC, BPACK and BUNPK. -/
theorem frameOfTheBitCommands : Obligations.FrameOfTheBitCommands :=
  fun _ _ => ⟨exec_frame, exec_frame, exec_frame, exec_frame⟩

/-! # Commands whose body is done -/

/-- A command whose body is done: the next state, its STATUS and what it leaves alone (R65, R106). -/
theorem exec_done_spec {i : Instr} {s u : State} (h : bodyOf i (s.begin i.opc) = .done u) :
    exec i s = .next (u.finish 0) ∧ (u.finish 0).status = okStatus i ∧
      Frame (outRegs i) (outSpaces i) s (u.finish 0) :=
  ⟨exec_of_done h, status_of_done h, exec_frame (exec_of_done h)⟩

/-! ## The empty buffer (R95) -/

theorem State.n_eq_zero {s : State} {r : Reg} (h : s.reg r = 0) : s.n r = 0 := by simp [State.n_eq, h]

theorem rencBody_empty {s : State} (h : s.n .slen = 0) : rencBody s = .done ((s.setNat .plen 0).setNat .nsym 0) := by
  simp [rencBody, h]

theorem hencBody_empty {s : State} (h : s.n .slen = 0) : hencBody s = .done ((s.setNat .plen 0).setNat .nsym 0) := by
  simp [hencBody, h]

theorem rdecBody_empty {s : State} (h : s.n .nsym = 0) : rdecBody s = .done (s.setNat .slen 0) := by
  simp [rdecBody, h]

theorem hdecBody_empty {s : State} (h : s.n .nsym = 0) : hdecBody s = .done (s.setNat .slen 0) := by
  simp [hdecBody, h]

/-- Settles O23: with the length 0 each body sets its lengths to 0 and is done. -/
theorem emptyBufferTouchesNoCodec : Obligations.EmptyBufferTouchesNoCodec := by
  refine fun s => ⟨fun h => ⟨?_, ?_⟩, fun h => ⟨?_, ?_⟩⟩
  · exact exec_of_done (i := .renc) (rencBody_empty (State.n_eq_zero h))
  · exact exec_of_done (i := .henc) (hencBody_empty (State.n_eq_zero h))
  · exact exec_of_done (i := .rdec) (rdecBody_empty (State.n_eq_zero h))
  · exact exec_of_done (i := .hdec) (hdecBody_empty (State.n_eq_zero h))

/-! ## BPACK and BUNPK -/

/-- Settles O41: the pack unit is done, and its state's registers and stream are those of R191; bit `7 - j` of byte
`1 + q` is stream bit `8q + j` (R62). -/
theorem bpackPacksTheBits : Obligations.BpackPacksTheBits := by
  intro s hbits hpay
  have hbody : bodyOf .bpack (s.begin Instr.bpack.opc) = .done (packedState (s.begin Instr.bpack.opc)) :=
    (packBits_eq _).trans (if_pos ⟨hbits, hpay⟩)
  obtain ⟨hexec, hstatus, hframe⟩ := exec_done_spec hbody
  obtain ⟨hplen, hpad⟩ := packedState_n (s.begin Instr.bpack.opc) hpay
  refine ⟨_, hexec, hstatus, hframe, hplen, hpad, packedState_header _, fun q hq j hj => ?_⟩
  have hbit := packedState_bit (s.begin Instr.bpack.opc) (idx := 8 * q + j) (by simp; omega)
  have hdiv : (8 * q + j) / 8 = q := by omega
  have hmod : (8 * q + j) % 8 = j := by omega
  rwa [streamBit, hdiv, hmod] at hbit

/-- Settles O42: every check of R193 passes, and the unpack unit leaves the stream bits of the payload. -/
theorem bunpkUnpacksTheBits : Obligations.BunpkUnpacksTheBits := by
  intro s len hplen hcap hk hlen hbits
  obtain rfl : len = 8 * (s.n .plen - 1) - (s.payAt 0).toNat := by omega
  have hbody : bodyOf .bunpk (s.begin Instr.bunpk.opc) = .done (unpackedState (s.begin Instr.bunpk.opc)) :=
    unpackBits_of_ok _ hplen hcap hk (by simp; omega) hbits
  obtain ⟨hexec, hstatus, hframe⟩ := exec_done_spec hbody
  exact ⟨_, hexec, hstatus, hframe, unpackedState_spec (s.begin Instr.bunpk.opc) hplen hbits⟩

end Sys2Proof.Machine

namespace Sys2Proof.Machine

/-! # RENC and RDEC along their traces

The payload in the spec's own terms: the state word and the bytes of each renormalisation, each most significant byte first
(R61, R88 to R90), and the two loops of the codec (R139, R141) followed symbol by symbol. -/

/-- The `k` low bytes of `x`, most significant first (R61). -/
def lowBytes (k x : Nat) : List Byte := ((List.range k).map fun t => lowByte (x / 256 ^ t)).reverse

@[simp] theorem lowBytes_length (k x : Nat) : (lowBytes k x).length = k := by simp [lowBytes]

theorem lowBytes_getElem? {k d : Nat} (h : d < k) (x : Nat) :
    (lowBytes k x)[d]? = some (lowByte (x / 256 ^ (k - 1 - d))) := by
  rw [List.getElem?_eq_getElem (by simpa using h)]
  simp [lowBytes]

@[simp] theorem lowByte_toNat (v : Nat) : (lowByte v).toNat = v % 256 := by simp [lowByte]

theorem stateBytes_reverse (fb x : Nat) : (stateBytes fb x).reverse = lowBytes fb x := by
  rw [stateBytes_eq, lowBytes]

theorem cdftAt_mem_cdfTable (s : State) {j n : Nat} (h : j < n) : s.cdftAt j ∈ s.cdfTable n :=
  List.mem_map_of_mem (List.mem_range.2 h)

/-! ## Encoding -/

/-- Two numbers of bytes that each are the least to bring the state below `256 f` are equal (R135). -/
theorem shiftCount_unique {f x k l : Nat} (hk : x / 256 ^ k < 256 * f) (hk' : ∀ d < k, 256 * f ≤ x / 256 ^ d)
    (hl : x / 256 ^ l < 256 * f) (hl' : ∀ d < l, 256 * f ≤ x / 256 ^ d) : k = l := by
  obtain h | h | h := Nat.lt_trichotomy k l
  · exact absurd (hl' k h) (Nat.not_le.2 hk)
  · exact h
  · exact absurd (hk' l h) (Nat.not_le.2 hl)

/-- The bytes the renormalisations of the symbols `is` of a trace put in the payload, in decode order (R90). -/
def tracedBytes (x k : Nat → Nat) (is : List Nat) : List Byte := is.flatMap fun i => lowBytes (k i) (x (i + 1))

theorem tracedBytes_length (x k : Nat → Nat) (n : Nat) : (tracedBytes x k (List.range n)).length = bytesBefore k n := by
  simp [tracedBytes, bytesBefore, List.length_flatMap]

theorem tracedBytes_range_succ (x k : Nat → Nat) (n : Nat) :
    tracedBytes x k (List.range (n + 1)) = tracedBytes x k (List.range n) ++ lowBytes (k n) (x (n + 1)) := by
  simp [tracedBytes, List.range_succ]

/-- Symbol `i`'s bytes stand in a row behind those of the symbols before it. -/
theorem tracedBytes_getElem? {x k : Nat → Nat} {n i d : Nat} (hi : i < n) (hd : d < k i) :
    (tracedBytes x k (List.range n))[bytesBefore k i + d]? = some (lowByte (x (i + 1) / 256 ^ (k i - 1 - d))) := by
  induction n with
  | zero => omega
  | succ n ih =>
    rw [tracedBytes_range_succ]
    obtain hlt | rfl := Nat.lt_succ_iff_lt_or_eq.1 hi
    · obtain ⟨hlen, -⟩ := List.getElem?_eq_some_iff.1 (ih hlt)
      rw [List.getElem?_append_left hlen, ih hlt]
    · rw [← tracedBytes_length x k i, List.getElem?_append_right (Nat.le_add_right _ _), Nat.add_sub_cancel_left,
        lowBytes_getElem? hd]

/-- The encoder's loop over the symbols from `i` on follows the trace (R139): it leaves the state `x i` and has emitted
those symbols' bytes, which the payload holds in reverse. -/
theorem encodeSymbols_of_trace {base n : Nat} (hpos : 0 < base) {t : List CdfEntry} (ht : CdfListOk base t)
    {e : Nat → CdfEntry} {x k : Nat → Nat} (htr : EncodeTrace base n e x k) {sym : Nat → Byte}
    (hlook : ∀ i < n, lookupSym t (sym i) = some (e i)) (m : Nat) :
    ∀ i, i + m = n → ∃ em, encodeSymbols base t ((List.range' i m).map sym) = .done (x i, em) ∧
      em.reverse = tracedBytes x k (List.range' i m) := by
  obtain ⟨hlast, hstep⟩ := htr
  induction m with
  | zero =>
    rintro i rfl
    exact ⟨[], by rw [← hlast]; rfl, rfl⟩
  | succ m ih =>
    intro i hi
    obtain ⟨em, hem, hrev⟩ := ih (i + 1) (by omega)
    obtain ⟨hx, hlt, hge⟩ := hstep i (by omega)
    obtain ⟨hl, -⟩ := encodeSymbols_spec hpos ht hem
    obtain ⟨l, hlt', -, hge', henc⟩ := encodeSymbol_spec ht (hlook i (by omega)) (em := em) hl
    obtain rfl := shiftCount_unique hlt hge hlt' hge'
    have hcode : codeStep base (x (i + 1) / 256 ^ k i) (e i) = x i := hx.symm
    rw [hcode] at henc
    refine ⟨em ++ (List.range (k i)).map fun d => lowByte (x (i + 1) / 256 ^ d), ?_, ?_⟩
    · rw [List.range'_succ, List.map_cons, encodeSymbols, hem, Result.andThen_done, henc]
    · rw [List.reverse_append, hrev]; rfl

/-! ### The body of RENC -/

/-- The state RENC leaves for the final state `x` and the payload `bytes` (R139). -/
def encodedState (s : State) (x : Nat) (bytes : List Byte) : State :=
  (((s.putPay bytes).setNat .plen bytes.length).setNat .nsym (s.n .slen)).setNat .x x

/-- The registers and the payload after encoding (R139). -/
theorem encodedState_spec {s : State} {x : Nat} {bytes : List Byte} (hx : x < 256 * s.cfg.base)
    (hb : bytes.length ≤ s.cfg.payCap.val) :
    (encodedState s x bytes).n .plen = bytes.length ∧ (encodedState s x bytes).n .nsym = s.n .slen ∧
      (encodedState s x bytes).n .x = x ∧ ∀ j b, bytes[j]? = some b → (encodedState s x bytes).payAt j = b := by
  have hcap := s.cfg.payCap.isLt
  refine ⟨?_, ?_, ?_, fun j b h => ?_⟩
  · simp [encodedState, State.setNat_n, heldBy_toNat (r := .plen) (c := s.cfg) (v := bytes.length) (by simp) (by omega)]
  · simp [encodedState, State.setNat_n, heldBy_toNat (r := .nsym) (c := s.cfg) (by simp) (s.n_lt .slen)]
  · simp [encodedState, State.setNat_n, heldBy_x_toNat (c := s.cfg) (v := x) (by rwa [Config.two_pow_xw])]
  · obtain ⟨hj, rfl⟩ := List.getElem?_eq_some_iff.1 h
    exact State.putPay_payAt s bytes hj

/-- When every check passes and the loop is done, RENC writes the state word and then what the loop emitted, newest
byte first (R88, R90, R139). -/
theorem rencBody_of_encoded {s : State} {x : Nat} {em : List Byte} (h0 : 1 ≤ s.n .slen)
    (hcap : s.n .slen ≤ s.cfg.symCap.val) (htot : s.n .total = s.n .slen)
    (henc : encodeSymbols s.cfg.base (s.cdfTable (s.n .clen)) (s.symbols (s.n .slen)) = .done (x, em))
    (hfit : s.cfg.fb + em.length ≤ s.cfg.payCap.val) :
    rencBody s = .done (encodedState s x (lowBytes s.cfg.fb x ++ em.reverse)) := by
  have hfit' : ¬ s.cfg.payCap.val < (em ++ stateBytes s.cfg.fb x).length := by simp; omega
  rw [rencBody, if_neg (by omega), if_neg (by omega), if_neg (by omega), henc, Result.andThen_done, if_neg hfit']
  simp [encodedState, stateBytes_reverse, Nat.add_comm]

/-! ### The payload of a trace -/

/-- The payload of a trace: the state word, then every symbol's bytes (R88 to R90). -/
def tracedPayload (fb n : Nat) (x k : Nat → Nat) : List Byte := lowBytes fb (x 0) ++ tracedBytes x k (List.range n)

theorem tracedPayload_length (fb n : Nat) (x k : Nat → Nat) : (tracedPayload fb n x k).length = fb + bytesBefore k n := by
  simp [tracedPayload, tracedBytes_length]

theorem tracedPayload_stateWord {fb j : Nat} (hj : j < fb) (n : Nat) (x k : Nat → Nat) :
    (tracedPayload fb n x k)[j]? = some (lowByte (x 0 / 256 ^ (fb - 1 - j))) := by
  rw [tracedPayload, List.getElem?_append_left (by simpa using hj), lowBytes_getElem? hj]

theorem tracedPayload_shifted {n i d : Nat} {x k : Nat → Nat} (hi : i < n) (hd : d < k i) (fb : Nat) :
    (tracedPayload fb n x k)[fb + bytesBefore k i + d]? = some (lowByte (x (i + 1) / 256 ^ (k i - 1 - d))) := by
  rw [tracedPayload, List.getElem?_append_right (by simp; omega), lowBytes_length, Nat.add_assoc, Nat.add_sub_cancel_left,
    tracedBytes_getElem? hi hd]

/-- RENC's loop over the whole buffer of a state follows the trace (R139, R140 a). -/
theorem encode_buffer_of_trace {s : State} {e : Nat → CdfEntry} {x k : Nat → Nat} (hinv : CdfInv s)
    (hsym : ∀ i < s.n .slen, ∃ j < s.n .clen, e i = s.cdftAt j ∧ (e i).sym = s.symAt i)
    (htr : EncodeTrace s.cfg.base (s.n .slen) e x k) :
    x 0 < 256 * s.cfg.base ∧
      ∃ em, encodeSymbols s.cfg.base (s.cdfTable (s.n .clen)) (s.symbols (s.n .slen)) = .done (x 0, em) ∧
        em.reverse = tracedBytes x k (List.range (s.n .slen)) := by
  have hlook : ∀ i < s.n .slen, lookupSym (s.cdfTable (s.n .clen)) (s.symAt i) = some (e i) := by
    intro i hi
    obtain ⟨j, hj, he, hs⟩ := hsym i hi
    rw [← hs]
    exact lookupSym_of_mem (cdfTable_nodup hinv) (he ▸ cdftAt_mem_cdfTable s hj)
  obtain ⟨em, hem, hrev⟩ := encodeSymbols_of_trace s.cfg.base_pos (cdfListOk_of_inv hinv) htr hlook _ 0 (Nat.zero_add _)
  rw [← List.range_eq_range'] at hem hrev
  obtain ⟨-, hx, -⟩ := encodeSymbols_spec s.cfg.base_pos (cdfListOk_of_inv hinv) hem
  exact ⟨hx, em, hem, hrev⟩

/-- Settles O24: the loop follows the trace, so RENC writes the trace's payload, whose elements are the bytes stated. -/
theorem rencWritesTheTracedPayload : Obligations.RencWritesTheTracedPayload := by
  intro s e x k hinv h0 hcap htot hsym htr hfit
  obtain ⟨hx, em, hem, hrev⟩ := encode_buffer_of_trace hinv hsym htr
  have hlen : em.length = bytesBefore k (s.n .slen) := by rw [← List.length_reverse, hrev, tracedBytes_length]
  have hbody := rencBody_of_encoded (s := s.begin Instr.renc.opc) h0 hcap htot hem (hlen ▸ hfit)
  rw [hrev] at hbody
  obtain ⟨hexec, hstatus, hframe⟩ := exec_done_spec (i := .renc) hbody
  have hbytes := tracedPayload_length s.cfg.fb (s.n .slen) x k
  obtain ⟨hplen, hnsym, hxreg, hpay⟩ := encodedState_spec (s := s.begin Instr.renc.opc) hx (hbytes ▸ hfit)
  refine ⟨_, hexec, hstatus, hframe, hplen.trans hbytes, hnsym, hxreg, fun j hj => ?_, fun i hi d hd => ?_⟩
  · exact (congrArg BitVec.toNat (hpay _ _ (tracedPayload_stateWord hj _ x k))).trans (lowByte_toNat _)
  · exact (congrArg BitVec.toNat (hpay _ _ (tracedPayload_shifted hi hd _))).trans (lowByte_toNat _)

/-! ## Decoding -/

theorem refill_succ_left (pay : Nat → Byte) (y p d : Nat) :
    refill pay y p (d + 1) = refill pay (y * 256 + (pay p).toNat) (p + 1) d := by
  induction d with
  | zero => rfl
  | succ d ih => rw [refill, ih, refill, Nat.add_right_comm p 1 d, Nat.add_assoc]

/-- The number the first bytes of the payload spell is what reading them one by one gives (R61, R89). -/
theorem bytesValue_payload (s : State) (n : Nat) : bytesValue (s.payload n) = refill s.payAt 0 0 n := by
  induction n with
  | zero => rfl
  | succ n ih =>
    rw [State.payload, List.range_succ, List.map_append, bytesValue_append, refill, Nat.zero_add, ← ih]
    rfl

theorem payload_take (s : State) {m n : Nat} (h : m ≤ n) : (s.payload n).take m = s.payload m := by
  rw [State.payload, ← List.map_take, List.take_range, Nat.min_eq_left h, State.payload]

theorem payload_drop (s : State) {p n : Nat} (h : p < n) :
    (s.payload n).drop p = s.payAt p :: (s.payload n).drop (p + 1) := by
  rw [List.drop_eq_getElem_cons (by simpa using h)]
  simp [State.payload]

theorem shiftIn_of_le {base x : Nat} (h : base ≤ x) (bs : List Byte) : shiftIn base x bs = (x, bs) := by
  cases bs with
  | nil => rfl
  | cons b bs => rw [shiftIn, if_neg (Nat.not_lt.2 h)]

/-- The renormalisation reads on while the state is below `base` and bytes are left (R136). -/
theorem shiftIn_payload {s : State} {base plen : Nat} (d : Nat) :
    ∀ {y p : Nat}, p + d ≤ plen → (∀ j < d, refill s.payAt y p j < base) →
      (base ≤ refill s.payAt y p d ∨ p + d = plen) →
      shiftIn base y ((s.payload plen).drop p) = (refill s.payAt y p d, (s.payload plen).drop (p + d)) := by
  induction d with
  | zero =>
    intro y p hp _ hend
    obtain hend | hend := hend
    · exact shiftIn_of_le hend _
    · rw [List.drop_eq_nil_of_le (i := p) (by simp; omega), List.drop_eq_nil_of_le (by simp; omega)]
      rfl
  | succ d ih =>
    intro y p hp hlt hend
    have hy : y < base := hlt 0 (Nat.succ_pos d)
    have hp' : p + (d + 1) = p + 1 + d := by omega
    rw [refill_succ_left, hp'] at hend ⊢
    rw [payload_drop s (by omega), shiftIn, if_pos hy]
    refine ih (by omega) (fun j hj => ?_) hend
    rw [← refill_succ_left]
    exact hlt (j + 1) (by omega)

theorem decodeTrace_pos_le {base fb n plen k : Nat} {pay : Nat → Byte} {e : Nat → CdfEntry} {x pos : Nat → Nat}
    (htr : DecodeTrace base fb n plen pay e x pos k) (hk : 1 ≤ k) : pos k ≤ plen := by
  obtain ⟨-, -, hstep⟩ := htr
  obtain ⟨-, -, -, hplen, -⟩ := hstep (k - 1) (by omega)
  rwa [Nat.sub_add_cancel hk] at hplen

/-- RDEC's loop follows a trace over the symbols from `i` to `k`, with `r` more to come (R141). -/
theorem decodeSymbols_of_trace {s : State} {base fb n plen k r : Nat} {t : List CdfEntry} (ht : CdfListOk base t)
    {e : Nat → CdfEntry} {x pos : Nat → Nat} (hmem : ∀ i < k, e i ∈ t)
    (htr : DecodeTrace base fb n plen s.payAt e x pos k) (hn : k + r = n) (m : Nat) :
    ∀ i, i + m = k → decodeSymbols base t (m + r) (x i) ((s.payload plen).drop (pos i)) =
      (decodeSymbols base t r (x k) ((s.payload plen).drop (pos k))).andThen fun d =>
        .done ((List.range' i m).map (fun j => (e j).sym) ++ d.1, d.2) := by
  obtain ⟨-, -, hstep⟩ := htr
  induction m with
  | zero =>
    rintro i rfl
    rw [Nat.zero_add, Nat.add_zero]
    cases decodeSymbols base t r (x i) ((s.payload plen).drop (pos i)) <;> rfl
  | succ m ih =>
    intro i hi
    obtain ⟨hlow, hhigh, hpos, hplen, hx, hlt, hend⟩ := hstep i (by omega)
    have hshift := shiftIn_payload (s := s) (base := base) (plen := plen) (pos (i + 1) - pos i)
      (y := uncodeStep base (x i) (e i)) (p := pos i) (by omega) hlt
      (hend.imp (fun h => hx ▸ h) fun h => by omega)
    have hx' : refill s.payAt (uncodeStep base (x i) (e i)) (pos i) (pos (i + 1) - pos i) = x (i + 1) := hx.symm
    rw [hx', Nat.add_sub_cancel' hpos] at hshift
    have hnot : ¬ (x (i + 1) < base ∧ m + r ≠ 0) := by omega
    rw [Nat.add_right_comm, decodeSymbols, lookupSlot_of_mem ht (hmem i (by omega)) hlow hhigh]
    simp only [hshift, if_neg hnot, ih (i + 1) (by omega)]
    cases decodeSymbols base t r (x k) ((s.payload plen).drop (pos k)) <;> rfl

/-! ### The decoder's state keeps to its register (R133, R134) -/

/-- A state that was below `base` before every byte it read stays below `256 base`. -/
theorem refill_lt {pay : Nat → Byte} {base y p d : Nat} (hy : y < 256 * base) (h : ∀ j < d, refill pay y p j < base) :
    refill pay y p d < 256 * base := by
  cases d with
  | zero => exact hy
  | succ d =>
    have := h d (Nat.lt_succ_self d)
    have := (pay (p + d)).isLt
    rw [refill]; omega

/-- The state word is a number of `fb` bytes. -/
theorem refill_zero_lt (pay : Nat → Byte) (p n : Nat) : refill pay 0 p n < 256 ^ n := by
  induction n with
  | zero => simp [refill]
  | succ n ih =>
    have := (pay (p + n)).isLt
    rw [refill, pow_succ]; omega

theorem uncodeStep_lt {base x : Nat} {e : CdfEntry} (hx : x < 256 * base) (hlow : e.low.toNat ≤ x % base)
    (hhigh : x % base < e.low.toNat + e.freq.toNat) :
    uncodeStep base x e < 256 * e.freq.toNat := by
  have hq : x / base < 256 := Nat.div_lt_of_lt_mul (by rwa [Nat.mul_comm] at hx)
  have hmul : x / base * e.freq.toNat ≤ 255 * e.freq.toNat := Nat.mul_le_mul_right _ (by omega)
  rw [uncodeStep]; omega

theorem decodeTrace_lt {c : Config} {n plen k : Nat} {pay : Nat → Byte} {t : List CdfEntry} (ht : CdfListOk c.base t)
    {e : Nat → CdfEntry} {x pos : Nat → Nat} (hmem : ∀ i < k, e i ∈ t)
    (htr : DecodeTrace c.base c.fb n plen pay e x pos k) {i : Nat} (hi : i ≤ k) : x i < 256 * c.base := by
  obtain ⟨hx0, -, hstep⟩ := htr
  induction i with
  | zero => rw [hx0, ← c.pow_fb]; exact refill_zero_lt pay 0 c.fb
  | succ i ih =>
    obtain ⟨hlow, hhigh, -, -, hx, hlt, -⟩ := hstep i hi
    have hy := uncodeStep_lt (ih (by omega)) hlow hhigh
    have hle := ht.le_base (e i) (hmem i hi)
    rw [hx]
    exact refill_lt (show uncodeStep c.base (x i) (e i) < _ by omega) hlt

/-! ### The body of RDEC -/

/-- The state RDEC leaves for the symbols `out`, the final state `x` and the read position `p` (R141). -/
def decodedState (s : State) (out : List Byte) (x p : Nat) : State :=
  (((s.putSym out).setNat .slen (s.n .nsym)).setNat .x x).setNat .pos p

/-- The registers and the symbols after decoding (R141). -/
theorem decodedState_spec {s : State} {out : List Byte} {x p : Nat} (hx : x < 256 * s.cfg.base) (hp : p < 2 ^ 32) :
    (decodedState s out x p).n .slen = s.n .nsym ∧
      (∀ i b, out[i]? = some b → (decodedState s out x p).symAt i = b) ∧
      (decodedState s out x p).n .x = x ∧ (decodedState s out x p).n .pos = p := by
  refine ⟨?_, fun i b h => ?_, ?_, ?_⟩
  · simp [decodedState, State.setNat_n, heldBy_toNat (r := .slen) (c := s.cfg) (by simp) (s.n_lt .nsym)]
  · obtain ⟨hi, rfl⟩ := List.getElem?_eq_some_iff.1 h
    exact State.putSym_symAt s out hi
  · simp [decodedState, State.setNat_n, heldBy_x_toNat (c := s.cfg) (v := x) (by rwa [Config.two_pow_xw])]
  · simp [decodedState, State.setNat_n, heldBy_toNat (r := .pos) (c := s.cfg) (by simp) hp]

/-- When every check passes RDEC runs its loop from the number the state word spells (R89, R141). -/
theorem rdecBody_of_checks {s : State} (h0 : 1 ≤ s.n .nsym) (hsym : s.n .nsym ≤ s.cfg.symCap.val)
    (hpay : s.n .plen ≤ s.cfg.payCap.val) (htot : s.n .total = s.n .nsym) (hfb : s.cfg.fb ≤ s.n .plen) :
    rdecBody s = (decodeSymbols s.cfg.base (s.cdfTable (s.n .clen)) (s.n .nsym) (refill s.payAt 0 0 s.cfg.fb)
      ((s.payload (s.n .plen)).drop s.cfg.fb)).andThen fun d =>
        .done (decodedState s d.1 d.2.1 (s.n .plen - d.2.2.length)) := by
  rw [rdecBody, if_neg (by omega), if_neg (by omega), if_neg (by omega), if_neg (by omega)]
  simp only [payload_take s hfb, bytesValue_payload]
  rfl

/-- RDEC's body along a whole trace (R141, R143). -/
theorem rdecBody_of_trace {s : State} {e : Nat → CdfEntry} {x pos : Nat → Nat} (hinv : CdfInv s) (h0 : 1 ≤ s.n .nsym)
    (hsym : s.n .nsym ≤ s.cfg.symCap.val) (hpay : s.n .plen ≤ s.cfg.payCap.val) (htot : s.n .total = s.n .nsym)
    (hfb : s.cfg.fb ≤ s.n .plen) (hmem : ∀ i < s.n .nsym, e i ∈ s.cdfTable (s.n .clen))
    (htr : DecodeTrace s.cfg.base s.cfg.fb (s.n .nsym) (s.n .plen) s.payAt e x pos (s.n .nsym)) :
    rdecBody s = .done (decodedState s ((List.range (s.n .nsym)).map fun i => (e i).sym) (x (s.n .nsym))
      (pos (s.n .nsym))) := by
  have hloop := decodeSymbols_of_trace (r := 0) (cdfListOk_of_inv hinv) hmem htr rfl (s.n .nsym) 0 (Nat.zero_add _)
  have hplen := decodeTrace_pos_le htr h0
  obtain ⟨hx0, hpos0, -⟩ := htr
  rw [hx0, hpos0, Nat.add_zero, decodeSymbols, Result.andThen_done, ← List.range_eq_range', List.append_nil] at hloop
  rw [rdecBody_of_checks h0 hsym hpay htot hfb, hloop, Result.andThen_done]
  simp only [List.length_drop, State.payload_length, Nat.sub_sub_self hplen]

/-- Settles O27: the loop follows the trace, and the states of a trace fit X. -/
theorem rdecFollowsTheTrace : Obligations.RdecFollowsTheTrace := by
  intro s e x pos hinv h0 hsym hpay htot hfb htab htr
  have hmem : ∀ i < s.n .nsym, e i ∈ s.cdfTable (s.n .clen) := by
    intro i hi
    obtain ⟨j, hj, he⟩ := htab i hi
    exact he ▸ cdftAt_mem_cdfTable s hj
  have hx := decodeTrace_lt (cdfListOk_of_inv hinv) hmem htr le_rfl
  have hbody := rdecBody_of_trace (s := s.begin Instr.rdec.opc) hinv h0 hsym hpay htot hfb hmem htr
  obtain ⟨hexec, hstatus, hframe⟩ := exec_done_spec (i := .rdec) hbody
  obtain ⟨hslen, hout, hxreg, hposreg⟩ := decodedState_spec (s := s.begin Instr.rdec.opc)
    (out := (List.range (s.n .nsym)).map fun i => (e i).sym) hx ((decodeTrace_pos_le htr h0).trans_lt (s.n_lt .plen))
  exact ⟨_, hexec, hstatus, hframe, hslen, fun i hi => hout i _ (by simp [hi]), hxreg, hposreg⟩

end Sys2Proof.Machine

namespace Sys2Proof.Machine

/-! # The rANS pseudo-instructions one after the other

What each of their commands makes of its input, in terms of the lists it reads and writes (R112, R114, R139, R141), and
the two pseudo-instructions joined (R100, R101, R142). -/

/-! ## What a frame leaves alone -/

section FrameReads

variable {rs : List Reg} {ms : List SpaceId} {s t : State}

theorem Frame.cfg_eq (h : Frame rs ms s t) : t.cfg = s.cfg := h.2.2.1

theorem Frame.inputs_eq (h : Frame rs ms s t) : t.inputs = s.inputs := h.2.2.2

theorem Frame.n_eq (h : Frame rs ms s t) {r : Reg} (hr : r ∉ rs) : t.n r = s.n r := congrArg BitVec.toNat (h.1 r hr)

theorem Frame.sameElems (h : Frame rs ms s t) {sp : SpaceId} (hsp : sp ∉ ms) (n : Nat) : SameElems sp n s t :=
  fun i _ => h.2.1 sp hsp i

end FrameReads

/-! ## FREQ and CDF on lists -/

/-- A histogram passes ValidateFT (R113 d). -/
theorem ftValid_histogram {l : List Byte} (hl : l.length < 2 ^ 32) : ftValid (histogram l) = true := by
  refine (ftValid_iff _).2 ⟨fun e he hz => ?_, (histogram_laws l hl).nodup⟩
  have hpos := histogram_count_pos l hl he
  rw [hz] at hpos
  exact absurd hpos (by decide)

/-- FREQ on a buffer that fits leaves its histogram in FT (R112). -/
theorem exec_freq_histogram {s : State} (hcap : s.n .slen ≤ s.cfg.symCap.val) :
    ∃ t, exec .freq s = .next t ∧ t.status = okStatus .freq ∧
      t.ftTable (t.n .ftlen) = histogram (s.symbols (s.n .slen)) := by
  have hbody : bodyOf .freq (s.begin Instr.freq.opc) = .done _ := if_neg (Nat.not_lt.2 hcap)
  obtain ⟨hexec, hstatus, -⟩ := exec_done_spec hbody
  have hlen := histogram_length_le (s.symbols (s.n .slen)) (by simpa using s.n_lt .slen)
  refine ⟨_, hexec, hstatus, ?_⟩
  have hftlen := heldBy_toNat (c := s.cfg) (r := .ftlen) (by decide)
    (show (histogram (s.symbols (s.n .slen))).length < 2 ^ 32 by omega)
  simp only [State.finish_n, State.setNat_n, if_pos, State.putFt_cfg, State.begin_cfg, State.begin_n, State.begin_symbols,
    hftlen]
  exact State.putFt_ftTable _ _

theorem cdfEntries_syms (low : Nat) (t : List FtEntry) : (cdfEntries low t).map (·.sym) = t.map (·.sym) := by
  induction t generalizing low with
  | nil => rfl
  | cons e es ih => simp [cdfEntries, ih]

/-- CDF on a valid table whose sum is at most `base` leaves its running sums in CDFT (R114, R115). -/
theorem exec_cdf_entries {s : State} {t : List FtEntry} (ht : s.ftTable (s.n .ftlen) = t) (hlen : t.length ≤ 256)
    (hvalid : ftValid t = true) (hsum : countSum t ≤ s.cfg.base) :
    ∃ u, exec .cdf s = .next u ∧ u.status = okStatus .cdf ∧ CdfInv u ∧ u.n .total = countSum t ∧
      u.cdfTable (u.n .clen) = cdfEntries 0 t := by
  have hftlen : s.n .ftlen = t.length := by simp [← ht]
  have hval : validateFt s = .done t := validateFt_eq_done.2 ⟨by omega, ht.symm, hvalid⟩
  have hbody : bodyOf .cdf (s.begin Instr.cdf.opc) =
      .done ((((s.begin Instr.cdf.opc).putCdft (cdfEntries 0 t)).setNat .clen t.length).setNat .total (countSum t)) := by
    change (validateFt s).andThen _ = _
    simp [hval, accumulate_eq, hsum]
  obtain ⟨hexec, hstatus, -⟩ := exec_done_spec hbody
  have hbase := s.cfg.base_le
  obtain ⟨hclen, htotal⟩ := State.setNat_setNat_n ((s.begin Instr.cdf.opc).putCdft (cdfEntries 0 t)) (r := .clen)
    (q := .total) (by decide) (by decide) (by decide) (show t.length < 2 ^ 32 by omega)
    (show countSum t < 2 ^ 32 by omega)
  refine ⟨_, hexec, hstatus, (cdfInv_cdfBody hbody :), htotal, ?_⟩
  rw [State.finish_n, hclen, ← cdfEntries_length 0 t]
  exact State.putCdft_cdfTable _ _

/-! ## RENC and RDEC on lists -/

/-- Every symbol that stands in the table has an entry, so the encoder's loop is done (R139). -/
theorem encodeSymbols_of_listed {base : Nat} (hpos : 0 < base) {t : List CdfEntry} (ht : CdfListOk base t)
    {bs : List Byte} (hlisted : ∀ b ∈ bs, b ∈ t.map (·.sym)) : ∃ x em, encodeSymbols base t bs = .done (x, em) := by
  obtain ⟨-, hdone⟩ | ⟨⟨b, hb, hnone⟩, -⟩ := encodeSymbols_cases hpos ht bs
  · exact hdone
  · obtain ⟨e, he, rfl⟩ := List.mem_map.1 (hlisted b hb)
    exact absurd (beq_self_eq_true e.sym) (List.find?_eq_none.1 hnone e he)

/-- RENC writes the state word and then the emitted bytes, newest first, when they fit (R88, R90, R139). -/
theorem exec_renc_payload {s : State} {x : Nat} {em : List Byte} (hinv : CdfInv s) (h0 : 1 ≤ s.n .slen)
    (hcap : s.n .slen ≤ s.cfg.symCap.val) (htot : s.n .total = s.n .slen)
    (henc : encodeSymbols s.cfg.base (s.cdfTable (s.n .clen)) (s.symbols (s.n .slen)) = .done (x, em))
    (hfit : s.cfg.fb + em.length ≤ s.cfg.payCap.val) :
    ∃ t, exec .renc s = .next t ∧ t.status = okStatus .renc ∧ t.n .nsym = s.n .slen ∧
      t.payload (t.n .plen) = lowBytes s.cfg.fb x ++ em.reverse := by
  obtain ⟨-, hx, -⟩ := encodeSymbols_spec s.cfg.base_pos (cdfListOk_of_inv hinv) henc
  have hbody := rencBody_of_encoded (s := s.begin Instr.renc.opc) h0 hcap htot henc hfit
  obtain ⟨hexec, hstatus, -⟩ := exec_done_spec (i := .renc) hbody
  obtain ⟨hplen, hnsym, -, -⟩ := encodedState_spec (s := s.begin Instr.renc.opc)
    (bytes := lowBytes s.cfg.fb x ++ em.reverse) hx (by simpa using hfit)
  refine ⟨_, hexec, hstatus, hnsym, ?_⟩
  rw [State.finish_n]
  exact (congrArg _ hplen).trans (State.putPay_payload _ _)

/-- RDEC on the payload of an encoding, with the table it was made with, gives the buffer back, the initial state and no
byte unread (R142). -/
theorem exec_rdec_of_encoded {u : State} {bs : List Byte} {x : Nat} {em : List Byte} (hinv : CdfInv u)
    (h0 : 1 ≤ bs.length) (hcap : bs.length ≤ u.cfg.symCap.val) (hpaycap : u.n .plen ≤ u.cfg.payCap.val)
    (hnsym : u.n .nsym = bs.length) (htot : u.n .total = bs.length)
    (henc : encodeSymbols u.cfg.base (u.cdfTable (u.n .clen)) bs = .done (x, em))
    (hpay : u.payload (u.n .plen) = lowBytes u.cfg.fb x ++ em.reverse) :
    ∃ v, exec .rdec u = .next v ∧ v.status = okStatus .rdec ∧ v.n .slen = bs.length ∧ v.symbols bs.length = bs ∧
      v.n .x = u.cfg.base ∧ v.n .pos = u.n .plen := by
  obtain ⟨-, hx, hdec⟩ := encodeSymbols_spec u.cfg.base_pos (cdfListOk_of_inv hinv) henc
  have hplen : u.n .plen = u.cfg.fb + em.length := by simpa using congrArg List.length hpay
  have hword : refill u.payAt 0 0 u.cfg.fb = x := by
    rw [← bytesValue_payload, ← payload_take u (show u.cfg.fb ≤ u.n .plen by omega), hpay,
      List.take_left' (lowBytes_length _ _), ← stateBytes_reverse, bytesValue_stateBytes _ _ (by rwa [Config.pow_fb])]
  have hrest : (u.payload (u.n .plen)).drop u.cfg.fb = em.reverse ++ [] := by
    rw [hpay, List.drop_left' (lowBytes_length _ _), List.append_nil]
  have hbody := rdecBody_of_checks (s := u.begin Instr.rdec.opc) (hnsym ▸ h0) (hnsym ▸ hcap) hpaycap
    (htot.trans hnsym.symm) (show u.cfg.fb ≤ u.n .plen by omega)
  simp only [State.begin_cfg, State.begin_n, State.begin_cdfTable, State.begin_payAt, State.begin_payload, hword, hrest,
    hnsym, hdec, Result.andThen_done, List.length_nil, Nat.sub_zero] at hbody
  obtain ⟨hexec, hstatus, -⟩ := exec_done_spec (i := .rdec) hbody
  obtain ⟨hslen, -, hxreg, hpos⟩ := decodedState_spec (s := u.begin Instr.rdec.opc) (out := bs) (x := u.cfg.base)
    (p := u.n .plen) (by have := u.cfg.base_pos; simp only [State.begin_cfg]; omega) (u.n_lt .plen)
  exact ⟨_, hexec, hstatus, hslen.trans hnsym, State.putSym_symbols _ _, hxreg, hpos⟩

/-! ## COMPRESS, then DECOMPRESS -/

/-- What RANS.COMPRESS hands to RANS.DECOMPRESS for a buffer (R100, R235, R236): its table in FT, its length in NSYM, and in
PAY the state word and the emitted bytes of an encoding with that table. -/
structure RansCompressed (s : State) (bs : List Byte) : Prop where
  table : s.ftTable (s.n .ftlen) = histogram bs
  nsym : s.n .nsym = bs.length
  plen_le : s.n .plen ≤ s.cfg.payCap.val
  payload : ∃ x em, encodeSymbols s.cfg.base (cdfEntries 0 (histogram bs)) bs = .done (x, em) ∧
    s.payload (s.n .plen) = lowBytes s.cfg.fb x ++ em.reverse

/-- CDF takes the histogram of a buffer of at most `base` symbols (R100, R114, R115). -/
theorem exec_cdf_histogram {s : State} {bs : List Byte} (ht : s.ftTable (s.n .ftlen) = histogram bs)
    (hbase : bs.length ≤ s.cfg.base) :
    ∃ u, exec .cdf s = .next u ∧ u.status = okStatus .cdf ∧ CdfInv u ∧ u.n .total = bs.length ∧
      u.cdfTable (u.n .clen) = cdfEntries 0 (histogram bs) := by
  have hbs : bs.length < 2 ^ 32 := by have := s.cfg.base_le; omega
  have hsum := countSum_histogram bs hbs
  obtain ⟨u, hu, hst, hinv, htot, hcdf⟩ :=
    exec_cdf_entries ht (histogram_length_le bs hbs) (ftValid_histogram hbs) (hsum.symm ▸ hbase)
  exact ⟨u, hu, hst, hinv, htot.trans hsum, hcdf⟩

/-- RANS.COMPRESS ends without error (R100): every symbol of the buffer is in its histogram, so RENC is done. -/
theorem exec_ransCompress {s : State} (h0 : 1 ≤ s.n .slen) (hcap : s.n .slen ≤ s.cfg.symCap.val)
    (hbase : s.n .slen ≤ s.cfg.base) (hroom : s.cfg.fb + s.n .slen * (s.cfg.p / 8) ≤ s.cfg.payCap.val) :
    ∃ s1 s2 s3, exec .freq s = .next s1 ∧ exec .cdf s1 = .next s2 ∧ exec .renc s2 = .next s3 ∧
      s1.status = okStatus .freq ∧ s2.status = okStatus .cdf ∧ s3.status = okStatus .renc ∧ s3.cfg = s.cfg ∧
      RansCompressed s3 (s.symbols (s.n .slen)) := by
  obtain ⟨s1, h1, hst1, htab1⟩ := exec_freq_histogram hcap
  have f1 := exec_frame h1
  obtain ⟨s2, h2, hst2, hinv, htot, hcdf⟩ := exec_cdf_histogram htab1 (by simpa [f1.cfg_eq] using hbase)
  have f2 := exec_frame h2
  have hcfg2 : s2.cfg = s.cfg := f2.cfg_eq.trans f1.cfg_eq
  have hslen : s2.n .slen = s.n .slen := (f2.n_eq (by decide)).trans (f1.n_eq (by decide))
  have hsyms : s2.symbols (s.n .slen) = s.symbols (s.n .slen) :=
    ((f2.sameElems (by decide) _).symbols).trans (f1.sameElems (by decide) _).symbols
  have hbuf : (s.symbols (s.n .slen)).length < 2 ^ 32 := by simpa using s.n_lt .slen
  have hok := cdfListOk_of_inv hinv
  obtain ⟨x, em, henc⟩ := encodeSymbols_of_listed s2.cfg.base_pos hok (bs := s.symbols (s.n .slen)) fun b hb => by
    rw [hcdf, cdfEntries_syms]
    exact ((histogram_laws _ hbuf).mem b).2 hb
  have hem := encodeSymbols_length s2.cfg.base_eq hok henc
  rw [State.symbols_length, hcfg2] at hem
  have hfit : s2.cfg.fb + em.length ≤ s2.cfg.payCap.val := by rw [hcfg2]; omega
  obtain ⟨s3, h3, hst3, hnsym, hpay⟩ := exec_renc_payload hinv (hslen ▸ h0) (hcfg2 ▸ hslen ▸ hcap)
    (by rw [htot, hslen, State.symbols_length]) (by rwa [hslen, hsyms]) hfit
  have f3 := exec_frame h3
  have hplen : s3.n .plen = s2.cfg.fb + em.length := by simpa using congrArg List.length hpay
  have hftlen : s3.n .ftlen = s1.n .ftlen := (f3.n_eq (by decide)).trans (f2.n_eq (by decide))
  have htab : s3.ftTable (s1.n .ftlen) = s1.ftTable (s1.n .ftlen) :=
    ((f3.sameElems (by decide) _).ftTable).trans (f2.sameElems (by decide) _).ftTable
  refine ⟨s1, s2, s3, h1, h2, h3, hst1, hst2, hst3, f3.cfg_eq.trans hcfg2, ?_, ?_, ?_, x, em, ?_, ?_⟩
  · rw [hftlen, htab, htab1]
  · rw [hnsym, hslen, State.symbols_length]
  · rwa [hplen, f3.cfg_eq]
  · rwa [f3.cfg_eq, ← hcdf]
  · rwa [f3.cfg_eq]

/-- RANS.DECOMPRESS of what RANS.COMPRESS made ends without error and gives the buffer back (R101, R142). -/
theorem exec_ransDecompress {s : State} {bs : List Byte} (h : RansCompressed s bs) (h0 : 1 ≤ bs.length)
    (hcap : bs.length ≤ s.cfg.symCap.val) (hbase : bs.length ≤ s.cfg.base) :
    ∃ t u, exec .cdf s = .next t ∧ exec .rdec t = .next u ∧ t.status = okStatus .cdf ∧ u.status = okStatus .rdec ∧
      u.n .slen = bs.length ∧ u.symbols bs.length = bs := by
  obtain ⟨htab, hnsym, hplen, x, em, henc, hpay⟩ := h
  obtain ⟨t, ht, hst, hinv, htot, hcdf⟩ := exec_cdf_histogram htab hbase
  have f := exec_frame ht
  have hplen' : t.n .plen = s.n .plen := f.n_eq (by decide)
  obtain ⟨u, hu, hst', hslen, hsyms, -, -⟩ := exec_rdec_of_encoded (u := t) hinv h0 (f.cfg_eq ▸ hcap)
    (by rwa [hplen', f.cfg_eq]) ((f.n_eq (by decide)).trans hnsym) htot (by rwa [f.cfg_eq, hcdf])
    (by rw [hplen', (f.sameElems (by decide) _).payload, hpay, f.cfg_eq])
  exact ⟨t, u, ht, hu, hst, hst', hslen, hsyms⟩

/-- Settles O30: RANS.COMPRESS leaves what RANS.DECOMPRESS needs, whatever the state held before. -/
theorem ransCompressThenDecompress : Obligations.RansCompressThenDecompress := by
  intro s h0 hcap hbase hroom
  obtain ⟨s1, s2, s3, h1, h2, h3, hst1, hst2, hst3, hcfg, hcomp⟩ := exec_ransCompress h0 hcap hbase hroom
  have hlen : (s.symbols (s.n .slen)).length = s.n .slen := s.symbols_length _
  obtain ⟨s4, s5, h4, h5, hst4, hst5, hslen, hsyms⟩ := exec_ransDecompress hcomp (by rwa [hlen])
    (by rwa [hlen, hcfg]) (by rwa [hlen, hcfg])
  rw [hlen] at hslen hsyms
  refine ⟨s1, s2, s3, s4, s5, h1, h2, h3, h4, h5, hst1, hst2, hst3, hst4, hst5, hslen, fun i hi => ?_⟩
  exact List.map_inj_left.1 hsyms i (List.mem_range.2 hi)

end Sys2Proof.Machine

namespace Sys2Proof.Machine

/-! # The decoder and the encoder

A word selects a command exactly when it is that command's word, and is rejected by the field that is wrong with it
(R80 to R82, R96, R97). -/

/-! ## Command words -/

theorem decode_encode (i : Instr) : decode (encode i) = .ok i := by cases i <;> decide

/-- The operation numbers are 1 to 10 (R81). -/
theorem opc_range (i : Instr) : 1 ≤ i.opc.toNat ∧ i.opc.toNat ≤ 10 := by cases i <;> decide

/-- Every number from 1 to 10 is a command's operation number (R81). -/
theorem exists_opc {c : BitVec 8} (h1 : 1 ≤ c.toNat) (h10 : c.toNat ≤ 10) : ∃ i : Instr, i.opc = c := by
  obtain ⟨n, hn⟩ : ∃ n, n = c.toNat := ⟨_, rfl⟩
  rw [← hn] at h1 h10
  have hc : c = BitVec.ofNat 8 n := by simp [hn]
  interval_cases n
  exacts [⟨.freq, hc.symm⟩, ⟨.cdf, hc.symm⟩, ⟨.renc, hc.symm⟩, ⟨.rdec, hc.symm⟩, ⟨.htree, hc.symm⟩, ⟨.hcode, hc.symm⟩,
    ⟨.henc, hc.symm⟩, ⟨.hdec, hc.symm⟩, ⟨.bpack, hc.symm⟩, ⟨.bunpk, hc.symm⟩]

/-- A command's word has the reserved field 0 and the operation number in its low byte, and no other word has (R81). -/
theorem eq_encode_iff (w : Word) (i : Instr) :
    w = encode i ↔ w.extractLsb' 8 24 = 0 ∧ w.extractLsb' 0 8 = i.opc := by
  constructor
  · rintro rfl
    cases i <;> decide
  · rintro ⟨hrsv, hopc⟩
    have hw : w.extractLsb' 8 24 ++ w.extractLsb' 0 8 = w := by
      refine BitVec.eq_of_getLsbD_eq fun j hj => ?_
      simp only [BitVec.getLsbD_append, BitVec.getLsbD_extractLsb']
      grind
    rw [← hw, hrsv, hopc]
    rfl

/-- A row of the opcode table compares the whole word with its command's word (R82). -/
theorem row_matches_iff {r : OpcodeRow} (hr : r ∈ opcodeTable) (w : Word) :
    (w &&& r.mask == r.pattern) = true ↔ w = encode r.instr := by
  have hrow : ∀ q ∈ opcodeTable, q.mask = BitVec.allOnes 32 ∧ q.pattern = encode q.instr := by decide
  obtain ⟨hmask, hpattern⟩ := hrow r hr
  rw [hmask, hpattern, BitVec.and_allOnes, beq_iff_eq]

/-- A word that is no command's word is rejected, by the reserved field when that is not 0, else by the operation
(R96, R97). -/
theorem decode_of_ne_encode {w : Word} (hw : ∀ i, w ≠ encode i) :
    decode w = .error (if w.extractLsb' 8 24 = 0 then .undefinedOpcode else .reservedField) := by
  have hnone : opcodeTable.find? (fun r => w &&& r.mask == r.pattern) = none :=
    List.find?_eq_none.2 fun r hr hmatch => hw _ ((row_matches_iff hr w).1 hmatch)
  rw [decode, hnone]
  exact (apply_ite Except.error _ _ _).symm

/-- R82: a word selects a command exactly when it is that command's word. -/
theorem decode_eq_ok_iff (w : Word) (i : Instr) : decode w = .ok i ↔ w = encode i := by
  constructor
  · intro h
    rw [decode] at h
    split at h
    · next r hr =>
      cases h
      have hmatch := List.find?_some hr
      exact (row_matches_iff (List.mem_of_find?_eq_some hr) w).1 hmatch
    · split at h <;> cases h
  · rintro rfl
    exact decode_encode i

theorem decode_eq_error_iff (w : Word) (e : DecodeError) :
    decode w = .error e ↔
      (∀ i, w ≠ encode i) ∧ (if w.extractLsb' 8 24 = 0 then .undefinedOpcode else .reservedField) = e := by
  constructor
  · intro h
    have hw : ∀ i, w ≠ encode i := by
      rintro i rfl
      rw [decode_encode] at h
      cases h
    exact ⟨hw, Except.error.inj ((decode_of_ne_encode hw).symm.trans h)⟩
  · rintro ⟨hw, rfl⟩
    exact decode_of_ne_encode hw

/-- The words that are no command's word: a reserved bit is set, or the operation is 0 or above 10 (R96, R97). -/
theorem ne_encode_iff (w : Word) :
    (∀ i, w ≠ encode i) ↔ w.extractLsb' 8 24 ≠ 0 ∨ w.extractLsb' 0 8 = 0 ∨ 10 < (w.extractLsb' 0 8).toNat := by
  constructor
  · intro h
    by_contra hlegal
    push Not at hlegal
    obtain ⟨hrsv, h0, h10⟩ := hlegal
    have h1 : 1 ≤ (w.extractLsb' 0 8).toNat := Nat.one_le_iff_ne_zero.2 fun hz => h0 (BitVec.eq_of_toNat_eq hz)
    obtain ⟨i, hi⟩ := exists_opc h1 h10
    exact h i ((eq_encode_iff w i).2 ⟨hrsv, hi.symm⟩)
  · rintro hillegal i hw
    obtain ⟨hrsv, hopc⟩ := (eq_encode_iff w i).1 hw
    obtain ⟨h1, h10⟩ := opc_range i
    rw [hopc] at hillegal
    obtain h | h | h := hillegal
    · exact h hrsv
    · rw [h] at h1
      exact absurd h1 (by decide)
    · omega

/-- R96: the reserved field is looked at first, and no command's word has a bit of it set. -/
theorem decode_eq_reservedField_iff (w : Word) : decode w = .error .reservedField ↔ w.extractLsb' 8 24 ≠ 0 := by
  rw [decode_eq_error_iff, ne_encode_iff]
  split
  · next hrsv => exact ⟨fun h => (nomatch h.2), fun h => absurd hrsv h⟩
  · next hrsv => exact ⟨fun _ => hrsv, fun _ => ⟨.inl hrsv, rfl⟩⟩

/-- R97: the operation is looked at when the reserved field is 0. -/
theorem decode_eq_undefinedOpcode_iff (w : Word) :
    decode w = .error .undefinedOpcode ↔
      w.extractLsb' 8 24 = 0 ∧ (w.extractLsb' 0 8 = 0 ∨ 10 < (w.extractLsb' 0 8).toNat) := by
  rw [decode_eq_error_iff, ne_encode_iff]
  split
  · next hrsv => exact ⟨fun h => ⟨hrsv, h.1.resolve_left (not_not.2 hrsv)⟩, fun h => ⟨.inr h.2, rfl⟩⟩
  · next hrsv => exact ⟨fun h => (nomatch h.2), fun h => absurd h.1 hrsv⟩

/-- Settles O1: the rows of the table are the commands' words, and the two rejections share the other words between them. -/
theorem decodeSelectsExactlyTheTableWords : Obligations.DecodeSelectsExactlyTheTableWords :=
  fun w => ⟨decode_eq_ok_iff w, decode_eq_reservedField_iff w, decode_eq_undefinedOpcode_iff w⟩

/-- Settles O2: each word of R81 is its command's word; the three others are illegal by R96 and R97. -/
theorem commandWordsOfTheOpcodeMap : Obligations.CommandWordsOfTheOpcodeMap :=
  ⟨decode_encode .freq, decode_encode .cdf, decode_encode .renc, decode_encode .rdec, decode_encode .htree,
    decode_encode .hcode, decode_encode .henc, decode_encode .hdec, decode_encode .bpack, decode_encode .bunpk,
    (decode_eq_undefinedOpcode_iff _).2 (by decide), (decode_eq_undefinedOpcode_iff _).2 (by decide),
    (decode_eq_reservedField_iff _).2 (by decide), rfl, rfl⟩

/-! ## Illegal words and pseudo-instructions at the host port -/

/-- On an idle core a word that is no command's word ends with IllegalCommandError (R96, R97). -/
theorem writeCmd_of_illegal {w : Word} {s : State} (hb : s.status.busy = false) (hw : ∀ i, w ≠ encode i) :
    writeCmd w s = .next (s.illegalCommand (w.extractLsb' 0 8)) := by
  simp [writeCmd, hb, decode_of_ne_encode hw, cmdFields]

/-- Settles O6: the pending write of an illegal word is the shared operation for illegal commands, which writes STATUS only. -/
theorem illegalWordChangesStatusOnly : Obligations.IllegalWordChangesStatusOnly := by
  intro s w rest hb hw
  exact (step_cons _ rest s).trans (writeCmd_of_illegal (s := { s with inputs := rest }) hb ((ne_encode_iff w).2 hw))

/-- On an idle core the first command of a pseudo-instruction runs, and the others stay pending when it ended without
error (R104). -/
theorem issueNext_of_exec {s t : State} {c : Instr} (hb : s.status.busy = false) (h : exec c s = .next t)
    (cs : List Instr) :
    issueNext (c :: cs) s =
      if t.status.err = true ∨ cs = [] then .next t else .next { t with inputs := .issue cs :: t.inputs } := by
  simp [issueNext, writeCmd_of_decode hb (decode_encode c), h]

/-- Settles O13: the step issues the first command; a command leaves the queue behind it alone (R65), so what stays pending
stands at its head. -/
theorem pseudoInstructionStopsAtFirstError : Obligations.PseudoInstructionStopsAtFirstError := by
  refine ⟨fun s t c cs rest hb h => ?_, rfl, rfl, rfl, rfl⟩
  have hqueue : t.inputs = rest := (exec_frame h).inputs_eq
  have hstep := (step_cons (.issue (c :: cs)) rest s).trans (issueNext_of_exec (s := { s with inputs := rest }) hb h cs)
  refine ⟨fun he => ?_, fun he hcs => ?_, fun hcs => ?_⟩
  · rw [hstep, if_pos (.inl he)]
  · rw [hstep, if_neg (by simp [he, hcs]), hqueue]
  · rw [hstep, if_pos (.inr hcs)]

/-! ## Records in their bits

A record is its fields side by side, the last one lowest (R83 to R86): first for three and five fields of any widths. -/

section Fields

variable {m₁ m₂ m₃ m₄ m₅ : Nat} (a : BitVec m₁) (b : BitVec m₂) (c : BitVec m₃) (d : BitVec m₄) (e : BitVec m₅)

theorem extractLsb'_append_three :
    (a ++ b ++ c).extractLsb' (m₃ + m₂) m₁ = a ∧ (a ++ b ++ c).extractLsb' m₃ m₂ = b ∧
      (a ++ b ++ c).extractLsb' 0 m₃ = c := by
  simp [BitVec.extractLsb'_append_eq_of_le, BitVec.extractLsb'_append_eq_right]

theorem extractLsb'_append_five :
    (a ++ b ++ c ++ d ++ e).extractLsb' (m₅ + m₄ + (m₃ + m₂)) m₁ = a ∧
      (a ++ b ++ c ++ d ++ e).extractLsb' (m₅ + m₄ + m₃) m₂ = b ∧
      (a ++ b ++ c ++ d ++ e).extractLsb' (m₅ + m₄) m₃ = c ∧ (a ++ b ++ c ++ d ++ e).extractLsb' m₅ m₄ = d ∧
      (a ++ b ++ c ++ d ++ e).extractLsb' 0 m₅ = e := by
  simp [BitVec.extractLsb'_append_eq_of_le, BitVec.extractLsb'_append_eq_right, Nat.add_assoc]

theorem append_extractLsb'_three (w : BitVec (m₁ + m₂ + m₃)) :
    w.extractLsb' (m₃ + m₂) m₁ ++ w.extractLsb' m₃ m₂ ++ w.extractLsb' 0 m₃ = w := by
  rw [BitVec.extractLsb'_append_extractLsb'_eq_extractLsb' rfl,
    BitVec.extractLsb'_append_extractLsb'_eq_extractLsb' (Nat.zero_add _).symm, BitVec.extractLsb'_eq_self]

theorem append_extractLsb'_five (w : BitVec (m₁ + m₂ + m₃ + m₄ + m₅)) :
    w.extractLsb' (m₅ + m₄ + m₃ + m₂) m₁ ++ w.extractLsb' (m₅ + m₄ + m₃) m₂ ++ w.extractLsb' (m₅ + m₄) m₃ ++
      w.extractLsb' m₅ m₄ ++ w.extractLsb' 0 m₅ = w := by
  rw [BitVec.extractLsb'_append_extractLsb'_eq_extractLsb' rfl,
    BitVec.extractLsb'_append_extractLsb'_eq_extractLsb' rfl, append_extractLsb'_three]

end Fields

/-- Each field of an FT entry at its bits (R83). -/
theorem packFt_fields (e : FtEntry) : (packFt e).extractLsb' 32 8 = e.sym ∧ (packFt e).extractLsb' 0 32 = e.count :=
  ⟨BitVec.extractLsb'_append_eq_left, BitVec.extractLsb'_append_eq_right⟩

/-- Each field of a CDFT entry at its bits (R84). -/
theorem packCdf_fields (e : CdfEntry) :
    (packCdf e).extractLsb' 64 8 = e.sym ∧ (packCdf e).extractLsb' 32 32 = e.low ∧ (packCdf e).extractLsb' 0 32 = e.freq :=
  extractLsb'_append_three e.sym e.low e.freq

/-- Each field of an HT node at its bits (R85). -/
theorem packHt_fields (n : HtNode) :
    (packHt n).extractLsb' 58 1 = tagBit n.tag ∧ (packHt n).extractLsb' 26 32 = n.weight ∧
      (packHt n).extractLsb' 18 8 = n.sym ∧ (packHt n).extractLsb' 9 9 = n.left ∧ (packHt n).extractLsb' 0 9 = n.right :=
  extractLsb'_append_five (tagBit n.tag) n.weight n.sym n.left n.right

/-- Each field of a CT entry at its bits (R86). -/
theorem packCt_fields (e : CtEntry) : (packCt e).extractLsb' 255 8 = e.len ∧ (packCt e).extractLsb' 0 255 = e.code :=
  ⟨BitVec.extractLsb'_append_eq_left, BitVec.extractLsb'_append_eq_right⟩

theorem tagBit_getLsbD (g : NodeTag) : (tagBit g).getLsbD 0 = true ↔ g = .internal := by cases g <;> decide

/-- The tag of a node is its bit 58 (R44, R85). -/
theorem packHt_tag (n : HtNode) : (packHt n).getLsbD 58 = true ↔ n.tag = .internal := by
  have hbit : ((packHt n).extractLsb' 58 1).getLsbD 0 = (packHt n).getLsbD 58 := BitVec.getLsbD_extractLsb' ..
  obtain ⟨htag, -⟩ := packHt_fields n
  rw [← hbit, htag, tagBit_getLsbD]

/-- A tag bit is read back (R44). -/
theorem tagBit_ite (b : BitVec 1) : tagBit (if b = 0 then .leaf else .internal) = b := by revert b; decide

theorem unpackFt_packFt (e : FtEntry) : unpackFt (packFt e) = e := by simp only [unpackFt, packFt_fields]

theorem unpackCdf_packCdf (e : CdfEntry) : unpackCdf (packCdf e) = e := by simp only [unpackCdf, packCdf_fields]

theorem unpackHt_packHt (n : HtNode) : unpackHt (packHt n) = n := by
  have htag : (if tagBit n.tag = 0 then NodeTag.leaf else .internal) = n.tag := by cases n.tag <;> rfl
  simp only [unpackHt, packHt_fields, htag]

theorem unpackCt_packCt (e : CtEntry) : unpackCt (packCt e) = e := by simp only [unpackCt, packCt_fields]

theorem packFt_unpackFt (w : BitVec 40) : packFt (unpackFt w) = w :=
  (BitVec.extractLsb'_append_extractLsb'_eq_extractLsb' rfl).trans BitVec.extractLsb'_eq_self

theorem packCdf_unpackCdf (w : BitVec 72) : packCdf (unpackCdf w) = w :=
  append_extractLsb'_three (m₁ := 8) (m₂ := 32) (m₃ := 32) w

theorem packHt_unpackHt (w : BitVec 59) : packHt (unpackHt w) = w := by
  simp only [packHt, unpackHt, tagBit_ite]
  exact append_extractLsb'_five (m₁ := 1) (m₂ := 32) (m₃ := 8) (m₄ := 9) (m₅ := 9) w

theorem packCt_unpackCt (w : BitVec 263) : packCt (unpackCt w) = w :=
  (BitVec.extractLsb'_append_extractLsb'_eq_extractLsb' rfl).trans BitVec.extractLsb'_eq_self

/-- Settles O3: the fields of each record at their bits, and the two inverses, record by record. -/
theorem recordsStandInTheirBits : Obligations.RecordsStandInTheirBits :=
  ⟨fun e => ⟨unpackFt_packFt e, packFt_fields e⟩, fun e => ⟨unpackCdf_packCdf e, packCdf_fields e⟩,
    fun n => ⟨unpackHt_packHt n, packHt_tag n, (packHt_fields n).2⟩, fun e => ⟨unpackCt_packCt e, packCt_fields e⟩,
    packFt_unpackFt, packCdf_unpackCdf, packHt_unpackHt, packCt_unpackCt⟩

/-- Settles O4: the entry is read back from its bits, and holds the codeword at bit `254 - j` on. -/
theorem codeEntryHoldsItsCodeword : Obligations.CodeEntryHoldsItsCodeword := by
  intro p hp
  obtain ⟨hlen, hcode⟩ := packCt_fields (ctOfPath p)
  refine ⟨?_, ?_, fun j hj => ?_⟩
  · rw [unpackCt_packCt, codeword_ctOfPath hp]
  · rw [hlen, ctOfPath_len hp]
  · rw [← ctOfPath_bit hp hj, ← hcode, BitVec.getLsbD_extractLsb']
    simp [show 254 - j < 255 by omega]

end Sys2Proof.Machine

namespace Sys2Proof.Machine

/-! # FREQ and CDF in the state

The tables FREQ and CDF leave (R112 to R115), read entry by entry: what holds of the list a table is, said of `FT[j]` and
`CDFT[j]`. -/

/-! ## Tables as lists -/

section Tables

variable {s u : State} {m n j : Nat}

theorem State.ftAt_mem_ftTable (s : State) (hj : j < n) : s.ftAt j ∈ s.ftTable n :=
  List.mem_map_of_mem (List.mem_range.2 hj)

theorem State.ftTable_getElem (s : State) (hj : j < (s.ftTable n).length) : (s.ftTable n)[j] = s.ftAt j := by
  simp [State.ftTable]

theorem State.cdfTable_getElem (s : State) (hj : j < (s.cdfTable n).length) : (s.cdfTable n)[j] = s.cdftAt j := by
  simp [State.cdfTable]

theorem State.mem_ftTable_syms {b : Byte} : b ∈ (s.ftTable n).map (·.sym) ↔ ∃ j < n, (s.ftAt j).sym = b := by
  simp [State.ftTable]

theorem State.pairwise_ftTable_syms {R : Byte → Byte → Prop} :
    ((s.ftTable n).map (·.sym)).Pairwise R ↔ ∀ k < n, ∀ j < k, R (s.ftAt j).sym (s.ftAt k).sym := by
  rw [List.pairwise_map, List.pairwise_iff_getElem]
  simp only [State.ftTable_getElem, State.ftTable_length]
  exact ⟨fun h k hk j hj => h j k (hj.trans hk) hk hj, fun h j k _ hk hj => h k hk j hj⟩

theorem State.ftTable_take (s : State) (hj : j ≤ n) : (s.ftTable n).take j = s.ftTable j := by
  rw [State.ftTable, ← List.map_take, List.take_range, Nat.min_eq_left hj, State.ftTable]

/-- Equal tables have one length and equal entries. -/
theorem State.ftAt_eq_of_ftTable_eq (h : s.ftTable m = u.ftTable n) : m = n ∧ ∀ j < n, s.ftAt j = u.ftAt j := by
  obtain rfl : m = n := by simpa using congrArg List.length h
  exact ⟨rfl, fun j hj => List.map_inj_left.1 h j (List.mem_range.2 hj)⟩

end Tables

/-! ## FREQ -/

section Histogram

variable {t : State} {l : List Byte} (hl : l.length < 2 ^ 32) (ht : t.ftTable (t.n .ftlen) = histogram l)
include hl ht

/-- Every count of FREQ's table is the number of occurrences of its symbol, and so at least 1 (R113 a, b). -/
theorem ftAt_count_of_histogram {j : Nat} (hj : j < t.n .ftlen) :
    1 ≤ (t.ftAt j).count.toNat ∧ (t.ftAt j).count.toNat = l.count (t.ftAt j).sym := by
  have hmem : t.ftAt j ∈ histogram l := ht ▸ t.ftAt_mem_ftTable hj
  exact ⟨histogram_count_pos l hl hmem, (histogram_laws l hl).count _ hmem⟩

/-- Its symbols stand in the order of their first occurrences, so no symbol stands twice (R113 c, d). -/
theorem ftAt_order_of_histogram {j k : Nat} (hk : k < t.n .ftlen) (hj : j < k) :
    (t.ftAt j).sym ≠ (t.ftAt k).sym ∧ l.idxOf (t.ftAt j).sym < l.idxOf (t.ftAt k).sym := by
  have hlt := State.pairwise_ftTable_syms.1 (ht ▸ (histogram_laws l hl).order) k hk j hj
  exact ⟨fun h => absurd hlt (h ▸ lt_irrefl _), hlt⟩

/-- It has at most as many entries as the buffer has symbols, at most 256 (R113 e), and passes ValidateFT (R111). -/
theorem ftOk_of_histogram : t.n .ftlen ≤ min l.length 256 ∧ FtOk (t.n .ftlen) t.ftAt := by
  have hlen : t.n .ftlen = (histogram l).length := by simp [← ht]
  have h256 : t.n .ftlen ≤ 256 := hlen ▸ histogram_length_le l hl
  exact ⟨le_min (hlen ▸ histogram_length_le_length l) h256, (ftOk_iff t).2 ⟨h256, ht ▸ ftValid_histogram hl⟩⟩

end Histogram

/-- Settles O18: FREQ leaves the histogram of the buffer, whose laws are those of R113; another state with the same buffer
gives the same histogram. -/
theorem freqCountsTheBuffer : Obligations.FreqCountsTheBuffer := by
  intro s hcap
  have hl : (s.symbols (s.n .slen)).length < 2 ^ 32 := by simpa using s.n_lt .slen
  obtain ⟨t, hexec, hstatus, ht⟩ := exec_freq_histogram hcap
  obtain ⟨hlen, hok⟩ := ftOk_of_histogram hl ht
  refine ⟨t, hexec, hstatus, exec_frame hexec, ?_, fun j hj => ftAt_count_of_histogram hl ht hj, fun b => ?_,
    fun k hk j hj => ftAt_order_of_histogram hl ht hk hj, by simpa using hlen, hok, fun s' hslen hsyms hcap' => ?_⟩
  · rw [← countSum_ftTable, ht, countSum_histogram _ hl, State.symbols_length]
  · rw [← (histogram_laws _ hl).mem b, ← ht, State.mem_ftTable_syms]
  · obtain ⟨t', hexec', -, ht'⟩ := exec_freq_histogram (hslen.symm ▸ hcap')
    rw [hslen, hsyms, ← ht] at ht'
    exact ⟨t', hexec', State.ftAt_eq_of_ftTable_eq ht'⟩

/-- Settles O19: the first check of FREQ's body fails. -/
theorem freqCapacityError : Obligations.FreqCapacityError :=
  fun _ hcap => endsWith_of_raise (i := .freq) (if_pos hcap)

/-! ## CDF -/

/-- Entry `j` of what CDF makes of a table whose sum is at most `base` (R114). -/
theorem cdfEntries_spec {base : Nat} {t : List FtEntry} (hbase : base < 2 ^ 32) (hsum : countSum t ≤ base) {j : Nat}
    (hj : j < t.length) :
    ((cdfEntries 0 t)[j]'(by simpa using hj)).sym = t[j].sym ∧
      ((cdfEntries 0 t)[j]'(by simpa using hj)).low.toNat = countSum (t.take j) ∧
      ((cdfEntries 0 t)[j]'(by simpa using hj)).freq = t[j].count := by
  have hle := countSum_take_le t j
  rw [cdfEntries_getElem 0 t j hj]
  exact ⟨rfl, by rw [BitVec.toNat_ofNat, Nat.zero_add, Nat.mod_eq_of_lt (by omega)], rfl⟩

/-- Settles O20: CDF leaves the running sums of the table, entry by entry, and they satisfy the CDF laws. -/
theorem cdfBuildsThePartition : Obligations.CdfBuildsThePartition := by
  intro s hok hsum
  obtain ⟨h256, hvalid⟩ := (ftOk_iff s).1 hok
  rw [← countSum_ftTable] at hsum ⊢
  obtain ⟨t, hexec, hstatus, hinv, htotal, htab⟩ := exec_cdf_entries rfl (by simpa using h256) hvalid hsum
  have hframe := exec_frame hexec
  have hclen : t.n .clen = s.n .ftlen := by simpa using congrArg List.length htab
  have hbase := s.cfg.base_le
  refine ⟨t, hexec, hstatus, hframe, hclen, htotal, fun j hj => ?_, hframe.cfg_eq ▸ hinv⟩
  have hentry : t.cdftAt j = (cdfEntries 0 (s.ftTable (s.n .ftlen)))[j]'(by simpa using hj) := by
    rw [← t.cdfTable_getElem (n := t.n .clen) (by simpa [hclen] using hj)]
    exact List.getElem_of_eq htab _
  have hspec := cdfEntries_spec (by omega) hsum (j := j) (by simpa using hj)
  rwa [← hentry, State.ftTable_getElem, s.ftTable_take hj.le, countSum_ftTable] at hspec

/-- Two intervals of the partition that hold the same number are one (R115 a). -/
theorem cdfPartition_interval_unique {base n total : Nat} {e : Nat → CdfEntry} (h : CdfPartition base n total e)
    {i j v : Nat} (hi : i < n) (hj : j < n) (hilow : (e i).low.toNat ≤ v)
    (hihigh : v < (e i).low.toNat + (e i).freq.toNat) (hjlow : (e j).low.toNat ≤ v)
    (hjhigh : v < (e j).low.toNat + (e j).freq.toNat) : i = j := by
  rcases Nat.lt_trichotomy i j with hij | hij | hij
  · have := cdfPartition_low_le h hij hj
    omega
  · exact hij
  · have := cdfPartition_low_le h hij hi
    omega

/-- Settles O21: the lookup of a slot below TOTAL finds an interval (R138), no other one holds the slot, and every interval
ends at TOTAL or before. -/
theorem cdfIntervalsHaveNoGapAndNoOverlap : Obligations.CdfIntervalsHaveNoGapAndNoOverlap := by
  refine fun s hinv v => ⟨fun hv => ?_, fun hv j hj hin => ?_⟩
  · have hsome : lookupSlot (s.cdfTable (s.n .clen)) v ≠ none := fun h =>
      absurd ((lookupSlot_eq_none_iff hinv v).1 h) (Nat.not_le.2 hv)
    obtain ⟨e, he⟩ := Option.ne_none_iff_exists'.1 hsome
    obtain ⟨hmem, hlow, hhigh⟩ := mem_of_lookupSlot he
    obtain ⟨j, hj, rfl⟩ := List.mem_map.1 hmem
    have hj := List.mem_range.1 hj
    exact ⟨j, hj, ⟨hlow, hhigh⟩, fun i hi hin => cdfPartition_interval_unique hinv hi hj hin.1 hin.2 hlow hhigh⟩
  · have := cdfPartition_le_total hinv hj
    omega

/-- CDF raises on an invalid table at ValidateFT, and on one whose sum exceeds `base` in its walk (R111, R114). -/
theorem cdfBody_raise {s : State} (h : ¬ (FtOk (s.n .ftlen) s.ftAt ∧ countBelow s.ftAt (s.n .ftlen) ≤ s.cfg.base)) :
    cdfBody s = .raise .modelInvariant := by
  by_cases hok : FtOk (s.n .ftlen) s.ftAt
  · have hsum : ¬ countSum (s.ftTable (s.n .ftlen)) ≤ s.cfg.base := by
      rw [countSum_ftTable]
      exact fun hle => h ⟨hok, hle⟩
    simp [cdfBody, validateFt_of_ok hok, accumulate_eq, hsum]
  · simp [cdfBody, validateFt_of_not_ok hok]

/-- Settles O22: the body raises, and R212 sets CLEN and TOTAL to 0. -/
theorem cdfRejectsEveryOtherTable : Obligations.CdfRejectsEveryOtherTable := by
  intro s h
  have hends : EndsWith .cdf .modelInvariant s := endsWith_of_raise (cdfBody_raise (s := s.begin Instr.cdf.opc) h)
  have ⟨t, hexec, _, hzero, _⟩ := hends
  exact ⟨hends, t, hexec, hzero _ (by simp [lengthRegs]), hzero _ (by simp [lengthRegs])⟩

end Sys2Proof.Machine

namespace Sys2Proof.Machine

/-! # The rANS codec: round trip, bounds and errors

RENC and RDEC in every state whose table is as CDF left it: RDEC gives back what RENC encoded (R142), RENC keeps to its
bounds (R133, R140), and each error in its place (R139, R141, R210). -/

/-! ## What RENC does when its checks pass -/

/-- When every check passes RENC runs its loop over the buffer, and then asks for room for the payload (R139). -/
theorem rencBody_of_checks {s : State} (h0 : 1 ≤ s.n .slen) (hcap : s.n .slen ≤ s.cfg.symCap.val)
    (htot : s.n .total = s.n .slen) :
    rencBody s = (encodeSymbols s.cfg.base (s.cdfTable (s.n .clen)) (s.symbols (s.n .slen))).andThen fun xe =>
      if s.cfg.payCap.val < s.cfg.fb + xe.2.length then .raise .capacity
      else .done (encodedState s xe.1 (lowBytes s.cfg.fb xe.1 ++ xe.2.reverse)) := by
  rw [rencBody, if_neg (by omega), if_neg (by omega), if_neg (by omega)]
  simp [encodedState, stateBytes_reverse, Nat.add_comm]

/-- A buffer longer than SYM_CAP (R139, R207). -/
theorem rencBody_of_tooLong {s : State} (h0 : 1 ≤ s.n .slen) (hcap : s.cfg.symCap.val < s.n .slen) :
    rencBody s = .raise .capacity := by
  rw [rencBody, if_neg (by omega), if_pos hcap]

/-- A table made for another number of symbols (R139, R205). -/
theorem rencBody_of_total_ne {s : State} (h0 : 1 ≤ s.n .slen) (hcap : s.n .slen ≤ s.cfg.symCap.val)
    (htot : s.n .total ≠ s.n .slen) : rencBody s = .raise .modelInvariant := by
  rw [rencBody, if_neg (by omega), if_neg (by omega), if_pos htot]

/-- RENC is done with a non-empty buffer only when every check passed and the loop's payload fits (R139). -/
theorem encoded_of_rencBody_done {s u : State} (h0 : 1 ≤ s.n .slen) (h : rencBody s = .done u) :
    s.n .slen ≤ s.cfg.symCap.val ∧ s.n .total = s.n .slen ∧
      ∃ x em, encodeSymbols s.cfg.base (s.cdfTable (s.n .clen)) (s.symbols (s.n .slen)) = .done (x, em) ∧
        s.cfg.fb + em.length ≤ s.cfg.payCap.val := by
  by_cases hcap : s.n .slen ≤ s.cfg.symCap.val
  · by_cases htot : s.n .total = s.n .slen
    · rw [rencBody_of_checks h0 hcap htot, Result.andThen_eq_done] at h
      obtain ⟨⟨x, em⟩, henc, hroom⟩ := h
      split at hroom
      · cases hroom
      · next hfit => exact ⟨hcap, htot, x, em, henc, Nat.not_lt.1 hfit⟩
    · rw [rencBody_of_total_ne h0 hcap htot] at h
      cases h
  · rw [rencBody_of_tooLong h0 (Nat.lt_of_not_le hcap)] at h
    cases h

/-! ## The round trip -/

section SameTables

variable {t u : State}

theorem SamePayload.payload (h : SamePayload t u) : u.payload (t.n .plen) = t.payload (t.n .plen) := by
  obtain ⟨-, -, -, hpay⟩ := h
  exact List.map_congr_left fun i hi => hpay i (List.mem_range.1 hi)

theorem SameCdf.cdfTable (h : SameCdf t u) : u.cdfTable (t.n .clen) = t.cdfTable (t.n .clen) := by
  obtain ⟨-, -, htab⟩ := h
  exact List.map_congr_left fun j hj => htab j (List.mem_range.1 hj)

theorem SamePayload.n_eq (h : SamePayload t u) : u.n .plen = t.n .plen ∧ u.n .nsym = t.n .nsym := by
  obtain ⟨-, hplen, hnsym, -⟩ := h
  exact ⟨congrArg BitVec.toNat hplen, congrArg BitVec.toNat hnsym⟩

theorem SameCdf.n_eq (h : SameCdf t u) : u.n .clen = t.n .clen ∧ u.n .total = t.n .total := by
  obtain ⟨hclen, htotal, -⟩ := h
  exact ⟨congrArg BitVec.toNat hclen, congrArg BitVec.toNat htotal⟩

/-- The laws of a CDF table speak of its `n` entries only (R115). -/
theorem CdfPartition.congr {base n total : Nat} {e e' : Nat → CdfEntry} (h : CdfPartition base n total e)
    (he : ∀ j < n, e' j = e j) : CdfPartition base n total e' := by
  obtain ⟨hn, hpos, hsym, hfirst, hstep, hlast, hempty⟩ := h
  refine ⟨hn, fun j hj => ?_, fun k hk j hj => ?_, fun h0 => ?_, fun j hj hj' => ?_, fun h0 => ?_, hempty⟩
  · rw [he j hj]; exact hpos j hj
  · rw [he j (hj.trans hk), he k hk]; exact hsym k hk j hj
  · rw [he 0 h0]; exact hfirst h0
  · rw [he j hj, he _ hj']; exact hstep j hj hj'
  · rw [he _ (Nat.sub_lt h0 Nat.one_pos)]; exact hlast h0

theorem CdfInv.of_sameCdf (h : CdfInv t) (hcfg : u.cfg = t.cfg) (hsame : SameCdf t u) : CdfInv u := by
  obtain ⟨hclen, htotal⟩ := hsame.n_eq
  obtain ⟨-, -, htab⟩ := hsame
  rw [CdfInv, hcfg, hclen, htotal]
  exact CdfPartition.congr h htab

end SameTables

/-- Settles O29: RENC without error left the payload of an encoding of the whole buffer, which RDEC undoes with the same
table. -/
theorem ransRoundTrip : Obligations.RansRoundTrip := by
  intro s t u hinv h0 hexec hok hpayload hcdf
  obtain ⟨w, hbody, -⟩ := done_of_no_error hexec hok
  obtain ⟨hcap, htot, x, em, henc, hfit⟩ := encoded_of_rencBody_done (s := s.begin Instr.renc.opc) h0 hbody
  obtain ⟨t', hexec', -, hnsym, hpay⟩ := exec_renc_payload hinv h0 hcap htot henc hfit
  obtain rfl : t = t' := Host.Outcome.next.inj (hexec.symm.trans hexec')
  have hframe := exec_frame hexec
  have hslen : (s.symbols (s.n .slen)).length = s.n .slen := s.symbols_length _
  have hplen : t.n .plen = s.cfg.fb + em.length := by simpa using congrArg List.length hpay
  have hclen : t.n .clen = s.n .clen := hframe.n_eq (by decide)
  have htotal : t.n .total = s.n .total := hframe.n_eq (by decide)
  have htable : u.cdfTable (s.n .clen) = s.cdfTable (s.n .clen) :=
    hclen ▸ hcdf.cdfTable.trans (hframe.sameElems (by decide) _).cdfTable
  have hupay := hpayload.payload.trans hpay
  obtain ⟨huplen, hunsym⟩ := hpayload.n_eq
  obtain ⟨huclen, hutotal⟩ := hcdf.n_eq
  obtain ⟨hcfg, -⟩ := hpayload
  have hucfg : u.cfg = s.cfg := hcfg.trans hframe.cfg_eq
  have huinv := (cdfInv_exec hinv hexec).of_sameCdf hcfg hcdf
  obtain ⟨v, hv, hstatus, hvslen, hvsyms, hvx, hvpos⟩ := exec_rdec_of_encoded (bs := s.symbols (s.n .slen)) huinv
    (by rwa [hslen]) (by rwa [hslen, hucfg]) (by rwa [huplen, hplen, hucfg]) (by rw [hunsym, hnsym, hslen])
    (by rw [hutotal, htotal, hslen]; exact htot) (by rwa [hucfg, huclen, hclen, htable]) (by rwa [huplen, hucfg])
  rw [hslen] at hvslen hvsyms
  exact ⟨v, hv, hstatus, hvslen, fun i hi => List.map_inj_left.1 hvsyms i (List.mem_range.2 hi), hucfg ▸ hvx,
    hvpos.trans huplen⟩

/-! ## The encoder's trace -/

theorem State.mem_cdfTable {s : State} {n : Nat} {e : CdfEntry} : e ∈ s.cdfTable n ↔ ∃ j < n, e = s.cdftAt j := by
  simp [State.cdfTable, eq_comm]

/-- The loop of R139 can always be traced: the trace of the later symbols, with the first symbol's step before it. -/
theorem encodeTrace_exists (base n : Nat) {e : Nat → CdfEntry} (hfreq : ∀ i < n, 1 ≤ (e i).freq.toNat) :
    ∃ x k, EncodeTrace base n e x k := by
  induction n generalizing e with
  | zero => exact ⟨fun _ => base, fun _ => 0, rfl, by simp⟩
  | succ n ih =>
    obtain ⟨x, k, hlast, hstep⟩ := ih (e := fun i => e (i + 1)) fun i hi => hfreq (i + 1) (by omega)
    obtain ⟨l, -, hlt, hge⟩ := shiftOut_spec (hfreq 0 n.succ_pos) (shiftRounds (x 0)) (x 0) (lt_pow_shiftRounds (x 0))
    refine ⟨Stream'.cons (codeStep base (x 0 / 256 ^ l) (e 0)) x, Stream'.cons l k, hlast, fun i hi => ?_⟩
    cases i with
    | zero => exact ⟨rfl, hlt, hge⟩
    | succ i => exact hstep i (Nat.lt_of_succ_lt_succ hi)

section EncodeTrace

variable {base n : Nat} {t : List CdfEntry} {e : Nat → CdfEntry} {x k : Nat → Nat} {i : Nat}

/-- Every state of a trace lies in `[base, 256 base)` (R133, R140 a). -/
theorem encodeTrace_bounds (hpos : 0 < base) (ht : CdfListOk base t) (hmem : ∀ i < n, e i ∈ t)
    (htr : EncodeTrace base n e x k) (hi : i ≤ n) : base ≤ x i ∧ x i < 256 * base := by
  obtain ⟨hlast, hstep⟩ := htr
  induction hi using Nat.decreasingInduction with
  | self => omega
  | of_succ i hi ih =>
    obtain ⟨hx, hlt, hge⟩ := hstep i hi
    have hle := ht.le_base _ (hmem i hi)
    obtain ⟨hlow, hhigh, -⟩ := codeStep_spec (ht.freq_pos _ (hmem i hi)) hle (le_of_shifted (by omega) hge) hlt
    rw [hx]
    exact ⟨hlow, hhigh⟩

/-- A renormalisation from a state of at most `m + 1` bytes emits at most `m` (R140 b). -/
theorem encodeTrace_count_le {m : Nat} (htr : EncodeTrace base n e x k) (hi : i < n) (hfreq : 1 ≤ (e i).freq.toNat)
    (hx : x (i + 1) < 256 * 256 ^ m) : k i ≤ m := by
  obtain ⟨-, hstep⟩ := htr
  obtain ⟨-, -, hge⟩ := hstep i hi
  have hbyte : x (i + 1) / 256 ^ m < 256 := Nat.div_lt_of_lt_mul (by rwa [Nat.mul_comm] at hx)
  by_contra hlt
  have := hge m (by omega)
  omega

end EncodeTrace

theorem bytesBefore_le {k : Nat → Nat} {n m : Nat} (h : ∀ i < n, k i ≤ m) : bytesBefore k n ≤ n * m := by
  have hsum := List.sum_le_card_nsmul ((List.range n).map k) m (by simpa using h)
  simpa [bytesBefore] using hsum

/-- The first byte of the state word is not 0, because the state is at least `base` (R140 d). -/
theorem stateWord_first_ne_zero {c : Config} {x : Nat} (hlow : c.base ≤ x) (hhigh : x < 256 * c.base) :
    x / 256 ^ (c.fb - 1) % 256 ≠ 0 := by
  have hpow : 256 ^ (c.fb - 1) = c.base := by rw [c.fb_eq, c.base_eq]; rfl
  have hq : 1 ≤ x / c.base := (Nat.one_le_div_iff c.base_pos).2 hlow
  have hq' : x / c.base < 256 := Nat.div_lt_of_lt_mul (by rwa [Nat.mul_comm] at hhigh)
  rw [hpow, Nat.mod_eq_of_lt hq']
  omega

/-- Settles O25: the loop has a trace, whose states and byte counts are in bounds, and RENC writes its payload. -/
theorem rencCompletesWithinItsBounds : Obligations.RencCompletesWithinItsBounds := by
  intro s hinv h0 hcap htot hsym
  have hentry : ∀ i, i < s.n .slen → ∃ e : CdfEntry, ∃ j < s.n .clen, e = s.cdftAt j ∧ e.sym = s.symAt i := by
    intro i hi
    obtain ⟨j, hj, hs⟩ := hsym i hi
    exact ⟨s.cdftAt j, j, hj, rfl, hs⟩
  choose! e he using hentry
  have hok := cdfListOk_of_inv hinv
  have hmem : ∀ i < s.n .slen, e i ∈ s.cdfTable (s.n .clen) := by
    intro i hi
    obtain ⟨j, hj, hej, -⟩ := he i hi
    exact State.mem_cdfTable.2 ⟨j, hj, hej⟩
  have hfreq : ∀ i < s.n .slen, 1 ≤ (e i).freq.toNat := fun i hi => hok.freq_pos _ (hmem i hi)
  obtain ⟨x, k, htr⟩ := encodeTrace_exists s.cfg.base (s.n .slen) hfreq
  have hbounds : ∀ i ≤ s.n .slen, s.cfg.base ≤ x i ∧ x i < 256 * s.cfg.base :=
    fun i hi => encodeTrace_bounds s.cfg.base_pos hok hmem htr hi
  refine ⟨fun hroom => ?_, e, x, k, htr, he, hbounds⟩
  have hbytes : bytesBefore k (s.n .slen) ≤ s.n .slen * (s.cfg.p / 8) :=
    bytesBefore_le fun i hi => encodeTrace_count_le htr hi (hfreq i hi) (s.cfg.base_eq ▸ (hbounds (i + 1) hi).2)
  obtain ⟨t, hexec, hstatus, -, hplen, hnsym, hx, hword, -⟩ :=
    rencWritesTheTracedPayload s e x k hinv h0 hcap htot he htr (by omega)
  obtain ⟨hlow, hhigh⟩ := hbounds 0 (Nat.zero_le _)
  refine ⟨t, hexec, hstatus, hnsym, hx ▸ hlow, hx ▸ hhigh, by omega, by omega, fun hz => ?_⟩
  have hfirst := hword 0 s.cfg.fb_pos
  rw [hz] at hfirst
  exact stateWord_first_ne_zero hlow hhigh hfirst.symm

/-! ## The errors of RENC -/

theorem lookupSym_eq_none {s : State} {n : Nat} {b : Byte} (h : ∀ j < n, (s.cdftAt j).sym ≠ b) :
    lookupSym (s.cdfTable n) b = none := by
  simpa [lookupSym, State.cdfTable] using h

/-- A symbol of the buffer without an entry makes the loop raise (R137, R139). -/
theorem encodeSymbols_raise {base : Nat} (hpos : 0 < base) {t : List CdfEntry} (ht : CdfListOk base t) {bs : List Byte}
    {b : Byte} (hb : b ∈ bs) (hnone : lookupSym t b = none) : encodeSymbols base t bs = .raise .modelInvariant := by
  obtain ⟨hall, -⟩ | ⟨-, hraise⟩ := encodeSymbols_cases hpos ht bs
  · simpa [hnone] using hall b hb
  · exact hraise

/-- Settles O26: the checks of R139 one by one, then the loop, then the check of the payload's length. -/
theorem rencErrorsInOrder : Obligations.RencErrorsInOrder := by
  intro s hinv h0
  refine ⟨fun hcap => ?_, fun hcap htot => ?_, fun hcap htot hmiss => ?_, fun e x k hcap htot hsym htr hlong => ?_⟩
  · exact endsWith_of_raise (rencBody_of_tooLong (s := s.begin Instr.renc.opc) h0 hcap)
  · exact endsWith_of_raise (rencBody_of_total_ne (s := s.begin Instr.renc.opc) h0 hcap htot)
  · obtain ⟨i, hi, hnone⟩ := hmiss
    have hloop := encodeSymbols_raise s.cfg.base_pos (cdfListOk_of_inv hinv)
      (List.mem_map_of_mem (f := s.symAt) (List.mem_range.2 hi)) (lookupSym_eq_none hnone)
    have hbody := rencBody_of_checks (s := s.begin Instr.renc.opc) h0 hcap htot
    exact endsWith_of_raise (hbody.trans (congrArg (Result.andThen · _) hloop))
  · obtain ⟨-, em, hloop, hrev⟩ := encode_buffer_of_trace hinv hsym htr
    have hlen : em.length = bytesBefore k (s.n .slen) := by rw [← List.length_reverse, hrev, tracedBytes_length]
    rw [← hlen] at hlong
    have hbody := rencBody_of_checks (s := s.begin Instr.renc.opc) h0 hcap htot
    exact endsWith_of_raise (hbody.trans ((congrArg (Result.andThen · _) hloop).trans (if_pos hlong)))

/-! ## The errors of RDEC -/

/-- More symbols than SYM_CAP, or a payload longer than PAY_CAP (R141, R207). -/
theorem rdecBody_of_tooLong {s : State} (h0 : 1 ≤ s.n .nsym)
    (hcap : s.cfg.symCap.val < s.n .nsym ∨ s.cfg.payCap.val < s.n .plen) : rdecBody s = .raise .capacity := by
  rw [rdecBody, if_neg (by omega), if_pos hcap]

/-- A table made for another number of symbols (R141, R205). -/
theorem rdecBody_of_total_ne {s : State} (h0 : 1 ≤ s.n .nsym) (hsym : s.n .nsym ≤ s.cfg.symCap.val)
    (hpay : s.n .plen ≤ s.cfg.payCap.val) (htot : s.n .total ≠ s.n .nsym) : rdecBody s = .raise .modelInvariant := by
  rw [rdecBody, if_neg (by omega), if_neg (by omega), if_pos htot]

/-- No room for a state word (R141, R202). -/
theorem rdecBody_of_short {s : State} (h0 : 1 ≤ s.n .nsym) (hsym : s.n .nsym ≤ s.cfg.symCap.val)
    (hpay : s.n .plen ≤ s.cfg.payCap.val) (htot : s.n .total = s.n .nsym) (hfb : s.n .plen < s.cfg.fb) :
    rdecBody s = .raise .truncatedStream := by
  rw [rdecBody, if_neg (by omega), if_neg (by omega), if_neg (by omega), if_pos hfb]

/-- What the loop raises after the first `m` symbols of a trace, RDEC raises (R141). -/
theorem rdecBody_of_trace_raise {s : State} {e : Nat → CdfEntry} {x pos : Nat → Nat} {m r : Nat} {k : ErrKind}
    (hinv : CdfInv s) (h0 : 1 ≤ s.n .nsym) (hsym : s.n .nsym ≤ s.cfg.symCap.val) (hpay : s.n .plen ≤ s.cfg.payCap.val)
    (htot : s.n .total = s.n .nsym) (hfb : s.cfg.fb ≤ s.n .plen) (hmem : ∀ i < m, e i ∈ s.cdfTable (s.n .clen))
    (htr : DecodeTrace s.cfg.base s.cfg.fb (s.n .nsym) (s.n .plen) s.payAt e x pos m) (hn : m + r = s.n .nsym)
    (hraise : decodeSymbols s.cfg.base (s.cdfTable (s.n .clen)) r (x m) ((s.payload (s.n .plen)).drop (pos m)) = .raise k) :
    rdecBody s = .raise k := by
  have hloop := decodeSymbols_of_trace (cdfListOk_of_inv hinv) hmem htr hn m 0 (Nat.zero_add m)
  obtain ⟨hx0, hpos0, -⟩ := htr
  rw [hx0, hpos0, hn, hraise, Result.andThen_raise] at hloop
  rw [rdecBody_of_checks h0 hsym hpay htot hfb, hloop, Result.andThen_raise]

/-- A slot that no interval holds (R138, R203). -/
theorem decodeSymbols_of_no_slot {base : Nat} {t : List CdfEntry} {x : Nat} (h : lookupSlot t (x % base) = none) (n : Nat)
    (bs : List Byte) : decodeSymbols base t (n + 1) x bs = .raise .decodeMismatch := by
  rw [decodeSymbols, h]

/-- The payload runs out below `base` with symbols to come (R136, R143, R202). -/
theorem decodeSymbols_of_run_out {base : Nat} {t : List CdfEntry} {x n : Nat} {bs : List Byte} {e : CdfEntry}
    (hslot : lookupSlot t (x % base) = some e) (hn : n ≠ 0) (hlow : (shiftIn base (uncodeStep base x e) bs).1 < base) :
    decodeSymbols base t (n + 1) x bs = .raise .truncatedStream := by
  simp only [decodeSymbols, hslot, if_pos (And.intro hlow hn)]

/-- The read position of a trace never passes the payload's end. -/
theorem decodeTrace_pos_le_of_fb_le {base fb n plen k : Nat} {pay : Nat → Byte} {e : Nat → CdfEntry} {x pos : Nat → Nat}
    (htr : DecodeTrace base fb n plen pay e x pos k) (hfb : fb ≤ plen) : pos k ≤ plen := by
  obtain rfl | hk := Nat.eq_zero_or_pos k
  · obtain ⟨-, hpos0, -⟩ := htr
    omega
  · exact decodeTrace_pos_le htr hk

/-- Settles O28: the checks of R141 one by one, then the loop, which follows the trace up to the symbol it fails at. -/
theorem rdecErrorsInOrder : Obligations.RdecErrorsInOrder := by
  intro s hinv h0
  refine ⟨fun hcap => ?_, fun hsym hpay => ⟨fun htot => ?_, fun htot => ⟨fun hfb => ?_,
    fun m e x pos hfb hm htab htr => ?_⟩⟩⟩
  · exact endsWith_of_raise (rdecBody_of_tooLong (s := s.begin Instr.rdec.opc) h0 hcap)
  · exact endsWith_of_raise (rdecBody_of_total_ne (s := s.begin Instr.rdec.opc) h0 hsym hpay htot)
  · exact endsWith_of_raise (rdecBody_of_short (s := s.begin Instr.rdec.opc) h0 hsym hpay htot hfb)
  · have hentry : ∀ i ≤ m, i < m ∨ x m % s.cfg.base < s.n .total → e i ∈ s.cdfTable (s.n .clen) :=
      fun i hi hc => State.mem_cdfTable.2 (htab i hi hc)
    obtain ⟨r, hr⟩ := Nat.exists_eq_add_of_lt hm
    have hraise : ∀ {k}, decodeSymbols s.cfg.base (s.cdfTable (s.n .clen)) (r + 1) (x m)
        ((s.payload (s.n .plen)).drop (pos m)) = .raise k → EndsWith .rdec k s := fun h =>
      endsWith_of_raise (rdecBody_of_trace_raise (s := s.begin Instr.rdec.opc) hinv h0 hsym hpay htot hfb
        (fun i hi => hentry i hi.le (.inl hi)) htr hr.symm h)
    refine ⟨fun hslot => hraise ?_, fun hlow hhigh hslot hmore hshort => hraise ?_⟩
    · exact decodeSymbols_of_no_slot ((lookupSlot_eq_none_iff hinv _).2 hslot) r _
    · have hpos := decodeTrace_pos_le_of_fb_le htr hfb
      have hlook := lookupSlot_of_mem (cdfListOk_of_inv hinv) (hentry m le_rfl (.inr hslot)) hlow hhigh
      have hshift := shiftIn_payload (s := s) (base := s.cfg.base) (plen := s.n .plen) (s.n .plen - pos m)
        (y := uncodeStep s.cfg.base (x m) (e m)) (p := pos m) (by omega) (fun d hd => hshort d hd.le) (.inr (by omega))
      refine decodeSymbols_of_run_out hlook (by omega) ?_
      rw [hshift]
      exact hshort _ le_rfl

end Sys2Proof.Machine

namespace Sys2Proof.Machine

/-! # HTREE

The tree HTREE writes, read from HT (R161 to R163), and the tables it rejects (R205). -/

/-- A command that ended without error ended with no error kind (R212). -/
theorem not_endsWith_of_no_error {i : Instr} {k : ErrKind} {s t : State} (ht : exec i s = .next t)
    (he : t.status.err = false) : ¬ EndsWith i k s := by
  rintro ⟨t', ht', hstatus, -⟩
  obtain rfl : t = t' := Host.Outcome.next.inj (ht.symm.trans ht')
  rw [hstatus] at he
  cases he

/-- A valid table whose counts sum to less than `2^32` makes HTREE write the nodes of `buildTree` (R161). -/
theorem exec_htree_nodes {s : State} (hok : FtOk (s.n .ftlen) s.ftAt) (hsum : countBelow s.ftAt (s.n .ftlen) < 2 ^ 32) :
    ∃ t, exec .htree s = .next t ∧ t.status = okStatus .htree ∧ Frame [.nnode, .root] [.ht] s t ∧
      t.n .nnode = (buildTree (s.ftTable (s.n .ftlen))).1.length ∧
      t.n .root = rootOf (buildTree (s.ftTable (s.n .ftlen))).2 ∧
      ∀ i < t.n .nnode, t.htAt i = nodeAt (buildTree (s.ftTable (s.n .ftlen))).1 i := by
  set tab := s.ftTable (s.n .ftlen) with htab
  have hcount : countSum tab < 2 ^ 32 := by rwa [htab, countSum_ftTable]
  have hlen : tab.length ≤ 256 := by simpa [htab] using hok.1
  have hbody : bodyOf .htree (s.begin Instr.htree.opc) =
      .done ((((s.begin Instr.htree.opc).putHt (buildTree tab).1).setNat .nnode (buildTree tab).1.length).setNat .root
        (rootOf (buildTree tab).2)) := by
    change (validateFt s).andThen _ = _
    rw [validateFt_of_ok hok, Result.andThen_done, if_neg (Nat.not_le.2 hcount)]
  obtain ⟨hexec, hstatus, hframe⟩ := exec_done_spec hbody
  have hnodes := buildTree_length_le hlen hcount
  have hroot : rootOf (buildTree tab).2 < 2 ^ 32 := by
    obtain hnil | hne := eq_or_ne tab []
    · rw [hnil]; decide
    · have := (buildTree_spec (List.length_pos_iff.2 hne) hlen hcount).2.2
      omega
  obtain ⟨hn, hr⟩ := State.setNat_setNat_n ((s.begin Instr.htree.opc).putHt (buildTree tab).1) (r := .nnode) (q := .root)
    (by decide) (by decide) (by decide) (show (buildTree tab).1.length < 2 ^ 32 by omega) hroot
  refine ⟨_, hexec, hstatus, hframe, hn, hr, fun i hi => ?_⟩
  have hi' : i < (buildTree tab).1.length := hn ▸ hi
  rw [State.finish_htAt, State.setNat_htAt, State.setNat_htAt, State.putHt_htAt _ _ hi', nodeAt,
    List.getD_eq_getElem _ _ hi']

/-- Every other table makes HTREE end with ModelInvariantError (R161, R205). -/
theorem htree_endsWith_of_not_ok {s : State}
    (h : ¬ (FtOk (s.n .ftlen) s.ftAt ∧ countBelow s.ftAt (s.n .ftlen) < 2 ^ 32)) : EndsWith .htree .modelInvariant s := by
  refine endsWith_of_raise ?_
  change (validateFt s).andThen _ = _
  by_cases hok : FtOk (s.n .ftlen) s.ftAt
  · rw [validateFt_of_ok hok, Result.andThen_done, if_pos]
    rw [countSum_ftTable]
    exact Nat.le_of_not_lt fun hlt => h ⟨hok, hlt⟩
  · rw [validateFt_of_not_ok hok, Result.andThen_raise]

/-- HTREE ends without error on a valid table with counts below `2^32` only (R161, R205). -/
theorem htree_ok_of_no_error {s t : State} (ht : exec .htree s = .next t) (he : t.status.err = false) :
    FtOk (s.n .ftlen) s.ftAt ∧ countBelow s.ftAt (s.n .ftlen) < 2 ^ 32 := by
  by_contra h
  exact not_endsWith_of_no_error ht he (htree_endsWith_of_not_ok h)

/-- Settles O32: an empty table is valid and `buildTree` makes no node of it; the other tables fail one of R161's checks. -/
theorem htreeEmptyAndRejected : Obligations.HtreeEmptyAndRejected := by
  refine fun s => ⟨fun h0 => ?_, htree_endsWith_of_not_ok⟩
  obtain ⟨t, hexec, hstatus, hframe, hnnode, hroot, -⟩ := exec_htree_nodes (s := s) (by simp [h0, FtOk])
    (by simp [h0, countBelow])
  rw [h0] at hnnode hroot
  exact ⟨t, hexec, hstatus, BitVec.eq_of_toNat_eq hnnode, BitVec.eq_of_toNat_eq hroot, hframe⟩

/-! ## The greedy choice (R162) -/

/-- The children of node `m` are the two nodes of the queue before `m` that come first, the first of them on the
left (R161, R162). -/
def GreedyAt (n : Nat) (ht : Nat → HtNode) (m : Nat) : Prop :=
  InQueue n ht (ht m).left.toNat m ∧ InQueue n ht (ht m).right.toNat m ∧
    (∀ i, InQueue n ht i m → i ≠ (ht m).left.toNat → Before ht (ht m).left.toNat i) ∧
    ∀ i, InQueue n ht i m → i ≠ (ht m).left.toNat → i ≠ (ht m).right.toNat → Before ht (ht m).right.toNat i

/-- The choice at node `m` reads the nodes up to `m` only. -/
theorem GreedyAt.congr {n m : Nat} {ht ht' : Nat → HtNode} (h : GreedyAt n ht m) (hc : ∀ p ≤ m, ht' p = ht p) :
    GreedyAt n ht' m := by
  obtain ⟨hl, hr, hleft, hright⟩ := h
  have hq : ∀ i, InQueue n ht' i m ↔ InQueue n ht i m := inQueue_congr fun p hp => hc p hp.le
  have hb : ∀ i j, i < m → j < m → Before ht i j → Before ht' i j := fun i j hi hj hij => by
    rwa [Before, hc i hi.le, hc j hj.le]
  rw [GreedyAt, hc m le_rfl]
  refine ⟨(hq _).2 hl, (hq _).2 hr, fun i hi hne => ?_, fun i hi hne hne' => ?_⟩
  · have hi := (hq i).1 hi
    exact hb _ _ hl.1 hi.1 (hleft i hi hne)
  · have hi := (hq i).1 hi
    exact hb _ _ hr.1 hi.1 (hright i hi hne hne')

/-- The last node weighs the sum of the counts: it is the one element left in the queue (R163). -/
theorem buildTree_root_weight {t : List FtEntry} (hpos : 0 < t.length) (hlen : t.length ≤ 256)
    (hsum : countSum t < 2 ^ 32) : (nodeAt (buildTree t).1 (2 * t.length - 2)).weight.toNat = countSum t := by
  obtain ⟨h, hnodes, hroot⟩ := buildTree_spec hpos hlen hsum
  obtain ⟨e, he⟩ := List.length_eq_one_iff.1 (show (buildTree t).2.length = 1 by have := h.len; omega)
  rw [he] at hroot
  have hweight := h.qweight e (by simp [he])
  have hqsum := h.qsum
  rw [he, List.map_singleton, List.sum_singleton] at hqsum
  rw [← hroot, ← hqsum, hweight, rootOf]

/-- Settles O31: HT holds the nodes of `buildTree`, whose laws are `TreeBuild`; a walk from the last node of a tree
takes at most `n - 1` edges. -/
theorem htreeBuildsTheGreedyTree : Obligations.HtreeBuildsTheGreedyTree := by
  rintro s n rfl hpos hok hsum
  obtain ⟨t, hexec, hstatus, hframe, hnnode, hroot, hnode⟩ := exec_htree_nodes hok hsum
  set tab := s.ftTable (s.n .ftlen) with htab
  have hlen : tab.length = s.n .ftlen := s.ftTable_length _
  have hcount : countSum tab = countBelow s.ftAt (s.n .ftlen) := countSum_ftTable s _
  have hpos' : 0 < tab.length := by omega
  have h256 : tab.length ≤ 256 := hlen ▸ hok.1
  have hnodup : (tab.map (·.sym)).Nodup := ((ftValid_iff _).1 ((ftOk_iff s).1 hok).2).2
  obtain ⟨hbuild, hnodes, hlast⟩ := buildTree_spec hpos' h256 (hcount ▸ hsum)
  rw [hnodes, hlen] at hnnode
  rw [hlast, hlen] at hroot
  have hat : ∀ i < 2 * s.n .ftlen - 1, t.htAt i = nodeAt (buildTree tab).1 i := fun i hi => hnode i (hnnode ▸ hi)
  have htree : HuffmanTree (s.n .ftlen) t.htAt :=
    (hlen ▸ huffmanTree_of_build hpos' h256 (hcount ▸ hsum) hnodup).congr hat hpos
  refine ⟨t, hexec, hstatus, hframe, hnnode, hroot, fun j hj => ?_, htree, ?_, fun m hm hnm => ⟨?_, ?_⟩,
    fun p r hw => ?_⟩
  · rw [hat j (by omega), hbuild.leaf j (hlen ▸ hj), leafNode, State.ftTable_getElem]
  · rw [hat _ (by omega), ← hcount, ← buildTree_root_weight hpos' h256 (hcount ▸ hsum), hlen]
  · rw [hat m hm]
    exact buildTree_sym tab m (by omega) (hlen ▸ hnm)
  · have hgreedy : GreedyAt (s.n .ftlen) (nodeAt (buildTree tab).1) m := hlen ▸ hbuild.greedy m (by omega) (hlen ▸ hnm)
    exact hgreedy.congr fun p hp => hat p (hp.trans_lt hm)
  · have := (htree.walk_le (by omega) hw).2
    omega

end Sys2Proof.Machine

namespace Sys2Proof.Machine

/-! # HCODE

What HCODE's traversal records in any node memory (R164), what that comes to in a Huffman tree (R163), and the code
table it makes (R165, R166). -/

/-! ## The traversal -/

/-- Induction along HCODE's traversal (R164): what holds of a Leaf's single record, and of the records of a node
when it holds of those of its two children, holds of all it records. -/
theorem visit_induction {node : Nat → HtNode} {P : Nat → List Bool → List (Byte × List Bool) → Prop}
    (leaf : ∀ fuel b path, P fuel path [(b, path)])
    (internal : ∀ fuel path l r, P fuel (path ++ [false]) l → P fuel (path ++ [true]) r → P (fuel + 1) path (l ++ r)) :
    ∀ {fuel q path cs}, visit node fuel q path = some cs → P fuel path cs := by
  intro fuel
  induction fuel with
  | zero =>
    intro q path cs h
    rw [visit] at h
    split at h <;> cases h
    exact leaf _ _ _
  | succ fuel ih =>
    intro q path cs h
    rw [visit] at h
    split at h
    · cases h
      exact leaf _ _ _
    · split at h <;> cases h
      next hl hr => exact internal _ _ _ _ (ih hl) (ih hr)

/-- Neither of two bit strings is a beginning of the other. -/
def Apart (p q : List Bool) : Prop := ¬ p <+: q ∧ ¬ q <+: p

theorem Apart.symm {p q : List Bool} (h : Apart p q) : Apart q p := ⟨h.2, h.1⟩

/-- Paths that part at a node stay apart. -/
theorem apart_of_branch {path p q : List Bool} {b c : Bool} (hbc : b ≠ c) (hp : path ++ [b] <+: p)
    (hq : path ++ [c] <+: q) : Apart p q := by
  have key : ∀ {r : List Bool}, path ++ [b] <+: r → path ++ [c] <+: r → False := fun hb hc => by
    have heq := (List.prefix_of_prefix_length_le hb hc (by simp)).eq_of_length (by simp)
    exact hbc (by simpa using heq)
  exact ⟨fun h => key (hp.trans h) hq, fun h => key hp (hq.trans h)⟩

/-- All paths recorded below a node begin with the path to it, and any two of them are apart (R166 c). -/
theorem visit_apart {node : Nat → HtNode} {fuel q : Nat} {path : List Bool} {cs : List (Byte × List Bool)}
    (h : visit node fuel q path = some cs) :
    (∀ c ∈ cs, path <+: c.2) ∧ cs.Pairwise fun c d => Apart c.2 d.2 := by
  refine visit_induction (P := fun _ path cs => (∀ c ∈ cs, path <+: c.2) ∧ cs.Pairwise fun c d => Apart c.2 d.2)
    ?leaf ?internal h
  case leaf => simp
  case internal =>
    rintro - path l r ⟨hl, hlp⟩ ⟨hr, hrp⟩
    refine ⟨fun c hc => ?_, List.pairwise_append.2 ⟨hlp, hrp, fun c hc d hd => ?_⟩⟩
    · obtain hc | hc := List.mem_append.1 hc
      · exact (List.prefix_append _ _).trans (hl c hc)
      · exact (List.prefix_append _ _).trans (hr c hc)
    · exact apart_of_branch Bool.false_ne_true (hl c hc) (hr d hd)

/-- The paths recorded below a node fill its share of the code space (R166 d), measured in units of `2^(-K)`. -/
theorem visit_kraft {node : Nat → HtNode} {fuel q K : Nat} {path : List Bool} {cs : List (Byte × List Bool)}
    (h : visit node fuel q path = some cs) (hK : path.length + fuel ≤ K) :
    (cs.map fun c => 2 ^ (K - c.2.length)).sum = 2 ^ (K - path.length) := by
  refine visit_induction (P := fun fuel path cs => path.length + fuel ≤ K →
    (cs.map fun c => 2 ^ (K - c.2.length)).sum = 2 ^ (K - path.length)) ?leaf ?internal h hK
  case leaf => simp
  case internal =>
    intro fuel path l r hl hr hK
    simp only [List.length_append, List.length_singleton] at hl hr
    rw [List.map_append, List.sum_append, hl (by omega), hr (by omega), ← Nat.two_mul, ← Nat.pow_succ']
    congr 1
    omega

/-- A bit sequence that begins with the path to a node begins with a path recorded below it (R166 d). -/
theorem visit_complete {node : Nat → HtNode} {fuel q : Nat} {path : List Bool} {cs : List (Byte × List Bool)}
    (h : visit node fuel q path = some cs) (f : Nat → Bool) (hf : path = (List.range path.length).map f) :
    ∃ c ∈ cs, c.2 = (List.range c.2.length).map f := by
  refine visit_induction (P := fun _ path cs => path = (List.range path.length).map f →
    ∃ c ∈ cs, c.2 = (List.range c.2.length).map f) ?leaf ?internal h hf
  case leaf => exact fun _ b path hf => ⟨(b, path), List.mem_singleton_self _, hf⟩
  case internal =>
    intro _ path l r hl hr hf
    have hnext : ∀ b, f path.length = b → path ++ [b] = (List.range (path ++ [b]).length).map f := by
      rintro b rfl
      rw [List.length_append, List.length_singleton, List.range_succ, List.map_append, ← hf, List.map_singleton]
    cases hb : f path.length with
    | false =>
      obtain ⟨c, hc, hcf⟩ := hl (hnext _ hb)
      exact ⟨c, List.mem_append_left _ hc, hcf⟩
    | true =>
      obtain ⟨c, hc, hcf⟩ := hr (hnext _ hb)
      exact ⟨c, List.mem_append_right _ hc, hcf⟩

/-! ## What HCODE records in a Huffman tree -/

/-- The codewords HCODE records for a tree of `n` Leaves: the code "0" for a single Leaf (R165), else those of the
traversal from the root (R164). -/
def Records (n : Nat) (ht : Nat → HtNode) (cs : List (Byte × List Bool)) : Prop :=
  (n = 1 ∧ cs = [((ht 0).sym, [false])]) ∨ (2 ≤ n ∧ visit ht 255 (2 * n - 2) [] = some cs)

/-- `p` is the codeword of Leaf `q`: the path that leads to it, or "0" for a single Leaf (R164, R165). -/
def LeafCode (n : Nat) (ht : Nat → HtNode) (q : Nat) (p : List Bool) : Prop :=
  if n = 1 then p = [false] else walk ht (2 * n - 2) p = some q

section Records

variable {n : Nat} {ht : Nat → HtNode} {cs : List (Byte × List Bool)} (h : HuffmanTree n ht)
include h

theorem HuffmanTree.leaf_iff {q : Nat} (hq : q < 2 * n - 1) : (ht q).tag = .leaf ↔ q < n := by
  refine ⟨fun hl => Nat.lt_of_not_le fun hn => ?_, h.1 q⟩
  have hi := (h.2.1 q hq hn).1
  rw [hl] at hi
  cases hi

theorem HuffmanTree.sym_injective {q r : Nat} (hq : q < n) (hr : r < n) (hs : (ht q).sym = (ht r).sym) : q = r := by
  obtain hlt | rfl | hlt := Nat.lt_trichotomy q r
  · exact absurd hs (h.2.2.2 r hr q hlt)
  · rfl
  · exact absurd hs.symm (h.2.2.2 q hq r hlt)

theorem HuffmanTree.records_exist (h1 : 1 ≤ n) (h256 : n ≤ 256) : ∃ cs, Records n ht cs := by
  obtain rfl | h2 : n = 1 ∨ 2 ≤ n := by omega
  · exact ⟨_, .inl ⟨rfl, rfl⟩⟩
  · obtain ⟨cs, hcs, -⟩ := h.visit_spec 255 (2 * n - 2) [] (by omega) (by omega)
    exact ⟨cs, .inr ⟨h2, hcs⟩⟩

theorem Records.mem_iff (hr : Records n ht cs) (h256 : n ≤ 256) (b : Byte) (p : List Bool) :
    (b, p) ∈ cs ↔ ∃ q < n, (ht q).sym = b ∧ LeafCode n ht q p := by
  obtain ⟨rfl, rfl⟩ | ⟨h2, hv⟩ := hr
  · simp [LeafCode, eq_comm]
  · obtain ⟨cs', hcs', hmem⟩ := h.visit_spec 255 (2 * n - 2) [] (by omega) (by omega)
    obtain rfl : cs = cs' := Option.some.inj (hv.symm.trans hcs')
    rw [hmem]
    constructor
    · rintro ⟨p', q, hw, hq, rfl, rfl⟩
      have hle := (h.walk_le (by omega) hw).1
      exact ⟨q, (h.leaf_iff (by omega)).1 hq, rfl, (if_neg (by omega)).mpr hw⟩
    · rintro ⟨q, hq, rfl, hw⟩
      exact ⟨p, q, (if_neg (by omega)).mp hw, h.1 q hq, rfl, rfl⟩

theorem Records.code_unique (hr : Records n ht cs) (h256 : n ≤ 256) {b : Byte} {p p' : List Bool} (hp : (b, p) ∈ cs)
    (hp' : (b, p') ∈ cs) : p = p' := by
  obtain ⟨q, hq, hb, hc⟩ := (hr.mem_iff h h256 b p).1 hp
  obtain ⟨q', hq', hb', hc'⟩ := (hr.mem_iff h h256 b p').1 hp'
  obtain rfl := h.sym_injective hq hq' (hb.trans hb'.symm)
  unfold LeafCode at hc hc'
  split at hc
  · rw [hc, (if_pos ‹_›).mp hc']
  · exact h.walk_unique (by omega) p p' q hc ((if_neg ‹_›).mp hc')

/-- A codeword has 1 to 255 bits: with two Leaves or more the root is no Leaf, and no Leaf is deeper than
`n - 1` (R163 e, R166 b). -/
theorem Records.length_range (hr : Records n ht cs) (h256 : n ≤ 256) {c : Byte × List Bool} (hc : c ∈ cs) :
    1 ≤ c.2.length ∧ c.2.length ≤ 255 := by
  obtain ⟨q, hq, -, hcode⟩ := (hr.mem_iff h h256 c.1 c.2).1 hc
  unfold LeafCode at hcode
  split at hcode
  · rw [hcode]; decide
  · have hle := (h.walk_le (by omega) hcode).2
    refine ⟨List.length_pos_iff.2 fun hnil => ?_, by omega⟩
    rw [hnil, walk, Option.some.injEq] at hcode
    omega

/-- Every Leaf has a codeword (R166 a). -/
theorem Records.exists_code (hr : Records n ht cs) (h256 : n ≤ 256) {q : Nat} (hq : q < n) :
    ∃ p, ((ht q).sym, p) ∈ cs ∧ LeafCode n ht q p := by
  suffices h' : ∃ p, LeafCode n ht q p by
    obtain ⟨p, hp⟩ := h'
    exact ⟨p, (hr.mem_iff h h256 _ p).2 ⟨q, hq, rfl, hp⟩, hp⟩
  by_cases h1 : n = 1
  · exact ⟨[false], (if_pos h1).mpr rfl⟩
  · obtain ⟨p, hp⟩ := h.reach (by omega) (2 * n - 2 - q) q (by omega)
    exact ⟨p, (if_neg h1).mpr hp⟩

omit h

theorem Records.pairwise_apart (hr : Records n ht cs) : cs.Pairwise fun c d => Apart c.2 d.2 := by
  obtain ⟨-, rfl⟩ | ⟨-, hv⟩ := hr
  · exact List.pairwise_singleton _ _
  · exact (visit_apart hv).2

/-- The sum of `2^(-len)`, multiplied by `2^255` (R166 d). -/
theorem Records.kraft (hr : Records n ht cs) :
    (cs.map fun c => 2 ^ (255 - c.2.length)).sum = if n = 1 then 2 ^ 254 else 2 ^ 255 := by
  obtain ⟨h1, rfl⟩ | ⟨h2, hv⟩ := hr
  · rw [if_pos h1, List.map_singleton, List.sum_singleton, List.length_singleton]
  · rw [if_neg (by omega), visit_kraft hv (by simp), List.length_nil]

theorem Records.complete (hr : Records n ht cs) (h2 : 2 ≤ n) (f : Nat → Bool) :
    ∃ c ∈ cs, c.2 = (List.range c.2.length).map f := by
  obtain ⟨h1, -⟩ | ⟨-, hv⟩ := hr
  · omega
  · exact visit_complete hv f rfl

include h

/-- No symbol is recorded twice. -/
theorem Records.nodup_syms (hr : Records n ht cs) (h256 : n ≤ 256) : (cs.map (·.1)).Nodup := by
  refine List.pairwise_map.2 (hr.pairwise_apart.imp_of_mem fun {c d} hc hd hcd heq => hcd.1 ?_)
  rw [hr.code_unique h h256 (b := c.1) hc (by rw [heq]; exact hd)]

/-- The recorded symbols are those of the Leaves (R166 a). -/
theorem Records.syms_perm (hr : Records n ht cs) (h256 : n ≤ 256) :
    (cs.map (·.1)).Perm ((List.range n).map fun q => (ht q).sym) := by
  have hleaves : ((List.range n).map fun q => (ht q).sym).Nodup :=
    List.pairwise_map.2 (List.pairwise_lt_range.imp_of_mem fun _ hk hjk => h.2.2.2 _ (List.mem_range.1 hk) _ hjk)
  refine (List.perm_ext_iff_of_nodup (hr.nodup_syms h h256) hleaves).2 fun b => ?_
  simp only [List.mem_map, List.mem_range]
  constructor
  · rintro ⟨c, hc, rfl⟩
    obtain ⟨q, hq, hb, -⟩ := (hr.mem_iff h h256 c.1 c.2).1 hc
    exact ⟨q, hq, hb⟩
  · rintro ⟨q, hq, rfl⟩
    obtain ⟨p, hp, -⟩ := hr.exists_code h h256 hq
    exact ⟨_, hp, rfl⟩

end Records

/-! ## The code table (R164) -/

/-- `ct` holds the codewords `cs` and no others (R86, R164). -/
structure HoldsCodes (ct : Byte → CtEntry) (cs : List (Byte × List Bool)) : Prop where
  listed : ∀ b p, (b, p) ∈ cs → ct b = ctOfPath p
  absent : ∀ b, (∀ p, (b, p) ∉ cs) → ct b = ctAbsent

theorem putCt_ctOf (s : State) (cs : List (Byte × List Bool)) (b : Byte) :
    (s.putCt (codeTable cs)).ctOf b = (codeTable cs)[b.toNat]'(by rw [codeTable_length]; exact b.isLt) :=
  s.putCt_ctAt _ _

/-- CT after HCODE wrote the table of `cs`, when `cs` gives no symbol two codewords. -/
theorem holdsCodes_putCt (s : State) {cs : List (Byte × List Bool)}
    (hu : ∀ b p p', (b, p) ∈ cs → (b, p') ∈ cs → p = p') : HoldsCodes (s.putCt (codeTable cs)).ctOf cs where
  listed b p hp := (putCt_ctOf s cs b).trans (codeTable_of_mem hp fun p' hp' => hu b p' p hp' hp)
  absent b hb := (putCt_ctOf s cs b).trans (codeTable_of_not_mem hb)

/-- HCODE on a tree writes the codewords it records into CT (R164, R165). -/
theorem exec_hcode_records {s : State} {n : Nat} (h1 : 1 ≤ n) (h256 : n ≤ 256) (hnnode : s.n .nnode = 2 * n - 1)
    (hroot : s.n .root = 2 * n - 2) (htree : HuffmanTree n s.htAt) :
    ∃ t cs, exec .hcode s = .next t ∧ t.status = okStatus .hcode ∧ Frame [] [.ct] s t ∧ Records n s.htAt cs ∧
      HoldsCodes t.ctOf cs := by
  obtain ⟨cs, hr⟩ := htree.records_exist h1 h256
  have hbody : bodyOf .hcode (s.begin Instr.hcode.opc) = .done ((s.begin Instr.hcode.opc).putCt (codeTable cs)) := by
    change hcodeBody _ = _
    rw [hcodeBody, if_neg (by simp only [State.begin_n]; omega)]
    simp only [State.begin_n, State.begin_htAt, hroot]
    obtain ⟨rfl, rfl⟩ | ⟨h2, hv⟩ := hr
    · simp [htree.1 0 Nat.one_pos]
    · simp [(htree.2.1 (2 * n - 2) (by omega) (by omega)).1, hv]
  obtain ⟨hexec, hstatus, hframe⟩ := exec_done_spec hbody
  exact ⟨_, cs, hexec, hstatus, hframe, hr,
    holdsCodes_putCt _ fun b p p' => hr.code_unique htree h256⟩

/-- HCODE with no tree leaves no symbol a codeword (R164). -/
theorem exec_hcode_empty {s : State} (h0 : s.n .nnode = 0) :
    ∃ t, exec .hcode s = .next t ∧ t.status = okStatus .hcode ∧ Frame [] [.ct] s t ∧ HoldsCodes t.ctOf [] := by
  have hbody : bodyOf .hcode (s.begin Instr.hcode.opc) = .done ((s.begin Instr.hcode.opc).putCt (codeTable [])) :=
    if_pos h0
  obtain ⟨hexec, hstatus, hframe⟩ := exec_done_spec hbody
  exact ⟨_, hexec, hstatus, hframe, holdsCodes_putCt _ (by simp)⟩

/-- The code bits past the length are 0 (R86). -/
theorem HoldsCodes.bit_past_len {ct : Byte → CtEntry} {cs : List (Byte × List Bool)} (h : HoldsCodes ct cs)
    (hlen : ∀ c ∈ cs, c.2.length ≤ 255) {b : Byte} {j : Nat} (hj : (ct b).len.toNat ≤ j) (hj' : j < 255) :
    (ct b).code.getLsbD (254 - j) = false := by
  by_cases hb : ∃ p, (b, p) ∈ cs
  · obtain ⟨p, hp⟩ := hb
    have hp255 := hlen _ hp
    rw [h.listed b p hp, ctOfPath_len hp255] at hj
    rw [h.listed b p hp, ctOfPath_bit hp255 hj', List.getD_eq_default _ _ hj]
  · rw [h.absent b (not_exists.1 hb)]
    exact BitVec.getLsbD_zero

/-- Settles O33: CT holds what HCODE records, and records are Leaves with the paths that lead to them. -/
theorem hcodeAssignsThePaths : Obligations.HcodeAssignsThePaths := by
  refine ⟨fun s n h1 h256 hnnode hroot htree => ?_, fun s h0 => ?_⟩
  · obtain ⟨t, cs, hexec, hstatus, hframe, hr, hct⟩ := exec_hcode_records h1 h256 hnnode hroot htree
    have hlen : ∀ c ∈ cs, c.2.length ≤ 255 := fun c hc => (hr.length_range htree h256 hc).2
    have hcode : ∀ q < n, ∀ p, LeafCode n s.htAt q p → codeword (t.ctOf (s.htAt q).sym) = p := fun q hq p hp => by
      have hmem := (hr.mem_iff htree h256 _ p).2 ⟨q, hq, rfl, hp⟩
      rw [hct.listed _ p hmem, codeword_ctOfPath (hlen _ hmem)]
    refine ⟨t, hexec, hstatus, hframe, fun hn => hcode 0 h1 _ ((if_pos hn).mpr rfl), fun hn p q hw hq => ?_,
      fun b hb => hct.absent b fun p hp => ?_, fun b j => hct.bit_past_len hlen⟩
    · have hle := (htree.walk_le (by omega) hw).1
      exact hcode q ((htree.leaf_iff (by omega)).1 hq) p ((if_neg (by omega)).mpr hw)
    · obtain ⟨q, hq, hsym, -⟩ := (hr.mem_iff htree h256 b p).1 hp
      exact hb q hq hsym
  · obtain ⟨t, hexec, hstatus, hframe, hct⟩ := exec_hcode_empty h0
    exact ⟨t, hexec, hstatus, hframe, fun b => hct.absent b (by simp)⟩

end Sys2Proof.Machine

namespace Sys2Proof.Machine

/-! # The laws of HCODE's code (R166) -/

/-- The Leaves of a non-empty tree HTREE left are the entries of the table, in order (R163 a). -/
theorem htree_leaf_syms {s t : State} {n : Nat} (ht : exec .htree s = .next t) (he : t.status.err = false) (h1 : 1 ≤ n)
    (hn : t.n .nnode = 2 * n - 1) : s.n .ftlen = n ∧ ∀ j < n, (t.htAt j).sym = (s.ftAt j).sym := by
  obtain ⟨hok, hsum⟩ := htree_ok_of_no_error ht he
  obtain h0 | hpos := Nat.eq_zero_or_pos (s.n .ftlen)
  · obtain ⟨t', ht', -, hnnode, -⟩ := (htreeEmptyAndRejected s).1 h0
    obtain rfl : t = t' := Host.Outcome.next.inj (ht.symm.trans ht')
    have := State.n_eq_zero hnnode
    omega
  · obtain ⟨t', ht', -, -, hnnode, -, hleaf, -⟩ := htreeBuildsTheGreedyTree s _ rfl hpos hok hsum
    obtain rfl : t = t' := Host.Outcome.next.inj (ht.symm.trans ht')
    exact ⟨by omega, fun j hj => by rw [hleaf j (by omega)]⟩

/-- The shorter of two beginnings of a bit sequence is a beginning of the longer. -/
theorem beginning_prefix (f : Nat → Bool) {j k : Nat} (h : j ≤ k) : (List.range j).map f <+: (List.range k).map f := by
  obtain ⟨d, rfl⟩ := Nat.exists_eq_add_of_le h
  rw [List.range_add, List.map_append]
  exact List.prefix_append _ _

/-- On a `PrefixFree` table a bit sequence begins with at most one codeword. -/
theorem PrefixFree.beginning_unique {ct : Byte → CtEntry} (h : PrefixFree ct) {f : Nat → Bool} {a b : Byte}
    (ha : (ct a).len ≠ 0) (hb : (ct b).len ≠ 0) (hfa : codeword (ct a) = (List.range (ct a).len.toNat).map f)
    (hfb : codeword (ct b) = (List.range (ct b).len.toNat).map f) : a = b := by
  by_contra hne
  obtain hle | hle := Nat.le_total (ct a).len.toNat (ct b).len.toNat
  · exact h a b hne ha hb (by rw [hfa, hfb]; exact beginning_prefix f hle)
  · exact h b a (Ne.symm hne) hb ha (by rw [hfa, hfb]; exact beginning_prefix f hle)

section HoldsCodes

variable {ct : Byte → CtEntry} {cs : List (Byte × List Bool)} (hct : HoldsCodes ct cs)
  (hlen : ∀ c ∈ cs, 1 ≤ c.2.length ∧ c.2.length ≤ 255)
include hct hlen

theorem HoldsCodes.codeword_eq {b : Byte} {p : List Bool} (hp : (b, p) ∈ cs) : codeword (ct b) = p := by
  rw [hct.listed b p hp, codeword_ctOfPath (hlen _ hp).2]

theorem HoldsCodes.len_eq {b : Byte} {p : List Bool} (hp : (b, p) ∈ cs) : (ct b).len.toNat = p.length := by
  rw [← codeword_length, hct.codeword_eq hlen hp]

/-- Only the listed symbols have codewords. -/
theorem HoldsCodes.len_ne_zero_iff {b : Byte} : (ct b).len ≠ 0 ↔ ∃ p, (b, p) ∈ cs := by
  constructor
  · intro h
    by_contra hb
    rw [hct.absent b (not_exists.1 hb)] at h
    exact h rfl
  · rintro ⟨p, hp⟩ hz
    have hl := hct.len_eq hlen hp
    rw [hz] at hl
    have hpos : 1 ≤ p.length := (hlen _ hp).1
    exact absurd hl (by simp; omega)

/-- Codewords that are apart make a `PrefixFree` table (R166 c). -/
theorem HoldsCodes.prefixFree (hapart : cs.Pairwise fun c d => Apart c.2 d.2) : PrefixFree ct := by
  intro a b hne ha hb hprefix
  obtain ⟨p, hp⟩ := (hct.len_ne_zero_iff hlen).1 ha
  obtain ⟨q, hq⟩ := (hct.len_ne_zero_iff hlen).1 hb
  rw [hct.codeword_eq hlen hp, hct.codeword_eq hlen hq] at hprefix
  have hsymm : Std.Symm fun c d : Byte × List Bool => Apart c.2 d.2 := ⟨fun _ _ h => h.symm⟩
  exact (hapart.forall hp hq fun h => hne (congrArg Prod.fst h)).1 hprefix

end HoldsCodes

/-- Settles O34: the records are one for each Leaf, pairwise apart, and fill the code space. -/
theorem hcodeCodeIsPrefixFreeAndComplete : Obligations.HcodeCodeIsPrefixFreeAndComplete := by
  intro s t n h1 h256 hnnode hroot htree ht
  obtain ⟨t', cs, ht', -, -, hr, hct⟩ := exec_hcode_records h1 h256 hnnode hroot htree
  obtain rfl : t = t' := Host.Outcome.next.inj (ht.symm.trans ht')
  have hlen : ∀ c ∈ cs, 1 ≤ c.2.length ∧ c.2.length ≤ 255 := fun c => hr.length_range htree h256
  have hfree := hct.prefixFree hlen hr.pairwise_apart
  have hleaf : ∀ b, (t.ctOf b).len ≠ 0 ↔ ∃ q < n, (s.htAt q).sym = b := fun b => by
    rw [hct.len_ne_zero_iff hlen]
    constructor
    · rintro ⟨p, hp⟩
      obtain ⟨q, hq, hb, -⟩ := (hr.mem_iff htree h256 b p).1 hp
      exact ⟨q, hq, hb⟩
    · rintro ⟨q, hq, rfl⟩
      obtain ⟨p, hp, -⟩ := hr.exists_code htree h256 hq
      exact ⟨p, hp⟩
  refine ⟨hleaf, fun s0 hs0 he b => ?_, fun b hb => ?_, fun p q hw hq => ?_, hfree, ?_, fun h2 f => ?_⟩
  · obtain ⟨hftlen, hsym⟩ := htree_leaf_syms hs0 he h1 hnnode
    rw [hleaf, hftlen]
    exact exists_congr fun j => and_congr_right fun hj => by rw [hsym j hj]
  · obtain ⟨p, hp⟩ := (hct.len_ne_zero_iff hlen).1 hb
    rw [hct.len_eq hlen hp]
    exact hlen _ hp
  · have hqn : q < n := (htree.leaf_iff (by have := (htree.walk_le (by omega) hw).1; omega)).1 hq
    obtain ⟨p', hp', hcode⟩ := hr.exists_code htree h256 hqn
    rw [hct.len_eq hlen hp']
    unfold LeafCode at hcode
    split at hcode
    · rw [hcode, if_pos ‹_›, List.length_singleton]
    · rw [htree.walk_unique h1 p p' q hw hcode, if_neg ‹_›]
  · have hcodes : (cs.map fun c => 2 ^ (255 - c.2.length)) =
        (cs.map (·.1)).map fun b => 2 ^ (255 - (t.ctOf b).len.toNat) := by
      rw [List.map_map]
      exact List.map_congr_left fun c hc => by rw [Function.comp_apply, hct.len_eq hlen (b := c.1) hc]
    rw [← hr.kraft, hcodes, ((hr.syms_perm htree h256).map _).sum_eq, List.map_map]
    rfl
  · obtain ⟨⟨b, p⟩, hp, hpf⟩ := hr.complete h2 f
    have hb := (hct.len_ne_zero_iff hlen).2 ⟨p, hp⟩
    have hbf : codeword (t.ctOf b) = (List.range (t.ctOf b).len.toNat).map f := by
      rwa [hct.codeword_eq hlen hp, hct.len_eq hlen hp]
    exact ⟨b, ⟨hb, hbf⟩, fun b' hb' hbf' => hfree.beginning_unique hb' hb hbf' hbf⟩

end Sys2Proof.Machine

namespace Sys2Proof.Machine

/-! # HENC

The bit stream and the payload HENC writes (R167, R191), and its errors (R210). -/

/-! ## The buffer as a list -/

theorem State.symbols_succ (s : State) (i : Nat) : s.symbols (i + 1) = s.symbols i ++ [s.symAt i] := by
  rw [State.symbols, List.range_succ, List.map_append, List.map_singleton, State.symbols]

theorem State.symbols_split (s : State) {i n : Nat} (h : i < n) :
    ∃ rest, s.symbols n = s.symbols i ++ s.symAt i :: rest := by
  obtain ⟨d, rfl⟩ := Nat.exists_eq_add_of_le (Nat.succ_le_of_lt h)
  refine ⟨((List.range d).map (i + 1 + ·)).map s.symAt, ?_⟩
  have happ : s.symbols (i + 1 + d) = s.symbols (i + 1) ++ ((List.range d).map (i + 1 + ·)).map s.symAt := by
    rw [State.symbols, List.range_add, List.map_append, ← State.symbols]
  rw [happ, State.symbols_succ, List.append_assoc, List.singleton_append]

theorem State.forall_mem_symbols {s : State} {n : Nat} {P : Byte → Prop} :
    (∀ b ∈ s.symbols n, P b) ↔ ∀ i < n, P (s.symAt i) := by
  simp [State.symbols]

/-! ## What HENC does when its checks pass -/

/-- The state whose BITS and BLEN HENC hands to the pack unit (R167). -/
def State.withStream (s : State) (bs : List Bool) : State := (s.putBits bs).setNat .blen bs.length

theorem State.withStream_blen (s : State) {bs : List Bool} (h : bs.length < 2 ^ 32) :
    (s.withStream bs).n .blen = bs.length := by
  rw [State.withStream, State.setNat_n, if_pos rfl, heldBy_toNat (by decide) h]

/-- With a buffer that fits, HENC runs its loop over it and packs what the loop gives (R167). -/
theorem hencBody_of_checks {s : State} (h0 : 1 ≤ s.n .slen) (hcap : s.n .slen ≤ s.cfg.symCap.val) :
    hencBody s = (concatCodes s.cfg.bitsCap.val s.ctOf 0 (s.symbols (s.n .slen))).andThen fun bs =>
      (packBits (s.withStream bs)).andThen fun t => .done (t.setNat .nsym (s.n .slen)) := by
  rw [hencBody, if_neg (by omega), if_neg (by omega)]
  rfl

/-- With codewords for all symbols and room for them in BITS, HENC comes to packing their concatenation (R167). -/
theorem hencBody_of_coded {s : State} (h0 : 1 ≤ s.n .slen) (hcap : s.n .slen ≤ s.cfg.symCap.val)
    (hcode : ∀ i < s.n .slen, (s.ctOf (s.symAt i)).len ≠ 0)
    (hbits : codeBits s.ctOf (s.symbols (s.n .slen)) ≤ s.cfg.bitsCap.val) :
    hencBody s = (packBits (s.withStream ((s.symbols (s.n .slen)).flatMap fun b => codeword (s.ctOf b)))).andThen fun t =>
      .done (t.setNat .nsym (s.n .slen)) := by
  rw [hencBody_of_checks h0 hcap, concatCodes_of_ok (State.forall_mem_symbols.2 hcode) (by omega), Result.andThen_done]

/-- The pack unit, given a stream that fits BITS, asks for room in PAY (R191). -/
theorem packBits_withStream (s : State) {bs : List Bool} (hbits : bs.length ≤ s.cfg.bitsCap.val) :
    packBits (s.withStream bs) =
      if 1 + (bs.length + 7) / 8 ≤ s.cfg.payCap.val then .done (packedState (s.withStream bs)) else .raise .capacity := by
  rw [packBits_eq, s.withStream_blen (hbits.trans_lt s.cfg.bitsCap.isLt)]
  simp only [State.withStream, State.setNat_cfg, State.putBits_cfg, hbits, true_and]

/-- The registers, the bits and the payload after packing a stream (R167, R191). -/
theorem packedState_withStream (s : State) {bs : List Bool} (hbits : bs.length ≤ s.cfg.bitsCap.val)
    (hpay : 1 + (bs.length + 7) / 8 ≤ s.cfg.payCap.val) :
    (packedState (s.withStream bs)).n .blen = bs.length ∧ (packedState (s.withStream bs)).bitString bs.length = bs ∧
      (packedState (s.withStream bs)).n .plen = 1 + (bs.length + 7) / 8 ∧
      (packedState (s.withStream bs)).n .pad = (8 - bs.length % 8) % 8 ∧
      ((packedState (s.withStream bs)).payAt 0).toNat = (8 - bs.length % 8) % 8 ∧
      ∀ idx < 8 * ((bs.length + 7) / 8), streamBit (packedState (s.withStream bs)).payAt idx = bs.getD idx false := by
  have hblen := s.withStream_blen (hbits.trans_lt s.cfg.bitsCap.isLt)
  have hn := packedState_n (s.withStream bs) (by rw [hblen]; exact hpay)
  have hheader := packedState_header (s.withStream bs)
  rw [hblen] at hn hheader
  refine ⟨?_, State.putBits_bitString s bs, hn.1, hn.2, hheader, fun idx hidx => ?_⟩
  · simpa [packedState, State.setNat_n] using hblen
  · rw [packedState_bit _ (by rwa [hblen]), hblen]
    split
    · next h => rw [List.getD_eq_getElem _ _ h]; exact s.putBits_bitAt bs h
    · next h => rw [List.getD_eq_default _ _ (Nat.le_of_not_lt h)]

/-- Settles O35: the loop gives the concatenation, and the pack unit packs it. -/
theorem hencConcatenatesTheCodewords : Obligations.HencConcatenatesTheCodewords := by
  rintro s bs h0 hcap hcode rfl hbits hpay
  set bs := (s.symbols (s.n .slen)).flatMap fun b => codeword (s.ctOf b) with hbs
  have hbody : bodyOf .henc (s.begin Instr.henc.opc) =
      .done ((packedState ((s.begin Instr.henc.opc).withStream bs)).setNat .nsym (s.n .slen)) := by
    refine (hencBody_of_coded (s := s.begin Instr.henc.opc) h0 hcap hcode
      (by simpa [hbs, ← concat_length] using hbits)).trans ?_
    simp only [State.begin_symbols, State.begin_n, State.begin_ctOf, ← hbs]
    rw [packBits_withStream _ (by exact hbits), if_pos (by exact hpay), Result.andThen_done]
  obtain ⟨hexec, hstatus, hframe⟩ := exec_done_spec hbody
  obtain ⟨hblen, hstring, hplen, hpad, hheader, hstream⟩ :=
    packedState_withStream (s.begin Instr.henc.opc) (bs := bs) hbits hpay
  refine ⟨_, hexec, hstatus, hframe, ?_, hstring, ?_, ?_, ?_, hheader, hstream⟩
  · simpa [State.setNat_n] using hblen
  · rw [State.finish_n, State.setNat_n, if_pos rfl, heldBy_toNat (by decide) (s.n_lt _)]
  · simpa [State.setNat_n] using hplen
  · simpa [State.setNat_n] using hpad

/-! ## The errors of HENC -/

theorem hencBody_of_tooLong {s : State} (h0 : 1 ≤ s.n .slen) (hcap : s.cfg.symCap.val < s.n .slen) :
    hencBody s = .raise .capacity := by
  rw [hencBody, if_neg (by omega), if_pos hcap]

/-- An error of the loop is HENC's (R167). -/
theorem henc_endsWith_of_loop {s : State} {k : ErrKind} (h0 : 1 ≤ s.n .slen) (hcap : s.n .slen ≤ s.cfg.symCap.val)
    (hk : concatCodes s.cfg.bitsCap.val s.ctOf 0 (s.symbols (s.n .slen)) = .raise k) : EndsWith .henc k s := by
  refine endsWith_of_raise ((hencBody_of_checks (s := s.begin Instr.henc.opc) h0 hcap).trans ?_)
  simp only [State.begin_cfg, State.begin_symbols, State.begin_n, State.begin_ctOf, hk, Result.andThen_raise]

/-- Settles O36: the loop ends at the first symbol with an error; with none, the pack unit asks for room. -/
theorem hencErrorsInOrder : Obligations.HencErrorsInOrder := by
  refine fun s h0 => ⟨fun hcap => endsWith_of_raise (hencBody_of_tooLong (s := s.begin Instr.henc.opc) h0 hcap),
    fun hcap => ⟨fun i hi hcode hbits => ?_, fun hcode hbits hpay => ?_⟩⟩
  · obtain ⟨rest, hsplit⟩ := s.symbols_split hi
    obtain ⟨hnone, hroom⟩ := concatCodes_split (cap := s.cfg.bitsCap.val) (s.symbols i) (s.symAt i) rest 0
      (State.forall_mem_symbols.2 hcode) (by rw [Nat.zero_add]; exact hbits)
    rw [← hsplit] at hnone hroom
    refine ⟨fun h => henc_endsWith_of_loop h0 hcap (hnone h), fun h hlt => henc_endsWith_of_loop h0 hcap (hroom h ?_)⟩
    rw [State.symbols_succ, List.map_append, List.sum_append, List.map_singleton, List.sum_singleton] at hlt
    rw [Nat.zero_add]
    exact hlt
  · have hlen := concat_length s.ctOf (s.symbols (s.n .slen))
    refine endsWith_of_raise ((hencBody_of_coded (s := s.begin Instr.henc.opc) h0 hcap hcode hbits).trans ?_)
    rw [packBits_withStream, if_neg, Result.andThen_raise]
    · exact Nat.not_le.2 (by rw [← codeBits, ← hlen] at hpay; exact hpay)
    · exact hlen.le.trans hbits

end Sys2Proof.Machine

namespace Sys2Proof.Machine

/-! # MatchCode and HDEC

MatchCode on any code table (R169), HDEC's loop along the pieces of its stream (R170, R171), and its errors (R210). -/

/-! ## MatchCode -/

/-- Only a codeword of the accumulator's own length can equal it (R169). -/
theorem codeMatches_iff (e : CtEntry) (acc : List Bool) :
    (e.len.toNat == acc.length && codeword e == acc) = true ↔ codeword e = acc := by
  rw [Bool.and_eq_true, beq_iff_eq, beq_iff_eq, ← codeword_length]
  exact and_iff_right_of_imp fun h => congrArg List.length h

/-- No symbol below MatchCode's answer has the accumulator as its codeword (R169). -/
theorem matchCode_lowest {ct : Byte → CtEntry} {acc : List Bool} {a b : Byte} (h : matchCode ct acc = some b)
    (hab : a.toNat < b.toNat) : codeword (ct a) ≠ acc := by
  intro ha
  rw [matchCode, List.find?_map, Option.map_eq_some_iff] at h
  obtain ⟨i, hi, rfl⟩ := h
  obtain ⟨-, hi, hlow⟩ := List.find?_range_eq_some.1 hi
  rw [BitVec.toNat_ofNat, Nat.mod_eq_of_lt (by simpa using hi)] at hab
  have hmiss := hlow a.toNat hab
  rw [Function.comp_apply, BitVec.ofNat_toNat, BitVec.setWidth_eq, (codeMatches_iff _ _).2 ha] at hmiss
  cases hmiss

/-- MatchCode answers the lowest symbol whose codeword is the accumulator (R169). -/
theorem matchCode_eq_some_iff {ct : Byte → CtEntry} {acc : List Bool} {b : Byte} :
    matchCode ct acc = some b ↔ codeword (ct b) = acc ∧ ∀ a : Byte, a.toNat < b.toNat → codeword (ct a) ≠ acc := by
  refine ⟨fun h => ⟨matchCode_some h, fun a => matchCode_lowest h⟩, fun ⟨hb, hlow⟩ => ?_⟩
  cases h : matchCode ct acc with
  | none => exact absurd hb (matchCode_none_iff.1 h b)
  | some c =>
    obtain hlt | heq | hlt := Nat.lt_trichotomy b.toNat c.toNat
    · exact absurd hb (matchCode_lowest h hlt)
    · rw [BitVec.eq_of_toNat_eq heq]
    · exact absurd (matchCode_some h) (hlow c hlt)

/-- Settles O39: MatchCode searches the symbols from 0 up, and a codeword has at most 255 bits. -/
theorem matchCodeIsTheLowestSymbol : Obligations.MatchCodeIsTheLowestSymbol := by
  refine fun ct acc hacc => ⟨fun b => ?_, matchCode_none_iff, fun b hb h => ?_, fun hfree a b ha hb => ?_, fun hlong => ?_⟩
  · rw [matchCode_eq_some_iff]
    exact and_congr_left fun _ => ⟨fun h => ⟨by rw [← h, codeword_length], h⟩, And.right⟩
  · rw [← matchCode_some h] at hacc
    exact (len_ne_zero_iff _).2 hacc hb
  · have hlen : ∀ {c}, codeword (ct c) = acc → (ct c).len ≠ 0 := fun hc => (len_ne_zero_iff _).2 (hc ▸ hacc)
    by_contra hne
    exact hfree a b hne (hlen ha) (hlen hb) (ha.trans hb.symm ▸ List.prefix_refl _)
  · refine matchCode_none_iff.2 fun b hb => ?_
    have hlt := (ct b).len.isLt
    rw [← codeword_length, hb] at hlt
    omega

/-! ## HDEC past its checks -/

/-- HDEC's checks before its loop pass, and leave `len` stream bits (R170, R193). -/
structure HdecReady (s : State) (len : Nat) : Prop where
  nsym_pos : 1 ≤ s.n .nsym
  nsym_le : s.n .nsym ≤ s.cfg.symCap.val
  plen_pos : 1 ≤ s.n .plen
  plen_le : s.n .plen ≤ s.cfg.payCap.val
  header_le : (s.payAt 0).toNat ≤ 7
  len_eq : len + (s.payAt 0).toNat = 8 * (s.n .plen - 1)
  len_le : len ≤ s.cfg.bitsCap.val

/-- The first `len` stream bits of the payload (R62, R93). -/
def State.stream (s : State) (len : Nat) : List Bool := (List.range len).map (streamBit s.payAt)

theorem unpackBits_ctOf {s t : State} (h : unpackBits s = .done t) : t.ctOf = s.ctOf :=
  ((unpackBits_frame (rs := [.blen, .pad]) (ms := [.bits]) h (by decide) (by decide) (by decide)).sameElems (sp := .ct)
    (by decide) 256).ctOf

section Ready

variable {s : State} {len : Nat} (h : HdecReady s len)
include h

theorem HdecReady.len_sub : 8 * (s.n .plen - 1) - (s.payAt 0).toNat = len := by have := h.len_eq; omega

theorem HdecReady.unpackBits_eq : unpackBits s = .done (unpackedState s) :=
  unpackBits_of_ok s h.plen_pos h.plen_le h.header_le (by have := h.len_eq; omega) (h.len_sub.trans_le h.len_le)

/-- BLEN, PAD and BITS after HDEC's unpacking (R193). -/
theorem HdecReady.unpacked : (unpackedState s).n .blen = len ∧ (unpackedState s).n .pad = (s.payAt 0).toNat ∧
    ∀ idx < len, (unpackedState s).bitAt idx = streamBit s.payAt idx := by
  have hspec := unpackedState_spec s h.plen_pos (h.len_sub.trans_le h.len_le)
  rwa [h.len_sub] at hspec

/-- HDEC decodes the stream bits with CT (R170). -/
theorem HdecReady.hdecBody_eq : hdecBody s = (decodeBits s.ctOf (s.n .nsym) (s.stream len) [] []).andThen fun out =>
    .done (((unpackedState s).putSym out).setNat .slen (s.n .nsym)) := by
  obtain ⟨hblen, -, hbits⟩ := h.unpacked
  have hstream : (unpackedState s).bitString len = s.stream len :=
    List.map_congr_left fun idx hidx => hbits idx (List.mem_range.1 hidx)
  rw [hdecBody, if_neg (by have := h.nsym_pos; omega), if_neg (Nat.not_lt.2 h.nsym_le), h.unpackBits_eq,
    Result.andThen_done, hblen, hstream, unpackBits_ctOf h.unpackBits_eq]

theorem HdecReady.begin (op : BitVec 8) : HdecReady (s.begin op) len := ⟨h.1, h.2, h.3, h.4, h.5, h.6, h.7⟩

/-- An error of the loop is HDEC's (R170, R171). -/
theorem HdecReady.endsWith {k : ErrKind} (hk : decodeBits s.ctOf (s.n .nsym) (s.stream len) [] [] = .raise k) :
    EndsWith .hdec k s :=
  endsWith_of_raise ((h.begin _).hdecBody_eq.trans (congrArg (Result.andThen · _) hk))

/-- When the loop gives NSYM symbols, HDEC leaves them in SYM (R170). -/
theorem HdecReady.exec_hdec {out : List Byte} (hlen : out.length = s.n .nsym)
    (hout : decodeBits s.ctOf (s.n .nsym) (s.stream len) [] [] = .done out) :
    ∃ t, exec .hdec s = .next t ∧ t.status = okStatus .hdec ∧ Frame [.blen, .pad, .slen] [.bits, .sym] s t ∧
      t.n .slen = s.n .nsym ∧ t.symbols (s.n .nsym) = out ∧ t.n .blen = len ∧ t.n .pad = (s.payAt 0).toNat ∧
      ∀ idx < len, t.bitAt idx = streamBit s.payAt idx := by
  have hbody := (h.begin Instr.hdec.opc).hdecBody_eq.trans (congrArg (Result.andThen · _) hout)
  obtain ⟨hexec, hstatus, hframe⟩ := exec_done_spec (i := .hdec) hbody
  obtain ⟨hblen, hpad, hbits⟩ := (h.begin Instr.hdec.opc).unpacked
  refine ⟨_, hexec, hstatus, hframe, ?_, hlen ▸ State.putSym_symbols _ out, ?_, ?_, hbits⟩
  · rw [State.finish_n, State.setNat_n, if_pos rfl, heldBy_toNat (by decide) (State.n_lt _ _), State.begin_n]
  · simpa [State.setNat_n] using hblen
  · simpa [State.setNat_n] using hpad

end Ready

/-! ## The loop on any table -/

/-- Settles O58: the loop cuts off the pieces one after another. -/
theorem hdecFollowsTheFirstMatches : Obligations.HdecFollowsTheFirstMatches := by
  intro s ps len h1 h2 h3 h4 h5 h6 h7 hlen hps hstream
  have hready : HdecReady s len := ⟨h1, h2, h3, h4, h5, h6, h7⟩
  refine hready.exec_hdec (by rw [List.length_map, hlen]) ?_
  rw [State.stream, hstream, ← List.append_nil (ps.flatMap Prod.fst),
    decodeBits_pieces _ [] ps [] hps (by simp [hlen])]
  simp [decodeBits, hlen]

/-- Settles O59: what the loop does after the pieces, and the cut that every stream has. -/
theorem hdecLoopErrorsOnAnyTable : Obligations.HdecLoopErrorsOnAnyTable := by
  refine ⟨fun s ps rest len h1 h2 h3 h4 h5 h6 h7 hps hstream => ?_, pieces_exist⟩
  have hready : HdecReady s len := ⟨h1, h2, h3, h4, h5, h6, h7⟩
  have hstream : s.stream len = ps.flatMap Prod.fst ++ rest := hstream
  have hcut : ps.length ≤ s.n .nsym → decodeBits s.ctOf (s.n .nsym) (s.stream len) [] [] =
      decodeBits s.ctOf (s.n .nsym) rest [] (ps.map Prod.snd) := fun hle => by
    rw [hstream, decodeBits_pieces _ rest ps [] hps (by simpa using hle), List.nil_append]
  refine ⟨fun hlt => hready.endsWith ?_, fun hle hne hrest => hready.endsWith ?_, fun hlt hnil => hready.endsWith ?_⟩
  · rw [hstream]
    exact decodeBits_surplusPieces _ rest ps [] hps (Nat.zero_le _) (by simpa using hlt)
  · rw [hcut hle]
    exact decodeBits_noMatch _ _ hne hrest
  · rw [hcut hlt.le, hnil]
    simp [decodeBits, hlt]

/-! ## The loop on a `PrefixFree` table -/

/-- The codewords of a word as the pieces HDEC cuts off (R169). -/
def codePieces (ct : Byte → CtEntry) (w : List Byte) : List (List Bool × Byte) := w.map fun c => (codeword (ct c), c)

@[simp] theorem codePieces_length (ct : Byte → CtEntry) (w : List Byte) : (codePieces ct w).length = w.length :=
  List.length_map _

@[simp] theorem codePieces_bits (ct : Byte → CtEntry) (w : List Byte) :
    (codePieces ct w).flatMap Prod.fst = w.flatMap fun c => codeword (ct c) := List.flatMap_map _ _ _

@[simp] theorem codePieces_syms (ct : Byte → CtEntry) (w : List Byte) : (codePieces ct w).map Prod.snd = w := by
  simp [codePieces, Function.comp_def]

theorem codePieces_firstMatch {ct : Byte → CtEntry} (hfree : PrefixFree ct) {w : List Byte}
    (hw : ∀ c ∈ w, (ct c).len ≠ 0) : ∀ p ∈ codePieces ct w, FirstMatch ct p.1 p.2 := by
  intro p hp
  obtain ⟨c, hc, rfl⟩ := List.mem_map.1 hp
  exact firstMatch_codeword hfree (hw c hc)

/-- Bits no codeword is a beginning of match nothing (R171). -/
theorem noMatch_of_no_codeword {ct : Byte → CtEntry} {bs : List Bool}
    (h : ∀ c, (ct c).len ≠ 0 → ¬ codeword (ct c) <+: bs) : NoMatch ct bs := fun _ hq hprefix =>
  matchCode_none_iff.2 fun c hc => h c ((len_ne_zero_iff _).2 (hc ▸ hq)) (hc ▸ hprefix)

/-- Settles O37: the codewords of a `PrefixFree` table are their own first matches. -/
theorem hdecDecodesTheCodewords : Obligations.HdecDecodesTheCodewords := by
  intro s w len h1 h2 h3 h4 h5 h6 h7 hfree hlen hw hstream
  simpa using hdecFollowsTheFirstMatches s (codePieces s.ctOf w) len h1 h2 h3 h4 h5 h6 h7 (by simpa using hlen)
    (codePieces_firstMatch hfree hw) (by simpa using hstream)

/-! ## The errors of HDEC -/

/-- The errors of the unpack unit, in their order (R193, R194, R210). -/
theorem unpackBits_errors (s : State) :
    (s.cfg.payCap.val < s.n .plen → unpackBits s = .raise .capacity) ∧
      (s.n .plen ≤ s.cfg.payCap.val → s.n .plen = 0 → unpackBits s = .raise .truncatedStream) ∧
      (s.n .plen ≤ s.cfg.payCap.val → 1 ≤ s.n .plen →
        (7 < (s.payAt 0).toNat ∨ 8 * (s.n .plen - 1) < (s.payAt 0).toNat → unpackBits s = .raise .invalidPadding) ∧
        ∀ len, (s.payAt 0).toNat ≤ 7 → len + (s.payAt 0).toNat = 8 * (s.n .plen - 1) → s.cfg.bitsCap.val < len →
          unpackBits s = .raise .capacity) := by
  rw [unpackBits_eq]
  refine ⟨fun hpay => if_pos hpay, fun hpay hz => ?_, fun hpay hpos => ⟨fun hpad => ?_, fun len hk hlen hbits => ?_⟩⟩
  · rw [if_neg (by omega), if_pos hz]
  · rw [if_neg (by omega), if_neg (by omega), if_pos hpad]
  · rw [if_neg (by omega), if_neg (by omega), if_neg (by omega), if_pos (by omega)]

theorem hdecBody_of_unpack {s : State} (h0 : 1 ≤ s.n .nsym) (hsym : s.n .nsym ≤ s.cfg.symCap.val) {k : ErrKind}
    (hk : unpackBits s = .raise k) : hdecBody s = .raise k := by
  rw [hdecBody, if_neg (by omega), if_neg (by omega), hk, Result.andThen_raise]

theorem hdecBody_of_tooLong {s : State} (h0 : 1 ≤ s.n .nsym) (hsym : s.cfg.symCap.val < s.n .nsym) :
    hdecBody s = .raise .capacity := by
  rw [hdecBody, if_neg (by omega), if_pos hsym]

/-- Settles O38: the checks in the order of the unpack unit, then those of the loop along the codewords. -/
theorem hdecErrorsInOrder : Obligations.HdecErrorsInOrder := by
  intro s h0
  refine ⟨fun hsym => endsWith_of_raise (hdecBody_of_tooLong (s := s.begin Instr.hdec.opc) h0 hsym), fun hsym => ?_⟩
  have hunpack : ∀ {k}, unpackBits (s.begin Instr.hdec.opc) = .raise k → EndsWith .hdec k s := fun hk =>
    endsWith_of_raise (hdecBody_of_unpack (s := s.begin Instr.hdec.opc) h0 hsym hk)
  obtain ⟨hcap, hempty, hrest⟩ := unpackBits_errors (s.begin Instr.hdec.opc)
  refine ⟨fun hpay => hunpack (hcap hpay), fun hpay hz => hunpack (hempty hpay hz), fun hpay hpos =>
    ⟨fun hpad => hunpack ((hrest hpay hpos).1 hpad), fun len hk hlen =>
      ⟨fun hbits => hunpack ((hrest hpay hpos).2 len hk hlen hbits), fun hbits hfree w rest hw hstream => ?_⟩⟩⟩
  obtain ⟨hlong, hmalformed, hshort⟩ := hdecLoopErrorsOnAnyTable.1 s (codePieces s.ctOf w) rest len h0 hsym hpos hpay hk
    hlen hbits (codePieces_firstMatch hfree hw) (by rwa [codePieces_bits])
  rw [codePieces_length] at hlong hmalformed hshort
  exact ⟨hlong, fun hle hne hno => hmalformed hle hne (noMatch_of_no_codeword hno), hshort⟩

end Sys2Proof.Machine

namespace Sys2Proof.Machine

/-! # The Huffman round trip (R172)

FREQ, HTREE and HCODE leave a `PrefixFree` code; HENC without error had codewords and room for all of the buffer;
HDEC cuts its stream into the codewords again. -/

/-! ## HENC, then HDEC -/

/-- HENC without error had a buffer that fits, codewords for all of it, and room for them and for the payload (R167). -/
theorem henc_checks_of_no_error {s t : State} (h0 : 1 ≤ s.n .slen) (ht : exec .henc s = .next t)
    (he : t.status.err = false) :
    s.n .slen ≤ s.cfg.symCap.val ∧ (∀ i < s.n .slen, (s.ctOf (s.symAt i)).len ≠ 0) ∧
      ((s.symbols (s.n .slen)).flatMap fun b => codeword (s.ctOf b)).length ≤ s.cfg.bitsCap.val ∧
      1 + (((s.symbols (s.n .slen)).flatMap fun b => codeword (s.ctOf b)).length + 7) / 8 ≤ s.cfg.payCap.val := by
  obtain ⟨hlong, herrors⟩ := hencErrorsInOrder s h0
  have hcap : s.n .slen ≤ s.cfg.symCap.val := Nat.le_of_not_lt fun h => not_endsWith_of_no_error ht he (hlong h)
  obtain ⟨u, hbody, -⟩ := done_of_no_error ht he
  obtain ⟨bs, hloop, -⟩ := Result.andThen_eq_done.1
    ((hencBody_of_checks (s := s.begin Instr.henc.opc) h0 hcap).symm.trans hbody)
  obtain ⟨hcode, hbits, -⟩ := concatCodes_done hloop
  have hcode : ∀ i < s.n .slen, (s.ctOf (s.symAt i)).len ≠ 0 := State.forall_mem_symbols.1 hcode
  have hbits : codeBits s.ctOf (s.symbols (s.n .slen)) ≤ s.cfg.bitsCap.val := by simpa using hbits
  rw [concat_length]
  refine ⟨hcap, hcode, hbits, Nat.le_of_not_lt fun h => ?_⟩
  exact not_endsWith_of_no_error ht he ((herrors hcap).2 hcode hbits h)

/-- HDEC reads from the payload HENC wrote the codewords of the buffer (R172). -/
theorem exec_hdec_of_henc {s t u : State} (h0 : 1 ≤ s.n .slen) (ht : exec .henc s = .next t) (he : t.status.err = false)
    (hfree : PrefixFree s.ctOf) (hpayload : SamePayload t u) (hct : u.ctOf = t.ctOf) :
    ∃ v, exec .hdec u = .next v ∧ v.status = okStatus .hdec ∧ v.n .slen = s.n .slen ∧
      v.symbols (s.n .slen) = s.symbols (s.n .slen) := by
  obtain ⟨hcap, hcode, hbits, hroom⟩ := henc_checks_of_no_error h0 ht he
  obtain ⟨t', ht', -, hframe, -, -, hnsym, hplen, -, hheader, hstream⟩ :=
    hencConcatenatesTheCodewords s _ h0 hcap hcode rfl hbits hroom
  obtain rfl : t = t' := Host.Outcome.next.inj (ht.symm.trans ht')
  set bs := (s.symbols (s.n .slen)).flatMap fun b => codeword (s.ctOf b) with hbs
  have huct : u.ctOf = s.ctOf := hct.trans (hframe.sameElems (sp := .ct) (by decide) 256).ctOf
  obtain ⟨huplen, hunsym⟩ := hpayload.n_eq
  obtain ⟨hcfg, -, -, hpay⟩ := hpayload
  rw [hframe.cfg_eq] at hcfg
  have huheader : (u.payAt 0).toNat = (8 - bs.length % 8) % 8 := by rw [hpay 0 (by omega), hheader]
  have hustream : (List.range bs.length).map (streamBit u.payAt) = bs := by
    refine List.ext_getElem (by simp) fun idx h1 h2 => ?_
    rw [List.getElem_map, List.getElem_range, streamBit, hpay _ (by omega), ← streamBit, hstream idx (by omega),
      List.getD_eq_getElem _ _ h2]
  obtain ⟨v, hv, hstatus, -, hslen, hsyms, -⟩ := hdecDecodesTheCodewords u (s.symbols (s.n .slen)) bs.length
    (by omega) (by rw [hcfg]; omega) (by omega) (by rw [hcfg]; omega) (by omega) (by omega) (by rwa [hcfg])
    (huct ▸ hfree) (by rw [State.symbols_length]; omega) (huct ▸ State.forall_mem_symbols.2 hcode) (huct ▸ hustream)
  rw [hunsym, hnsym] at hslen hsyms
  exact ⟨v, hv, hstatus, hslen, hsyms⟩

/-! ## FREQ, HTREE, HCODE -/

/-- The histogram of a buffer that is not empty is a table HTREE takes: it has an entry, and its counts sum
to the length (R113). -/
theorem htree_takes_histogram {t : State} {l : List Byte} (hl : l.length < 2 ^ 32) (hne : l ≠ [])
    (ht : t.ftTable (t.n .ftlen) = histogram l) :
    1 ≤ t.n .ftlen ∧ FtOk (t.n .ftlen) t.ftAt ∧ countBelow t.ftAt (t.n .ftlen) < 2 ^ 32 := by
  refine ⟨Nat.one_le_iff_ne_zero.2 fun h0 => hne ?_, (ftOk_of_histogram hl ht).2, ?_⟩
  · rw [← List.length_eq_zero_iff, ← countSum_histogram l hl, ← ht, h0]
    rfl
  · rw [← countSum_ftTable, ht, countSum_histogram l hl]
    exact hl

/-- FREQ without error, HTREE and HCODE make a `PrefixFree` code for a buffer that is not empty (R166 c, R172). -/
theorem huffman_code_of_buffer {s s1 s2 s3 : State} (h0 : 1 ≤ s.n .slen) (h1 : exec .freq s = .next s1)
    (he : s1.status.err = false) (h2 : exec .htree s1 = .next s2) (h3 : exec .hcode s2 = .next s3) :
    s2.status = okStatus .htree ∧ s3.status = okStatus .hcode ∧ PrefixFree s3.ctOf := by
  have hcap : s.n .slen ≤ s.cfg.symCap.val := Nat.le_of_not_lt fun h =>
    not_endsWith_of_no_error h1 he (freqCapacityError s h)
  obtain ⟨s1', h1', -, htable⟩ := exec_freq_histogram hcap
  obtain rfl : s1 = s1' := Host.Outcome.next.inj (h1.symm.trans h1')
  obtain ⟨hpos, hok, hsum⟩ := htree_takes_histogram (by simpa using s.n_lt .slen)
    (List.length_pos_iff.1 (by rw [State.symbols_length]; omega)) htable
  obtain ⟨s2', h2', hst2, -, hnnode, hroot, -, htree, -⟩ := htreeBuildsTheGreedyTree s1 _ rfl hpos hok hsum
  obtain rfl : s2 = s2' := Host.Outcome.next.inj (h2.symm.trans h2')
  obtain ⟨s3', -, h3', hst3, -⟩ := exec_hcode_records hpos hok.1 hnnode hroot htree
  obtain rfl : s3 = s3' := Host.Outcome.next.inj (h3.symm.trans h3')
  obtain ⟨-, -, -, -, hfree, -⟩ := hcodeCodeIsPrefixFreeAndComplete s2 s3 _ hpos hok.1 hnnode hroot htree h3
  exact ⟨hst2, hst3, hfree⟩

/-- Settles O40: the code is `PrefixFree`, so HDEC undoes HENC; FREQ, HTREE and HCODE leave the buffer alone. -/
theorem huffmanRoundTrip : Obligations.HuffmanRoundTrip := by
  intro s s1 s2 s3 s4 u h0 h1 he1 h2 h3 h4 he4 hpayload hct
  obtain ⟨hst2, hst3, hfree⟩ := huffman_code_of_buffer h0 h1 he1 h2 h3
  have hframe : Frame [.ftlen, .nnode, .root] [.ft, .ht, .ct] s s3 :=
    ((exec_frame h1).mono (by decide) (by decide)).trans
      (((exec_frame h2).mono (by decide) (by decide)).trans ((exec_frame h3).mono (by decide) (by decide)))
  have hslen : s3.n .slen = s.n .slen := hframe.n_eq (by decide)
  obtain ⟨v, hv, hstatus, hvlen, hvsyms⟩ := exec_hdec_of_henc (hslen ▸ h0) h4 he4 hfree hpayload (funext hct)
  rw [hslen] at hvlen hvsyms
  exact ⟨hst2, hst3, v, hv, hstatus, hvlen, fun i hi =>
    List.map_inj_left.1 (hvsyms.trans (hframe.sameElems (by decide) _).symbols) i (List.mem_range.2 hi)⟩

end Sys2Proof.Machine

namespace Sys2Proof.Machine

/-! # BPACK and BUNPK: their errors and how they undo each other (R195, R210) -/

/-! ## The errors -/

/-- Settles O44: each error of the pack and the unpack unit is its command's. -/
theorem bitUnitErrorsInOrder : Obligations.BitUnitErrorsInOrder := by
  intro s
  have hpack : packBits (s.begin Instr.bpack.opc) = .raise .capacity → EndsWith .bpack .capacity s :=
    endsWith_of_raise (i := .bpack)
  have hunpack : ∀ {k}, unpackBits (s.begin Instr.bunpk.opc) = .raise k → EndsWith .bunpk k s :=
    endsWith_of_raise (i := .bunpk)
  obtain ⟨hcap, hempty, hrest⟩ := unpackBits_errors (s.begin Instr.bunpk.opc)
  refine ⟨fun hroom => hpack ?_, fun hpay => hunpack (hcap hpay), fun hpay =>
    ⟨fun hz => hunpack (hempty hpay hz), fun hpos =>
      ⟨fun hpad => hunpack ((hrest hpay hpos).1 hpad), fun len hk hlen hbits =>
        hunpack ((hrest hpay hpos).2 len hk hlen hbits)⟩⟩⟩
  rw [packBits_eq, State.begin_n, State.begin_cfg, if_neg (by omega)]

/-! ## One after the other -/

/-- BPACK in terms of the packed stream: the bits, then filler bits 0 (R191). -/
theorem exec_bpack_stream {s : State} (hbits : s.n .blen ≤ s.cfg.bitsCap.val)
    (hpay : 1 + (s.n .blen + 7) / 8 ≤ s.cfg.payCap.val) :
    ∃ t, exec .bpack s = .next t ∧ t.status = okStatus .bpack ∧ t.cfg = s.cfg ∧
      t.n .plen = 1 + (s.n .blen + 7) / 8 ∧ t.n .pad = (8 - s.n .blen % 8) % 8 ∧
      (t.payAt 0).toNat = (8 - s.n .blen % 8) % 8 ∧
      ∀ idx < 8 * ((s.n .blen + 7) / 8), streamBit t.payAt idx = if idx < s.n .blen then s.bitAt idx else false := by
  obtain ⟨t, ht, hstatus, hframe, hplen, hpad, hheader, hbytes⟩ := bpackPacksTheBits s hbits hpay
  refine ⟨t, ht, hstatus, hframe.cfg_eq, hplen, hpad, hheader, fun idx hidx => ?_⟩
  have hbit := hbytes (idx / 8) (Nat.div_lt_of_lt_mul hidx) (idx % 8) (Nat.mod_lt _ (by decide))
  rwa [Nat.div_add_mod] at hbit

/-- BPACK, then BUNPK (R195 a, c, d): the header says how many filler bits to drop, so the stream bits that stay are the
bits packed. -/
theorem exec_bunpk_of_bpack {s : State} (hbits : s.n .blen ≤ s.cfg.bitsCap.val)
    (hpay : 1 + (s.n .blen + 7) / 8 ≤ s.cfg.payCap.val) :
    ∃ t u, exec .bpack s = .next t ∧ exec .bunpk t = .next u ∧ t.status = okStatus .bpack ∧ u.status = okStatus .bunpk ∧
      u.n .blen = s.n .blen ∧ (∀ i < s.n .blen, u.bitAt i = s.bitAt i) ∧ u.n .pad = t.n .pad ∧
      t.n .plen = 1 + (s.n .blen + 7) / 8 ∧ s.n .blen = 8 * (t.n .plen - 1) - t.n .pad ∧
      (t.payAt 0).toNat = (8 - s.n .blen % 8) % 8 := by
  obtain ⟨t, ht, hstatus, hcfg, hplen, hpad, hheader, hstream⟩ := exec_bpack_stream hbits hpay
  obtain ⟨u, hu, hustatus, -, hblen, hupad, hubits⟩ := bunpkUnpacksTheBits t (s.n .blen) (by omega)
    (by rwa [hplen, hcfg]) (by omega) (by omega) (by rwa [hcfg])
  refine ⟨t, u, ht, hu, hstatus, hustatus, hblen, fun i hi => ?_, ?_, hplen, by omega, hheader⟩
  · exact (hubits i hi).trans ((hstream i (by omega)).trans (if_pos hi))
  · rw [hupad, hheader, hpad]

/-- BUNPK, then BPACK (R195 b, c, d): BLEN determines PLEN and the header again, and packing sets the filler bits to 0. -/
theorem exec_bpack_of_bunpk {s : State} (hpos : 1 ≤ s.n .plen) (hcap : s.n .plen ≤ s.cfg.payCap.val)
    (hk : (s.payAt 0).toNat ≤ 7) (hall : (s.payAt 0).toNat ≤ 8 * (s.n .plen - 1))
    (hbits : 8 * (s.n .plen - 1) - (s.payAt 0).toNat ≤ s.cfg.bitsCap.val) :
    ∃ t u, exec .bunpk s = .next t ∧ exec .bpack t = .next u ∧ t.status = okStatus .bunpk ∧ u.status = okStatus .bpack ∧
      t.n .blen = 8 * (s.n .plen - 1) - t.n .pad ∧ s.n .plen = 1 + (t.n .blen + 7) / 8 ∧
      u.n .plen = s.n .plen ∧ u.payAt 0 = s.payAt 0 ∧
      ∀ idx < 8 * (s.n .plen - 1),
        streamBit u.payAt idx = if idx < 8 * (s.n .plen - 1) - (s.payAt 0).toNat then streamBit s.payAt idx else false := by
  obtain ⟨t, ht, hstatus, hframe, hblen, hpad, htbits⟩ := bunpkUnpacksTheBits s _ hpos hcap hk (Nat.sub_add_cancel hall) hbits
  have hbytes : s.n .plen = 1 + (t.n .blen + 7) / 8 := by omega
  obtain ⟨u, hu, hustatus, -, hplen, -, hheader, hstream⟩ := exec_bpack_stream (s := t)
    (by rwa [hblen, hframe.cfg_eq]) (by rwa [← hbytes, hframe.cfg_eq])
  refine ⟨t, u, ht, hu, hstatus, hustatus, by rw [hblen, hpad], hbytes, hplen.trans hbytes.symm,
    BitVec.eq_of_toNat_eq (by omega), fun idx hidx => ?_⟩
  rw [hstream idx (by omega), hblen]
  exact ite_congr rfl (htbits idx) fun _ => rfl

/-- Settles O43: each order of the two commands. -/
theorem bitUnitsInvertEachOther : Obligations.BitUnitsInvertEachOther :=
  ⟨fun _ => exec_bunpk_of_bpack, fun _ => exec_bpack_of_bunpk⟩

end Sys2Proof.Machine

namespace Sys2Proof.Machine

/-! # What an error leaves behind, and the errors each command can end with

Error entry (R212) at each command's own length registers, and the kinds of R200 that each command's rules raise (R210). -/

/-! ## Error entry -/

/-- A command that ended with an error ended by error entry (R212). -/
theorem errorEntry_of_err {i : Instr} {s t : State} (h : exec i s = .next t) (he : t.status.err = true) :
    ∃ k, t.status = errStatus i k ∧ (∀ r ∈ lengthRegs i, t.reg r = 0) ∧ Frame (outRegs i) (outSpaces i) s t := by
  obtain ⟨u, hu, rfl⟩ | ⟨k, -, rfl⟩ := exec_cases h
  · rw [status_of_done hu] at he
    cases he
  · exact ⟨k, raiseError_spec s i k⟩

/-- Settles O48: error entry at each command's own length registers; a word that is no command's word writes STATUS only. -/
theorem errorEntryClearsTheLengths : Obligations.ErrorEntryClearsTheLengths := by
  refine ⟨fun i s t h he => ?_, fun s w hb hw => ?_⟩
  · obtain ⟨k, hstatus, hzero, hframe⟩ := errorEntry_of_err h he
    refine ⟨⟨k, hstatus⟩, hframe, ?_, ?_, ?_, ?_, ?_, ?_⟩
    · rintro rfl
      exact hzero .ftlen (by simp [lengthRegs])
    · rintro rfl
      exact ⟨hzero .clen (by simp [lengthRegs]), hzero .total (by simp [lengthRegs])⟩
    · rintro (rfl | rfl | rfl) <;> exact hzero .plen (by simp [lengthRegs])
    · rintro (rfl | rfl) <;> exact hzero .slen (by simp [lengthRegs])
    · rintro rfl
      exact ⟨hzero .nnode (by simp [lengthRegs]), hzero .root (by simp [lengthRegs])⟩
    · rintro rfl
      exact hzero .blen (by simp [lengthRegs])
  · exact writeCmd_of_illegal hb fun i hi => hw i ((decode_eq_ok_iff w i).2 hi)

/-! ## Results that raise nothing but given kinds -/

/-- If the result is an error, its kind is one of `ks`. -/
def Result.RaisesOnly {α : Type} (ks : List ErrKind) (r : Result α) : Prop := ∀ k, r = .raise k → k ∈ ks

namespace Result.RaisesOnly

variable {α β : Type} {ks ks' : List ErrKind}

theorem done (a : α) : RaisesOnly ks (.done a) := nofun

theorem stuck (f : Fault) : RaisesOnly ks (.stuck f : Result α) := nofun

theorem raise {k : ErrKind} (hk : k ∈ ks) : RaisesOnly ks (.raise k : Result α) := by
  rintro _ ⟨⟩
  exact hk

theorem mono {r : Result α} (h : RaisesOnly ks r) (hks : ks ⊆ ks') : RaisesOnly ks' r := fun k hk => hks (h k hk)

/-- A check with a branch on each side. -/
theorem ite {c : Prop} [Decidable c] {a b : Result α} (ha : RaisesOnly ks a) (hb : RaisesOnly ks b) :
    RaisesOnly ks (if c then a else b) := by
  split
  · exact ha
  · exact hb

/-- A check whose failure raises `k`. -/
theorem check {c : Prop} [Decidable c] {k : ErrKind} {b : Result α} (hk : k ∈ ks) (hb : RaisesOnly ks b) :
    RaisesOnly ks (if c then .raise k else b) :=
  ite (raise hk) hb

theorem andThen {r : Result α} {f : α → Result β} (hr : RaisesOnly ks r) (hf : ∀ a, RaisesOnly ks (f a)) :
    RaisesOnly ks (r.andThen f) := by
  intro k hk
  obtain hk | ⟨a, -, hk⟩ := andThen_eq_raise.1 hk
  · exact hr k hk
  · exact hf a k hk

end Result.RaisesOnly

/-! ## The errors of the parts -/

open Result (RaisesOnly)

theorem validateFt_raisesOnly (s : State) : RaisesOnly [.modelInvariant] (validateFt s) := by
  obtain h | h := validateFt_cases s <;> rw [h]
  · exact .raise (by simp)
  · exact .done _

theorem accumulate_raisesOnly (base : Nat) (t : List FtEntry) : RaisesOnly [.modelInvariant] (accumulate base 0 t) := by
  rw [accumulate_eq base 0 t (Nat.zero_le _)]
  exact .ite (.done _) (.raise (by simp))

theorem encodeSymbol_raisesOnly (base : Nat) (t : List CdfEntry) (b : Byte) (xe : Nat × List Byte) :
    RaisesOnly [.modelInvariant] (encodeSymbol base t b xe) := by
  unfold encodeSymbol
  split
  · exact .raise (by simp)
  · exact .ite (.stuck _) (.done _)

theorem encodeSymbols_raisesOnly (base : Nat) (t : List CdfEntry) (bs : List Byte) :
    RaisesOnly [.modelInvariant] (encodeSymbols base t bs) := by
  induction bs with
  | nil => exact .done _
  | cons b bs ih => exact ih.andThen (encodeSymbol_raisesOnly base t b)

theorem decodeSymbols_raisesOnly (base : Nat) (t : List CdfEntry) (n x : Nat) (bs : List Byte) :
    RaisesOnly [.decodeMismatch, .truncatedStream] (decodeSymbols base t n x bs) := by
  induction n generalizing x bs with
  | zero => exact .done _
  | succ n ih =>
    rw [decodeSymbols]
    split
    · exact .raise (by simp)
    · exact .check (by simp) ((ih _ _).andThen fun _ => .done _)

theorem concatCodes_raisesOnly (cap : Nat) (ct : Byte → CtEntry) (len : Nat) (bs : List Byte) :
    RaisesOnly [.modelInvariant, .capacity] (concatCodes cap ct len bs) := by
  induction bs generalizing len with
  | nil => exact .done _
  | cons b bs ih =>
    rw [concatCodes]
    exact .check (by simp) (.check (by simp) ((ih _).andThen fun _ => .done _))

theorem decodeBits_raisesOnly (ct : Byte → CtEntry) (n : Nat) (bs acc : List Bool) (out : List Byte) :
    RaisesOnly [.truncatedStream, .malformedCode, .lengthMismatch] (decodeBits ct n bs acc out) := by
  induction bs generalizing acc out with
  | nil => exact .check (by simp) (.check (by simp) (.done _))
  | cons b bs ih =>
    rw [decodeBits]
    split
    · exact ih _ _
    · exact .check (by simp) (ih _ _)

theorem packBits_raisesOnly (s : State) : RaisesOnly [.capacity] (packBits s) := by
  rw [packBits_eq]
  exact .ite (.done _) (.raise (by simp))

theorem unpackBits_raisesOnly (s : State) :
    RaisesOnly [.invalidPadding, .truncatedStream, .capacity] (unpackBits s) := by
  rw [unpackBits_eq]
  exact .check (by simp) (.check (by simp) (.check (by simp) (.check (by simp) (.done _))))

/-! ## The errors of the commands -/

/-- The kinds of error a command can end with (R210), by rising code. -/
def errKinds : Instr → List ErrKind
  | .freq => [.capacity]
  | .cdf => [.modelInvariant]
  | .renc => [.modelInvariant, .capacity]
  | .rdec => [.decodeMismatch, .truncatedStream, .modelInvariant, .capacity]
  | .htree => [.modelInvariant]
  | .hcode => []
  | .henc => [.modelInvariant, .capacity]
  | .hdec => [.invalidPadding, .truncatedStream, .malformedCode, .lengthMismatch, .capacity]
  | .bpack => [.capacity]
  | .bunpk => [.invalidPadding, .truncatedStream, .capacity]

theorem rencBody_raisesOnly (s : State) : RaisesOnly (errKinds .renc) (rencBody s) :=
  .ite (.done _) <| .check (by decide) <| .check (by decide) <|
    ((encodeSymbols_raisesOnly _ _ _).mono (by decide)).andThen fun _ => .check (by decide) (.done _)

theorem rdecBody_raisesOnly (s : State) : RaisesOnly (errKinds .rdec) (rdecBody s) :=
  .ite (.done _) <| .check (by decide) <| .check (by decide) <| .check (by decide) <|
    ((decodeSymbols_raisesOnly _ _ _ _ _).mono (by decide)).andThen fun _ => .done _

/-- HCODE raises nothing: a tree it cannot walk stops the model (R210; log 10). -/
theorem hcodeBody_raisesOnly (s : State) : RaisesOnly (errKinds .hcode) (hcodeBody s) := by
  refine .ite (.done _) ?_
  split
  · exact .done _
  · split
    · exact .stuck _
    · exact .done _

theorem hencBody_raisesOnly (s : State) : RaisesOnly (errKinds .henc) (hencBody s) :=
  .ite (.done _) <| .check (by decide) <|
    ((concatCodes_raisesOnly _ _ _ _).mono (by decide)).andThen fun _ =>
      ((packBits_raisesOnly _).mono (by decide)).andThen fun _ => .done _

theorem hdecBody_raisesOnly (s : State) : RaisesOnly (errKinds .hdec) (hdecBody s) :=
  .ite (.done _) <| .check (by decide) <|
    ((unpackBits_raisesOnly _).mono (by decide)).andThen fun _ =>
      ((decodeBits_raisesOnly _ _ _ _ _).mono (by decide)).andThen fun _ => .done _

/-- A body raises nothing but the kinds of its command (R210). -/
theorem bodyOf_raisesOnly (i : Instr) (s : State) : RaisesOnly (errKinds i) (bodyOf i s) := by
  cases i with
  | freq => exact .check (by decide) (.done _)
  | cdf => exact (validateFt_raisesOnly s).andThen fun t => (accumulate_raisesOnly _ t).andThen fun _ => .done _
  | renc => exact rencBody_raisesOnly s
  | rdec => exact rdecBody_raisesOnly s
  | htree => exact (validateFt_raisesOnly s).andThen fun _ => .check (by decide) (.done _)
  | hcode => exact hcodeBody_raisesOnly s
  | henc => exact hencBody_raisesOnly s
  | hdec => exact hdecBody_raisesOnly s
  | bpack => exact packBits_raisesOnly s
  | bunpk => exact unpackBits_raisesOnly s

/-- ERRCODE after a command is 0 or the code of one of its kinds (R106, R200, R210). -/
theorem exec_errcode {i : Instr} {s t : State} (h : exec i s = .next t) :
    t.status.errcode ∈ 0 :: (errKinds i).map ErrKind.code := by
  obtain ⟨u, hu, rfl⟩ | ⟨k, hk, rfl⟩ := exec_cases h
  · rw [status_of_done hu]
    exact List.mem_cons_self
  · rw [(raiseError_spec s i k).1]
    exact List.mem_cons_of_mem _ (List.mem_map_of_mem (bodyOf_raisesOnly i _ k hk))

/-- Settles O49: the codes of each command's kinds are the numbers listed. -/
theorem errorCodesOfEachCommand : Obligations.ErrorCodesOfEachCommand :=
  ⟨⟨fun _ _ => rfl, rfl, rfl, rfl, rfl, rfl, rfl, rfl, rfl⟩, fun _ _ =>
    ⟨exec_errcode, exec_errcode, exec_errcode, exec_errcode, exec_errcode, fun h => List.mem_singleton.1 (exec_errcode h),
      exec_errcode, exec_errcode, exec_errcode, exec_errcode⟩⟩

end Sys2Proof.Machine

namespace Sys2Proof.Machine

/-! # Reset, every command's end, and who changes the tables

The reset event and the reset state (R230 to R234), that every command ends (R247), and that each table has one command
that changes it (R238, R240). -/

/-! ## Every command ends -/

/-- Settles O52: the only two stops need an entry of frequency 0 or nodes that are no tree, which the invariants exclude. -/
theorem everyCommandEnds : Obligations.EveryCommandEnds := by
  intro s hcdf htree i
  obtain ⟨hfault, hrefused⟩ := stopsOnlyOutsideTheInvariant i s
  cases h : exec i s with
  | next t =>
    obtain ⟨hbusy, hdone, -⟩ := everyCommandLeavesItsStatus i s t h
    exact ⟨t, rfl, hbusy, hdone⟩
  | fault f =>
    obtain ⟨-, -, j, hj, hzero⟩ | ⟨-, -, hno⟩ := hfault f h
    · obtain ⟨-, hfreq, -⟩ := hcdf
      have hpos := hfreq j hj
      rw [hzero] at hpos
      exact absurd hpos (by decide)
    · exact absurd htree hno
  | refused r => exact absurd h (hrefused r)

/-! ## What a host action can write -/

/-- The action starts command `i`: its word written to CMD, or a pseudo-instruction whose next command it is (R35, R104). -/
def Starts (a : HostAction) (i : Instr) : Prop := a = .writeCtl .cmd (encode i) ∨ ∃ cs, a = .issue (i :: cs)

/-- The action writes data register `r`: as an output of the command it starts, or by the host's right (R33, R65). -/
def WritesReg (a : HostAction) (r : Reg) : Prop :=
  (∃ i, Starts a i ∧ r ∈ outRegs i) ∨ regHostWritable r = true ∧ ∃ v, a = .setr r v

/-- The action writes memory `sp`: as an output of the command it starts, or by the host's right (R46, R65). -/
def WritesSpace (a : HostAction) (sp : SpaceId) : Prop :=
  (∃ i, Starts a i ∧ sp ∈ outSpaces i) ∨ spaceHostWritable sp = true ∧ ∃ i e, a = .loadm i e ∧ e.space = sp

/-- `t` reads as `s` outside the registers and the memories that the action writes. -/
def Keeps (a : HostAction) (s t : State) : Prop :=
  (∀ r, ¬ WritesReg a r → t.reg r = s.reg r) ∧ ∀ sp, ¬ WritesSpace a sp → ∀ i, t.elemAt sp i = s.elemAt sp i

/-- No two commands have the same word (R81). -/
theorem encode_injective {i j : Instr} (h : encode i = encode j) : i = j :=
  Except.ok.inj ((decode_encode i).symm.trans ((congrArg decode h).trans (decode_encode j)))

section Writes

variable {a : HostAction} {s t : State}

theorem Frame.keeps {rs : List Reg} {ms : List SpaceId} (h : Frame rs ms s t) (hr : ∀ r ∈ rs, WritesReg a r)
    (hm : ∀ sp ∈ ms, WritesSpace a sp) : Keeps a s t := by
  obtain ⟨hreg, helem, -, -⟩ := h
  exact ⟨fun r hno => hreg r fun hmem => hno (hr r hmem), fun sp hno => helem sp fun hmem => hno (hm sp hmem)⟩

theorem Keeps.refl (a : HostAction) (s : State) : Keeps a s s := ⟨fun _ _ => rfl, fun _ _ _ => rfl⟩

/-- A command's outputs are all that its start writes (R65). -/
theorem keeps_exec {i : Instr} (ha : Starts a i) (h : exec i s = .next t) : Keeps a s t :=
  (exec_frame h).keeps (fun _ hr => .inl ⟨i, ha, hr⟩) fun _ hm => .inl ⟨i, ha, hm⟩

/-- A write of CMD runs the command whose word it is, or touches STATUS only (R35, R96, R97). -/
theorem keeps_writeCmd {w : Word} (ha : ∀ i, w = encode i → Starts a i) (h : writeCmd w s = .next t) : Keeps a s t := by
  obtain ⟨-, ⟨i, hw, hi⟩ | ⟨-, rfl⟩⟩ := writeCmd_cases h
  · exact keeps_exec (ha i ((decode_eq_ok_iff w i).1 hw)) hi
  · exact ((Frame.begin [] [] s _).trans (Frame.finish _ _ _ _)).keeps (by simp) (by simp)

theorem keeps_issueNext {cs : List Instr} (h : issueNext cs s = .next t) : Keeps (.issue cs) s t := by
  obtain ⟨-, rfl⟩ | ⟨c, rest, u, rfl, hu, hend⟩ := issueNext_cases h
  · exact .refl _ _
  · have hkeeps : Keeps (.issue (c :: rest)) s u :=
      keeps_writeCmd (fun i hi => .inr ⟨rest, by rw [encode_injective hi]⟩) hu
    obtain ⟨-, rfl⟩ | ⟨-, -, rfl⟩ := hend
    · exact hkeeps
    · exact (hkeeps :)

theorem keeps_whenIdle_same (h : whenIdle s (.next s) = .next t) : Keeps a s t := by
  obtain ⟨-, hst⟩ := whenIdle_eq_next.1 h
  cases hst
  exact .refl _ _

theorem keeps_setr {r : Reg} {v : Word}
    (h : whenIdle s (.next (if regHostWritable r then s.setReg r v else s)) = .next t) : Keeps (.setr r v) s t := by
  obtain ⟨-, hst⟩ := whenIdle_eq_next.1 h
  cases hst
  split
  · next hr =>
    refine (Frame.setReg (List.mem_singleton_self r) [] s v).keeps (fun q hq => ?_) (by simp)
    obtain rfl := List.mem_singleton.1 hq
    exact .inr ⟨hr, v, rfl⟩
  · exact .refl _ _

theorem keeps_hostStore {i : Nat} {e : Elem} (h : hostStore i e s = .next t) : Keeps (.loadm i e) s t := by
  obtain ⟨-, rfl⟩ := hostStore_eq_next.1 h
  split
  · next he =>
    refine (storeElem_frame [] i e s).keeps (by simp) fun sp hsp => ?_
    obtain rfl := List.mem_singleton.1 hsp
    exact .inr ⟨he, i, e, rfl, rfl⟩
  · exact .refl _ _

/-- A host action other than reset changes only what it writes (R33, R46, R65, R67). -/
theorem keeps_hostStep (ha : a ≠ .reset) (h : hostStep a s = .next t) : Keeps a s t := by
  cases a with
  | setr r v => exact keeps_setr h
  | writeCtl c v =>
    cases c with
    | cmd => exact keeps_writeCmd (fun i hi => .inl (by rw [hi])) h
    | status => exact keeps_whenIdle_same h
    | cfg => exact keeps_whenIdle_same h
  | loadm i e => exact keeps_hostStore (whenIdle_eq_next.1 h).2
  | getr r => exact keeps_whenIdle_same h
  | readCtl c =>
    cases c with
    | cmd => exact keeps_whenIdle_same h
    | status => cases h; exact .refl _ _
    | cfg => exact keeps_whenIdle_same h
  | readm sp i =>
    obtain ⟨-, hst⟩ := whenIdle_eq_next.1 h
    obtain ⟨-, rfl⟩ := hostLoad_eq_next.1 hst
    exact .refl _ _
  | issue cs => exact keeps_issueNext h
  | reset => exact absurd rfl ha

/-! ## Each table has one command that changes it -/

/-- A register the host may not write changes only by a command with it among its outputs. -/
theorem not_writesReg {r : Reg} {i : Instr} (hro : regHostWritable r = false) (hout : ∀ j, r ∈ outRegs j → j = i)
    (ha : ¬ Starts a i) : ¬ WritesReg a r := by
  rintro (⟨j, hj, hr⟩ | ⟨hr, -⟩)
  · exact ha (hout j hr ▸ hj)
  · simp [hro] at hr

/-- A memory changes only by a command with it among its outputs or by the host's write of an element. -/
theorem not_writesSpace {sp : SpaceId} {i : Instr} (hout : ∀ j, sp ∈ outSpaces j → j = i) (ha : ¬ Starts a i)
    (hhost : spaceHostWritable sp = true → ∀ k e, a = .loadm k e → e.space ≠ sp) : ¬ WritesSpace a sp := by
  rintro (⟨j, hj, hm⟩ | ⟨hw, k, e, hk, he⟩)
  · exact ha (hout j hm ▸ hj)
  · exact hhost hw k e hk he

/-- CLEN, TOTAL and CDFT are outputs of CDF alone, NNODE, ROOT and HT of HTREE, CT of HCODE (R65). -/
theorem table_outputs (j : Instr) :
    (.clen ∈ outRegs j ∨ .total ∈ outRegs j ∨ .cdft ∈ outSpaces j → j = .cdf) ∧
      (.nnode ∈ outRegs j ∨ .root ∈ outRegs j ∨ .ht ∈ outSpaces j → j = .htree) ∧
      (.ct ∈ outSpaces j → j = .hcode) := by
  cases j <;> decide

theorem Keeps.cdfTable (h : Keeps a s t) (ha : ¬ Starts a .cdf) :
    t.reg .clen = s.reg .clen ∧ t.reg .total = s.reg .total ∧ ∀ j, t.cdftAt j = s.cdftAt j := by
  obtain ⟨hreg, helem⟩ := h
  have hout := fun j => (table_outputs j).1
  refine ⟨hreg _ (not_writesReg rfl (fun j hj => hout j (.inl hj)) ha),
    hreg _ (not_writesReg rfl (fun j hj => hout j (.inr (.inl hj))) ha), fun j => Elem.cdft.inj (helem .cdft ?_ j)⟩
  exact not_writesSpace (fun j hj => hout j (.inr (.inr hj))) ha nofun

theorem Keeps.huffmanTree (h : Keeps a s t) (ha : ¬ Starts a .htree) :
    t.reg .nnode = s.reg .nnode ∧ t.reg .root = s.reg .root ∧ ∀ q, t.htAt q = s.htAt q := by
  obtain ⟨hreg, helem⟩ := h
  have hout := fun j => (table_outputs j).2.1
  refine ⟨hreg _ (not_writesReg rfl (fun j hj => hout j (.inl hj)) ha),
    hreg _ (not_writesReg rfl (fun j hj => hout j (.inr (.inl hj))) ha), fun q => Elem.ht.inj (helem .ht ?_ q)⟩
  exact not_writesSpace (fun j hj => hout j (.inr (.inr hj))) ha nofun

theorem Keeps.codeTable (h : Keeps a s t) (ha : ¬ Starts a .hcode) (hhost : ∀ i e, a ≠ .loadm i (.ct e)) (j : Nat) :
    t.ctAt j = s.ctAt j := by
  refine Elem.ct.inj (h.2 .ct (not_writesSpace (fun j => (table_outputs j).2.2) ha fun _ i e ha' he => ?_) j)
  cases e with
  | ct e => exact hhost i e ha'
  | _ => cases he

end Writes

/-- Settles O54: a host action changes only what it writes, and each table is written by one command, CT also by the host. -/
theorem tablesChangeOnlyByTheirCommands : Obligations.TablesChangeOnlyByTheirCommands := by
  intro s t a rest hin ha h
  have hkeeps : Keeps a { s with inputs := rest } t := keeps_hostStep ha (by rwa [step, hin] at h)
  have hstarts : ∀ {i}, a ≠ .writeCtl .cmd (encode i) → (∀ cs, a ≠ .issue (i :: cs)) → ¬ Starts a i :=
    fun hw hi => not_or.2 ⟨hw, not_exists.2 hi⟩
  exact ⟨fun hw hi => hkeeps.cdfTable (hstarts hw hi), fun hw hi => hkeeps.huffmanTree (hstarts hw hi),
    fun hw hi hhost => hkeeps.codeTable (hstarts hw hi) hhost⟩

/-! ## Reset -/

theorem State.reg_of_regs_zero {s : State} (h : s.regs = Regs.zero) (r : Reg) : s.reg r = 0 := by
  cases r <;> simp [State.reg_eq_heldBy, h, heldBy, Regs.zero, Regs.get]

theorem State.readCtl_status_eq_zero {s : State} (h : s.status = Status.zero) : s.readCtl .status = 0 := by
  simp only [State.readCtl, h]
  decide

/-- Settles O11: the reset event writes the register file and STATUS of the reset state and keeps the constants and the
queue (log 15). -/
theorem resetEventGivesTheResetValues : Obligations.ResetEventGivesTheResetValues := by
  intro s rest
  exact ⟨{ s with inputs := rest }.resetEvent, rfl, State.reg_of_regs_zero rfl, State.readCtl_status_eq_zero rfl, rfl,
    congrArg cfgWord rfl, rfl, rfl⟩

/-- Settles O12: the reset state's register file is 0, and CFG is the word of `P = 16`. -/
theorem resetStateRegisters : Obligations.ResetStateRegisters :=
  ⟨State.reg_of_regs_zero rfl, State.readCtl_status_eq_zero rfl, rfl, by decide⟩

/-- No element of a memory is known in the reset state, and every key is below the next unused one (R232; log 4). -/
theorem memoriesOk_resetWith (c : Config) : MemoriesOk (State.resetWith c) := by
  intro sp
  cases sp <;> exact Memory.ok_unknown

/-- Settles O51: after reset the memories are empty, STATUS is 0 and both tables are empty. -/
theorem resetMeetsTheInvariant : Obligations.ResetMeetsTheInvariant := fun c =>
  (inv_iff _).2 ⟨memoriesOk_resetWith c, by simp [StatusInv, State.resetWith, Status.zero], cdfInv_empty rfl rfl,
    .inl ⟨rfl, rfl⟩⟩

/-! ## The commands on empty inputs (R234) -/

section Empty

variable {s : State}

theorem State.reg_eq_zero {r : Reg} (h : s.n r = 0) : s.reg r = 0 := BitVec.eq_of_toNat_eq h

theorem exec_freq_empty (h : s.reg .slen = 0) :
    ∃ t, exec .freq s = .next t ∧ t.status = okStatus .freq ∧ t.reg .ftlen = 0 := by
  have h0 := State.n_eq_zero h
  obtain ⟨t, hexec, hstatus, htab⟩ := exec_freq_histogram (s := s) (by omega)
  have hlen := congrArg List.length htab
  rw [h0, State.ftTable_length] at hlen
  exact ⟨t, hexec, hstatus, State.reg_eq_zero hlen⟩

theorem exec_cdf_empty (h : s.reg .ftlen = 0) :
    ∃ t, exec .cdf s = .next t ∧ t.status = okStatus .cdf ∧ t.reg .clen = 0 ∧ t.reg .total = 0 := by
  have htab : s.ftTable (s.n .ftlen) = [] := by rw [State.n_eq_zero h]; rfl
  obtain ⟨t, hexec, hstatus, -, htotal, hcdf⟩ := exec_cdf_entries htab (by simp) rfl (Nat.zero_le _)
  have hlen := congrArg List.length hcdf
  rw [State.cdfTable_length] at hlen
  exact ⟨t, hexec, hstatus, State.reg_eq_zero hlen, State.reg_eq_zero htotal⟩

/-- No bit is packed as the header alone (R191). -/
theorem exec_bpack_empty (h : s.reg .blen = 0) (hpay : 1 ≤ s.cfg.payCap.val) :
    ∃ t, exec .bpack s = .next t ∧ t.status = okStatus .bpack ∧ t.n .plen = 1 ∧ t.payAt 0 = 0 := by
  have h0 := State.n_eq_zero h
  obtain ⟨t, hexec, hstatus, -, hplen, -, hheader, -⟩ := exec_bpack_stream (s := s) (by omega) (by omega)
  rw [h0] at hplen hheader
  exact ⟨t, hexec, hstatus, hplen, BitVec.eq_of_toNat_eq hheader⟩

/-- A payload without a header is cut off (R194, R203). -/
theorem exec_bunpk_empty (h : s.reg .plen = 0) :
    ∃ t, exec .bunpk s = .next t ∧ t.status = errStatus .bunpk .truncatedStream := by
  have h0 := State.n_eq_zero h
  obtain ⟨-, -, herrors⟩ := bitUnitErrorsInOrder s
  obtain ⟨t, hexec, hstatus, -⟩ := (herrors (by omega)).1 h0
  exact ⟨t, hexec, hstatus⟩

end Empty

/-- Settles O14: each command on its empty input; the empty buffer of the four codec commands is R95's. -/
theorem commandsStraightAfterReset : Obligations.CommandsStraightAfterReset := by
  intro s hzero
  obtain ⟨hencode, hdecode⟩ := emptyBufferTouchesNoCodec s
  obtain ⟨hrenc, hhenc⟩ := hencode (hzero .slen)
  obtain ⟨hrdec, hhdec⟩ := hdecode (hzero .nsym)
  obtain ⟨th, htree, hthstatus, hnnode, hroot, -⟩ := (htreeEmptyAndRejected s).1 (State.n_eq_zero (hzero .ftlen))
  obtain ⟨tc, hcode, htcstatus, -, hct⟩ := exec_hcode_empty (State.n_eq_zero (hzero .nnode))
  refine ⟨exec_freq_empty (hzero .slen), exec_cdf_empty (hzero .ftlen), ⟨_, hrenc, rfl, rfl⟩, ⟨_, hhenc, rfl, rfl⟩,
    ⟨_, hrdec, rfl, rfl⟩, ⟨_, hhdec, rfl, rfl⟩, ⟨th, htree, hthstatus, hnnode, hroot⟩, ⟨tc, hcode, htcstatus, fun b => ?_⟩,
    exec_bpack_empty (hzero .blen), exec_bunpk_empty (hzero .plen)⟩
  rw [hct.absent b (by simp)]
  rfl

end Sys2Proof.Machine
